-- ==== Sys2Proof/Word.lean ====
section
/-!
DEFINITION. The word types of FP2I8: a 32-bit word (a command word, STATUS, one binary32 scalar) and a byte of
memory (10_state R33). Addresses, counts and scalar indexes are unbounded naturals: the spec computes them "as
mathematical integers" (20_memory R75), and their register widths are parameters (00_scope R7).
-/

namespace Sys2Proof

/-- A 32-bit word: the command word, STATUS, or the bits of one binary32 scalar. -/
abbrev Word := BitVec 32

/-- One byte of memory, or one output scalar in two's complement. -/
abbrev Byte := BitVec 8

end Sys2Proof
end

