-- ==== Sys2Proof/Syntax.lean ====
section
/-!
DEFINITION. The commands of FP2I8, one constructor per row of spec/opcode_table.json (30_encoding R92). The command word
carries no operand (30_encoding R91): the three arguments are in DST, SRC and COUNT (30_encoding R93).
-/

namespace Sys2Proof

/-- A command: 00_scope R12, 30_encoding R92. -/
inductive Instr where
  /-- CONV.REF, the Reference Kernel (40_reference_kernel R122) -/
  | convRef
  /-- CONV.VU, the Wide-Vector Kernel, unaligned (42_vector_commands R175) -/
  | convVu
  /-- CONV.VA, the Wide-Vector Kernel, aligned (42_vector_commands R177) -/
  | convVa
deriving DecidableEq, Repr

end Sys2Proof
end

