-- ==== Sys2Proof/Config.lean ====
section
/-!
DEFINITION. What an implementation fixes: the parameters of 00_scope R7 and the free values (log entries 1, 8, 9, 10).
The parameters R7 leaves OPEN are a record that the state carries and no step writes, so that every statement over all
states is a statement over all parameter values; the ones R7 fixes are constants.
-/

namespace Sys2Proof

/-- ENDIAN (00_scope R7, 20_memory R63): the byte order of an input scalar. -/
inductive Endian where
  | little
  | big
deriving DecidableEq, Repr

/-- NAN_POLICY (00_scope R7, 40_reference_kernel R119): what a NaN input scalar produces. -/
inductive NanPolicy where
  /-- any of the 256 values, chosen afresh for every NaN scalar -/
  | draw
  /-- the one integer `v`, -128 <= v <= 127, held as its two's-complement byte -/
  | fixed (v : Byte)
  /-- the step raises NaNInputFault -/
  | fault
deriving DecidableEq, Repr

/-- Who reads a byte in a race: an engine, by its number, or another agent. Each read is free for itself
(93_implementation_defined U6), so no two readers share a free value. -/
inductive Reader where
  | engine (k : Nat)
  | agent
deriving DecidableEq, Repr

/-- Who draws the value of a NaN scalar under NAN_POLICY = draw. A NaN may give different values in the scalar path and in
the lane processor and under different commands (40_reference_kernel R119), so each is a drawer of its own. -/
inductive Drawer where
  /-- the scalar path, run by the command with this word -/
  | scalarPath (cmd : Word)
  /-- the lane processor, run by the command with this word -/
  | laneProcessor (cmd : Word)
  /-- a reset in RUN that finds output scalar `k` not yet stored (70_reset_and_hazards R242) -/
  | reset (k : Nat)
  /-- a reader that reads output scalar `k` of a BUSY engine before its store is recorded (20_memory R80) -/
  | observer (who : Reader) (k : Nat)
deriving DecidableEq, Repr

/-- The parameters 00_scope R7 leaves open: model arguments, constant while the machine runs (log entry 1). -/
structure Params where
  addrBits   : Nat
  countBits  : Nat
  endian     : Endian
  nanPolicy  : NanPolicy
  numEngines : Nat
deriving DecidableEq, Repr

/-- The defaults of 00_scope R7. -/
def Params.default : Params :=
  { addrBits := 64, countBits := 32, endian := .little, nanPolicy := .draw, numEngines := 1 }

/-- The number of byte addresses, `2^ADDR_BITS` (10_state R33). -/
def Params.space (p : Params) : Nat := 2 ^ p.addrBits

/-- COUNT holds values below `2^COUNT_BITS` (10_state R26). -/
def Params.countRange (p : Params) : Nat := 2 ^ p.countBits

namespace Config

/-- CLIP_MAX (00_scope R7). -/
abbrev clipMax : Int := 127

/-- CLIP_MIN (00_scope R7). -/
abbrev clipMin : Int := -128

/-- CLIP_MAX as binary32, the constant of VMIN (00_scope R7, 40_reference_kernel R112). -/
abbrev clipMaxWord : Word := 0x42FE0000#32

/-- CLIP_MIN as binary32, the constant of VMAX (00_scope R7, 40_reference_kernel R112). -/
abbrev clipMinWord : Word := 0xC3000000#32

/-- IN_SCALAR_BYTES (00_scope R7). -/
abbrev inScalarBytes : Nat := 4

/-- OUT_SCALAR_BYTES (00_scope R7). -/
abbrev outScalarBytes : Nat := 1

/-- VLEN_BYTES (00_scope R7). -/
abbrev vlenBytes : Nat := 16

/-- LANES_F (00_scope R7). -/
abbrev lanesF : Nat := 4

/-- LOADS_PER_GROUP (00_scope R7, 90_conflicts C1). -/
abbrev loadsPerGroup : Nat := 4

/-- GROUP_SCALARS (00_scope R7, 90_conflicts C1). -/
abbrev groupScalars : Nat := 16

/-- GROUP_SAMPLES (00_scope R7). -/
abbrev groupSamples : Nat := 8

/-- ALIGN_BYTES (00_scope R7, 90_conflicts C4). -/
abbrev alignBytes : Nat := 16

/-- FREE VALUE (log entry 8): what `who` draws at counter `d` under NAN_POLICY = draw, `draw({-128, ..., 127})` as an s8
byte (40_reference_kernel R119). Nothing says that two drawers, or one drawer twice, draw alike. -/
opaque nanDraw (who : Drawer) (d : Nat) : Byte

/-- FREE VALUE (log entry 9): whether byte `k` of the 16-byte store that was answered with an error at draw `d` was
written all the same (20_memory R71, 60_exceptions R217). -/
opaque storeLanded (d k : Nat) : Bool

/-- FREE VALUE (log entry 10): whether output scalar `k` of the command that a reset at draw `d` abandoned holds its
converted value (70_reset_and_hazards R242). -/
opaque resetLanded (d k : Nat) : Bool

/-- FREE VALUE (log entry 12): which of the values a racing byte may have the read of address `a` by `who` at draw `d`
returns (20_memory R80, 93_implementation_defined U6). -/
opaque racePick (who : Reader) (d a : Nat) : Nat

/-- FREE VALUE (log entry 12): whether, of two writes of address `a` that nothing orders, the one made at draw `d` is the
one that does not last (20_memory R80, 93_implementation_defined U6). -/
opaque raceLost (d a : Nat) : Bool

/-- FREE VALUE (log entry 12): the byte which an engine that is itself in a race is about to store at address `a`, as
`who` finds it at draw `d` (20_memory R80, 93_implementation_defined U6). -/
opaque racedByte (who : Drawer) (d a : Nat) : Byte

end Config

end Sys2Proof
end

