-- ==== Sys2Proof/Machine/Port.lean ====
section
/-!
DEFINITION. What stands outside the engine and acts on it: the platform's answers to memory requests (20_memory R70,
R71) and the host's transactions (43_command_port R190, 30_encoding R99), as plain data.
-/

namespace Sys2Proof.Machine

/-- The platform's answer to a memory request (20_memory R70, R71), or that it never comes
(42_vector_commands R178, 93_implementation_defined U14). -/
inductive Answer where
  | done
  | error
  | silent
deriving DecidableEq, Repr

/-- A range of `size` addresses from `base` up and how the platform answers a request that touches it. Which addresses
answer with an error is the platform's business, and each engine has a memory port of its own (20_memory R70,
60_exceptions R232). -/
structure Window where
  /-- the number of the engine whose port the window is of, or every port -/
  engine  : Option Nat
  base    : Nat
  size    : Nat
  onRead  : Answer
  onWrite : Answer
deriving DecidableEq, Repr

/-- The window is one of the port of engine number `k`. -/
def Window.of (w : Window) (k : Nat) : Bool := decide (w.engine = none ∨ w.engine = some k)

/-- One thing the host, the platform or another agent does between two steps of an engine (43_command_port R190).
Register transactions, `tick`, `wait` and `reset` concern the selected engine. -/
inductive HostAction where
  /-- `rd`: read of register number `reg` (43_command_port R191) -/
  | read (reg : Nat)
  /-- `wr`: write of `val` to register number `reg` (43_command_port R192, R193) -/
  | write (reg val : Nat)
  /-- `wait`: STATUS is read until it returns DONE = 1 or ERR = 1 (30_encoding R99) -/
  | wait
  /-- `reset` (70_reset_and_hazards R240) -/
  | reset
  /-- no transaction: the selected engine takes its turn (42_vector_commands R170) -/
  | tick
  /-- the following transactions concern engine number `k` (60_exceptions R232) -/
  | select (k : Nat)
  /-- another agent reads the byte at an address (20_memory R78, R80) -/
  | load (addr : Nat)
  /-- a byte written by another agent becomes visible at an address (20_memory R78, R80) -/
  | store (addr : Nat) (b : Byte)
  /-- the platform answers by these windows from now on (20_memory R70) -/
  | remap (ws : List Window)
deriving DecidableEq, Repr

/-- What a read told the host. -/
inductive Seen where
  /-- register number `reg` held `val` -/
  | reg (reg val : Nat)
  /-- the byte at `addr` was `b` -/
  | byte (addr : Nat) (b : Byte)
deriving DecidableEq, Repr

end Sys2Proof.Machine
end

