-- ==== Sys2Proof/WellFormed.lean ====
section
/-!
DEFINITION. Which terms are well formed. A command has no operand fields (30_encoding R91), so every command is; the
checks are on the parameters (00_scope R7) and on the host's transactions, whose values have the register's width
(43_command_port R190) and whose addresses lie in the address space (10_state R33).
-/

namespace Sys2Proof

/-- Every command is well formed: the command word carries no operand (30_encoding R91). -/
def Instr.wellFormed : Instr → Bool
  | .convRef => true
  | .convVu => true
  | .convVa => true

/-- The parameter values the spec admits: `ADDR_BITS >= 4` (92_eei_decisions D6), at least one engine (D26). -/
def Params.wellFormed (p : Params) : Bool :=
  decide (4 ≤ p.addrBits) && decide (1 ≤ p.numEngines)

/-- The number of values a register can be given by a host write (30_encoding R94); 0 for a number that names no
register. -/
def Params.registerRange (p : Params) : Nat → Nat
  | 0 => 2 ^ 32
  | 1 => 2 ^ 32
  | 2 => p.space
  | 3 => p.space
  | 4 => p.countRange
  | 5 => 2 * p.countRange
  | _ => 0

/-- A host action names values of the register's width and addresses of the address space. -/
def Machine.HostAction.wellFormed (p : Params) : Machine.HostAction → Bool
  | .write reg val => decide (val < p.registerRange reg) || decide (5 < reg)
  | .load a => decide (a < p.space)
  | .store a _ => decide (a < p.space)
  | .select k => decide (k < p.numEngines)
  | .read _ => true
  | .wait => true
  | .reset => true
  | .tick => true
  | .remap _ => true

end Sys2Proof
end

