-- ==== Sys2Proof/Decode.lean ====
section
/-!
DEFINITION. The decoder and the encoder of the command word (30_encoding R90 to R97). The engine decodes a word only when
the host writes it to register CMD; nothing is fetched from memory (30_encoding R90).
-/

namespace Sys2Proof

/-- Field OP, bits 1:0 of the command word (30_encoding R91). -/
def opField (w : Word) : Nat := w.toNat % 4

/-- Field ZERO, bits 31:2 of the command word (30_encoding R91). -/
def zeroField (w : Word) : Nat := w.toNat / 4

/-- Why a word is no command (30_encoding R97). -/
inductive IllegalWord where
  /-- a bit of ZERO is set -/
  | zeroBitSet
  /-- `OP = 0b11` -/
  | reservedOp
deriving DecidableEq, Repr

/-- What a word decodes to: "one of CONV.REF, CONV.VU, CONV.VA or illegal" (30_encoding R97). -/
inductive Decoded where
  | command (i : Instr)
  | illegal (why : IllegalWord)
deriving DecidableEq, Repr

/-- The decoder, total on 32-bit words (30_encoding R92, R97). -/
def decode (w : Word) : Decoded :=
  if zeroField w = 0 then
    match opField w with
    | 0 => .command .convRef
    | 1 => .command .convVu
    | 2 => .command .convVa
    | _ => .illegal .reservedOp
  else .illegal .zeroBitSet

/-- The decoder on a word numbered as spec/opcode_table.json numbers it: a command word is one 32-bit word, and bits
above `nbits` are 0. -/
def decodeTableWord (nbits w : Nat) : Option Instr :=
  if w % 2 ^ nbits < 2 ^ 32 then
    match decode (BitVec.ofNat 32 (w % 2 ^ nbits)) with
    | .command i => some i
    | .illegal _ => none
  else none

/-- The command word of a command (30_encoding R92). -/
def encode : Instr → Word
  | .convRef => 0x00000000#32
  | .convVu => 0x00000001#32
  | .convVa => 0x00000002#32

/-- The column `match` of the opcode map (30_encoding R92). -/
def opcodeMatch : Instr → Word
  | .convRef => 0x00000000#32
  | .convVu => 0x00000001#32
  | .convVa => 0x00000002#32

/-- The column `mask` of the opcode map (30_encoding R92): all ones in every row. -/
def opcodeMask : Instr → Word
  | .convRef => 0xFFFFFFFF#32
  | .convVu => 0xFFFFFFFF#32
  | .convVa => 0xFFFFFFFF#32

end Sys2Proof
end

