-- ==== Sys2Proof/Machine/Numeric.lean ====
section
/-!
DEFINITION. The one numeric function of the block (40_reference_kernel R110 to R121). Every finite binary32 value is an
integer multiple of 2^(-149), so a real the block handles is held EXACTLY as that integer: `k : Int` stands for
`k * 2^(-149)` (log entry 19). Nothing is ever rounded but by `rnd`.
-/

namespace Sys2Proof.Machine

/-- The integer that stands for the real 1: `2^149`. -/
def unit : Int := 2 ^ 149

/-- The value a 32-bit word denotes (40_reference_kernel R110); `real k` is the real `k * 2^(-149)`. -/
inductive F32 where
  | nan
  | negInf
  | posInf
  | real (k : Int)
deriving DecidableEq, Repr

/-- The sign bit `w[31]` (40_reference_kernel R110). -/
def signBit (w : Word) : Bool := w.getLsbD 31

/-- The exponent field `w[30:23]` (40_reference_kernel R110). -/
def expField (w : Word) : Nat := w.toNat / 2 ^ 23 % 256

/-- The fraction field `w[22:0]` (40_reference_kernel R110). -/
def fracField (w : Word) : Nat := w.toNat % 2 ^ 23

/-- `(-1)^s * m`. -/
def signed (s : Bool) (m : Nat) : Int := if s then -(m : Int) else (m : Int)

/-- `f32(w)` (40_reference_kernel R110): a subnormal is `(-1)^s * f * 2^(-149)`, a normal value
`(-1)^s * (2^23 + f) * 2^(e - 150)`. -/
def f32 (w : Word) : F32 :=
  if expField w = 255 then
    if fracField w = 0 then (if signBit w then .negInf else .posInf) else .nan
  else if expField w = 0 then .real (signed (signBit w) (fracField w))
  else .real (signed (signBit w) ((2 ^ 23 + fracField w) * 2 ^ (expField w - 1)))

/-- The word is a NaN (40_reference_kernel R110). -/
def isNaN (w : Word) : Bool := decide (f32 w = .nan)

/-- CLIP of a real (40_reference_kernel R112). -/
def clipReal (k : Int) : Int :=
  if k > Config.clipMax * unit then Config.clipMax * unit
  else if k < Config.clipMin * unit then Config.clipMin * unit
  else k

/-- CLIP, the stage operation SCLIP (40_reference_kernel R112): a real in [-128, 127], or nothing for a NaN, which has
no clipped value. -/
def clip : F32 → Option Int
  | .nan => none
  | .posInf => some (Config.clipMax * unit)
  | .negInf => some (Config.clipMin * unit)
  | .real k => some (clipReal k)

/-- RND, the stage operations SRND and VCVT (40_reference_kernel R113): the nearest integer, ties to even. -/
def rnd (c : Int) : Int :=
  let n := c / unit
  let d := c % unit
  if 2 * d < unit then n
  else if 2 * d > unit then n + 1
  else if n % 2 = 0 then n else n + 1

/-- `byte(v) = v mod 256` (00_scope R8, 40_reference_kernel R114). -/
def byte (v : Int) : Byte := BitVec.ofNat 8 (v % 256).toNat

/-- `sat8(v)`, signed saturation to 8 bits (41_lane_processor R147). -/
def sat8 (v : Int) : Int := max (min v 127) (-128)

/-- `NaNResult()` (40_reference_kernel R119): an integer in [-128, 127], or nothing where the step raises
NaNInputFault. `who` draws, `d` numbers the draw (log entry 8). -/
def nanResult : NanPolicy → Drawer → Nat → Option Int
  | .draw, who, d => some (Config.nanDraw who d).toInt
  | .fixed v, _, _ => some v.toInt
  | .fault, _, _ => none

/-- `FP2I8(w)` (40_reference_kernel R115), with `nan` for `NaNResult()`: nothing where it raises NaNInputFault. -/
def fp2i8 (nan : Option Int) (w : Word) : Option Int :=
  match clip (f32 w) with
  | none => nan
  | some c => some (rnd c)

/-- Rounding to nearest even on a magnitude `m * 2^(-sh)` (40_reference_kernel R116). -/
def roundMagnitude (m sh : Nat) : Nat :=
  let q := m / 2 ^ sh
  let r := m % 2 ^ sh
  let half := 2 ^ (sh - 1)
  if r > half ∨ (r = half ∧ q % 2 = 1) then q + 1 else q

/-- The bit-level form of `FP2I8` for words that are not NaNs (40_reference_kernel R116); nothing for a NaN. -/
def fp2i8Bits (w : Word) : Option Int :=
  let s := signBit w
  let e := expField w
  let f := fracField w
  if e = 255 ∧ f ≠ 0 then none
  else if e ≥ 134 then some (if s then -128 else 127)
  else if e ≤ 125 then some 0
  else
    let q := roundMagnitude (2 ^ 23 + f) (150 - e)
    some (if s then -(q : Int) else if q > 127 then 127 else (q : Int))

end Sys2Proof.Machine
end

