-- ==== Sys2Proof/Machine/Memory.lean ====
section
/-!
DEFINITION. Memory: a flat array of bytes (20_memory R60), held as the list of its (address, byte) pairs in one canonical
form: addresses strictly rising, no entry equal to what an unlisted address reads as. Both buffers are ordinary memory
(20_memory R73): a read changes nothing, a write changes only the bytes written.
-/

namespace Sys2Proof.Machine

/-- The bytes of memory that differ from `Memory.unlisted`, by rising address. -/
abbrev Memory := List Host.Cell

/-- What an address that is not listed reads as. DESIGN CHOICE (log entry 3), unsafe: the spec gives no memory
contents at reset (10_state R35). -/
def Memory.unlisted : Byte := 0#8

/-- The canonical form. -/
abbrev Memory.wf (m : Memory) : Prop :=
  m.Pairwise (fun c d => c.1 < d.1) ∧ ∀ c ∈ m, c.2 ≠ Memory.unlisted

/-- All listed addresses lie below `n`. -/
abbrev Memory.below (m : Memory) (n : Nat) : Prop := ∀ c ∈ m, c.1 < n

/-- The byte at address `a`. -/
def Memory.read : Memory → Nat → Byte
  | [], _ => Memory.unlisted
  | (k, v) :: m, a => if k = a then v else Memory.read m a

/-- The memory after byte `b` was written at address `a`. -/
def Memory.write : Memory → Nat → Byte → Memory
  | [], a, b => if b = Memory.unlisted then [] else [(a, b)]
  | (k, v) :: m, a, b =>
    if a < k then (if b = Memory.unlisted then (k, v) :: m else (a, b) :: (k, v) :: m)
    else if a = k then (if b = Memory.unlisted then m else (a, b) :: m)
    else (k, v) :: Memory.write m a b

/-- The `n` bytes from address `a` up, lowest address first. -/
def Memory.readBytes (m : Memory) (a : Nat) : Nat → List Byte
  | 0 => []
  | n + 1 => m.read a :: Memory.readBytes m (a + 1) n

/-- The memory after the bytes of a list were written from address `a` up. -/
def Memory.writeBytes (m : Memory) (a : Nat) : List Byte → Memory
  | [] => m
  | b :: bs => Memory.writeBytes (m.write a b) (a + 1) bs

/-- The memory after those bytes of a list were written from address `a` up that `landed` picks (byte `k` of the
list is written when `landed k` holds and its address exists): a store answered with an error (20_memory R71). -/
def Memory.writeLanded (m : Memory) (space : Nat) (landed : Nat → Bool) (a k : Nat) : List Byte → Memory
  | [] => m
  | b :: bs =>
    Memory.writeLanded (if landed k && decide (a + k < space) then m.write (a + k) b else m)
      space landed a (k + 1) bs

end Sys2Proof.Machine
end

