-- ==== Sys2Proof/Machine/State.lean ====
section
/-!
DEFINITION. The state of the machine: the engines with their six registers (10_state R20), the memory they share
(10_state R33), the platform behind the memory port (20_memory R70), and the host's pending and past transactions
(43_command_port R190). Plain data. INVENTORY.md lists every field with its rule and its reset value.
-/

namespace Sys2Proof.Machine

/-- One engine: the six command-port registers (10_state R20) and three fields of the model's own. The working registers
VIN, VCL, VW, VB and SX hold no value between steps and are not state (10_state R31, R32, log entry 20). -/
structure Engine where
  /-- MODEL's own: the engine has been reset since power-up (70_reset_and_hazards R243, log entry 15). -/
  live   : Bool
  /-- CMD, register 0 (10_state R21). -/
  cmd    : Word
  /-- STATUS, register 1 (10_state R22, R23). -/
  status : Word
  /-- DST, register 2, below `2^ADDR_BITS` (10_state R24). -/
  dst    : Nat
  /-- SRC, register 3, below `2^ADDR_BITS` (10_state R25). -/
  src    : Nat
  /-- COUNT, register 4, below `2^COUNT_BITS` (10_state R26). -/
  count  : Nat
  /-- IDX, register 5, below `2^(COUNT_BITS + 1)` (10_state R27). -/
  idx    : Nat
  /-- MODEL's own: memory when the running command was accepted, which 70_reset_and_hazards R242 speaks of; nothing
  while no command runs (log entry 10). -/
  launch : Memory
  /-- MODEL's own: another agent may write the input or touch the output of the running command, against 20_memory R80 or
  R83; false while no command runs (log entries 12, 13). -/
  raced  : Bool
deriving DecidableEq, Repr

/-- The machine. `before`, `eng`, `after` are the NUM_ENGINES engines in the order of their numbers (60_exceptions
R232); `eng` is the one the next transaction or step concerns. -/
structure State where
  /-- the parameters of the implementation (00_scope R7, log entry 1); no step writes them -/
  params   : Params
  /-- the engines numbered below the selected one (60_exceptions R232) -/
  before   : List Engine
  /-- the selected engine (60_exceptions R232, log entry 14) -/
  eng      : Engine
  /-- the engines numbered above the selected one (60_exceptions R232) -/
  after    : List Engine
  /-- memory (10_state R33) -/
  mem      : Memory
  /-- MODEL's own: addresses in a race and values they have held in it, which a read may still return (20_memory R80,
  93_implementation_defined U6, log entry 12) -/
  contested : List (Nat × Byte)
  /-- how the platform answers memory requests (20_memory R70, log entry 6) -/
  platform : List Window
  /-- what the host does next, first action first (43_command_port R190, log entry 4) -/
  inputs   : List HostAction
  /-- what the host's reads have returned, first read first (43_command_port R191, log entry 18) -/
  answers  : List Seen
  /-- MODEL's own: the counter the free values are applied to (log entry 8) -/
  draws    : Nat
deriving DecidableEq, Repr

/-- The ways the model stops with a fault. None of them is a fault of the engine: the engine's six faults
(60_exceptions R211) are next states, with STATUS as fault entry leaves it. -/
inductive Fault where
  /-- Raised by an agent's memory access to an address that is not below `2^ADDR_BITS`: there is no such address
  (10_state R33, log entry 16). Safe. -/
  | addressOutsideSpace
  /-- Raised by an engine in RUN whose CMD holds no command word. Never reached: only a command word is ever latched
  (10_state R21, log entry 23). Safe. -/
  | latchedWordIllegal
deriving DecidableEq, Repr

/-- The ways the model gives something no meaning. -/
inductive Refusal where
  /-- Raised by an arm of `exec` that has no meaning yet. Safe. No arm raises it. -/
  | notModelled (mnemonic : String)
  /-- Raised by the acceptance of a command whose input and output ranges overlap: "the model refuses it"
  (20_memory R79, 93_implementation_defined U5, log entry 11). Safe. -/
  | overlappingBuffers
  /-- Raised by a transaction with, or a step of, an engine that has never been reset: "no rule holds before the first
  reset" (70_reset_and_hazards R243, 93_implementation_defined U12, log entry 15). Safe. -/
  | beforeFirstReset
deriving DecidableEq, Repr

/-- An engine after reset: every register 0, engine state IDLE (10_state R35). -/
def Engine.reset : Engine :=
  { live := true, cmd := 0#32, status := 0#32, dst := 0, src := 0, count := 0, idx := 0, launch := [], raced := false }

/-- A machine of `p.numEngines` engines right after the reset of each, engine 0 selected, before the host and the
platform have done anything. -/
def State.resetWith (p : Params) : State :=
  { params := p, before := [], eng := Engine.reset, after := List.replicate (p.numEngines - 1) Engine.reset,
    mem := [], contested := [], platform := [], inputs := [], answers := [], draws := 0 }

/-- The machine right after reset (10_state R35, 70_reset_and_hazards R240) with the parameters at their defaults
(00_scope R7). -/
def State.reset : State := State.resetWith Params.default

/-- All engines in the order of their numbers. -/
def State.engines (s : State) : List Engine := s.before ++ s.eng :: s.after

/-- All engines but the selected one. -/
def State.others (s : State) : List Engine := s.before ++ s.after

/-- The windows of the selected engine's memory port (60_exceptions R232). -/
def State.windows (s : State) : List Window := s.platform.filter fun w => w.of s.before.length

/-- The state with another selected engine. -/
def State.withEng (s : State) (e : Engine) : State := { s with eng := e }

/-- The state with other memory contents. -/
def State.withMem (s : State) (m : Memory) : State := { s with mem := m }

/-- The state with another list of pending host actions. -/
def State.withInputs (s : State) (l : List HostAction) : State := { s with inputs := l }

/-- The state in which the host has been told one thing more. -/
def State.told (s : State) (x : Seen) : State := { s with answers := s.answers ++ [x] }

/-- The state after `n` draws of free values. -/
def State.drawn (s : State) (n : Nat) : State := { s with draws := s.draws + n }

/-- The state in which memory, the values of racing bytes and the draws are others. -/
def State.withStore (s : State) (m : Memory) (c : List (Nat × Byte)) (d : Nat) : State :=
  { s with mem := m, contested := c, draws := d }

/-- The state with other values of racing bytes. -/
def State.withContested (s : State) (c : List (Nat × Byte)) : State := { s with contested := c }

/-- The state with other platform answers. -/
def State.withPlatform (s : State) (ws : List Window) : State := { s with platform := ws }

end Sys2Proof.Machine
end

