-- ==== Sys2Proof/Machine/Flags.lean ====
section
/-!
DEFINITION. The fields of STATUS (10_state R23), the engine states read off it (10_state R28) and the cause codes
(60_exceptions R211). FP2I8 has no arithmetic condition codes and no floating-point exception flags (10_state R30): BUSY,
DONE and ERR are the only flags.
-/

namespace Sys2Proof.Machine

/-- BUSY, bit 0 of STATUS (10_state R23). -/
def statusBusy (w : Word) : Bool := w.getLsbD 0

/-- DONE, bit 1 of STATUS (10_state R23); also a level signal (43_command_port R198). -/
def statusDone (w : Word) : Bool := w.getLsbD 1

/-- ERR, bit 2 of STATUS (10_state R23); also a level signal (43_command_port R198). -/
def statusErr (w : Word) : Bool := w.getLsbD 2

/-- CAUSE, bits 7:4 of STATUS (10_state R23). -/
def statusCause (w : Word) : Nat := w.toNat / 16 % 16

/-- Bit `i` of a word set to `b`, the other bits kept. -/
def setBit (w : Word) (i : Nat) (b : Bool) : Word :=
  if b then w ||| (1#32 <<< i) else w &&& ~~~(1#32 <<< i)

/-- `STATUS.BUSY <- b`. -/
def setBusy (w : Word) (b : Bool) : Word := setBit w 0 b

/-- `STATUS.DONE <- b`. -/
def setDone (w : Word) (b : Bool) : Word := setBit w 1 b

/-- `STATUS.ERR <- b`. -/
def setErr (w : Word) (b : Bool) : Word := setBit w 2 b

/-- `STATUS.CAUSE <- c`. -/
def setCause (w : Word) (c : Nat) : Word :=
  (w &&& ~~~(0xF0#32)) ||| BitVec.ofNat 32 (c % 16 * 16)

/-- The state an engine is in (10_state R28). -/
inductive Phase where
  | idle
  | run
  | halt
deriving DecidableEq, Repr

/-- The engine state STATUS shows (10_state R28): HALT when ERR, RUN when BUSY, else IDLE. BUSY and ERR are never both
set (10_state R23). -/
def phaseOf (w : Word) : Phase :=
  if statusErr w then .halt else if statusBusy w then .run else .idle

/-- The state an engine is in. -/
def Engine.phase (e : Engine) : Phase := phaseOf e.status

/-- The engine runs a command: other agents must keep out of its buffers (20_memory R80). -/
def Engine.running (e : Engine) : Bool := e.live && decide (e.phase = .run)

/-- The six faults (60_exceptions R211). -/
inductive Cause where
  | illegalCommand
  | addressRange
  | misaligned
  | loadAccess
  | storeAccess
  | nanInput
deriving DecidableEq, Repr

/-- The cause code (60_exceptions R211). -/
def Cause.code : Cause → Nat
  | .illegalCommand => 1
  | .addressRange => 2
  | .misaligned => 3
  | .loadAccess => 4
  | .storeAccess => 5
  | .nanInput => 6

/-- Raised at a write to CMD (codes 1, 2, 3), not inside a step (60_exceptions R214). -/
def Cause.atCommand : Cause → Bool
  | .illegalCommand => true
  | .addressRange => true
  | .misaligned => true
  | .loadAccess => false
  | .storeAccess => false
  | .nanInput => false

/-- STATUS after fault entry: `ERR <- 1 ; CAUSE <- c ; BUSY <- 0 ; DONE <- 0` (60_exceptions R214). -/
def statusFault (w : Word) (c : Cause) : Word :=
  setDone (setBusy (setCause (setErr w true) c.code) false) false

/-- STATUS after acceptance: `DONE <- 0 ; BUSY <- 1` (43_command_port R193). -/
def statusAccept (w : Word) : Word := setBusy (setDone w false) true

/-- STATUS after the completion step: `BUSY <- 0 ; DONE <- 1` (42_vector_commands R174). -/
def statusComplete (w : Word) : Word := setDone (setBusy w false) true

/-- The values STATUS ever holds (10_state R23). -/
def statusLegal (w : Word) : Bool :=
  w = 0x0#32 || w = 0x1#32 || w = 0x2#32 || w = 0x14#32 || w = 0x24#32 || w = 0x34#32 || w = 0x44#32 ||
    w = 0x54#32 || w = 0x64#32

end Sys2Proof.Machine
end

