-- ==== Sys2Proof/Machine/Operands.lean ====
section
/-!
DEFINITION. The operands of a command and what is formed from them: the scalar count, the addresses of the two buffers
(20_memory R62, R64, R75), the byte order of a scalar (20_memory R63), the checks of acceptance (43_command_port R193)
and the ranges that must be disjoint (20_memory R79, R83). All addresses are unbounded integers (20_memory R75).
-/

namespace Sys2Proof.Machine

/-- `T = 2 * COUNT`, the number of scalars (00_scope R10, 30_encoding R93). -/
def Engine.scalars (e : Engine) : Nat := 2 * e.count

/-- The address of input scalar `k` (20_memory R62). -/
def Engine.inAddr (e : Engine) (k : Nat) : Nat := e.src + Config.inScalarBytes * k

/-- The address of output scalar `k` (20_memory R64). -/
def Engine.outAddr (e : Engine) (k : Nat) : Nat := e.dst + Config.outScalarBytes * k

/-- The first address behind the input buffer, `SRC + 8 * COUNT` (20_memory R62). -/
def Engine.inEnd (e : Engine) : Nat := e.src + 8 * e.count

/-- The first address behind the output buffer, `DST + 2 * COUNT` (20_memory R64). -/
def Engine.outEnd (e : Engine) : Nat := e.dst + 2 * e.count

/-- Address `a` belongs to the input buffer. -/
def Engine.inInput (e : Engine) (a : Nat) : Bool := decide (e.src ≤ a ∧ a < e.inEnd)

/-- Address `a` belongs to the output buffer. -/
def Engine.inOutput (e : Engine) (a : Nat) : Bool := decide (e.dst ≤ a ∧ a < e.outEnd)

/-- Address `a` belongs to one of the two buffers. -/
def Engine.holds (e : Engine) (a : Nat) : Bool := e.inInput a || e.inOutput a

/-- Check 2 of acceptance: no buffer passes the top of the address space (43_command_port R193, 20_memory R75). -/
def Engine.rangesFit (p : Params) (e : Engine) : Bool :=
  decide (e.inEnd ≤ p.space) && decide (e.outEnd ≤ p.space)

/-- Check 3 of acceptance: both start addresses are multiples of ALIGN_BYTES (43_command_port R193, 20_memory R66). -/
def Engine.aligned (e : Engine) : Bool :=
  decide (e.src % Config.alignBytes = 0) && decide (e.dst % Config.alignBytes = 0)

/-- The ranges `lo .. hi - 1` and `lo' .. hi' - 1` have no address in common. -/
def rangesDisjoint (lo hi lo' hi' : Nat) : Bool :=
  decide (hi ≤ lo') || decide (hi' ≤ lo) || decide (hi ≤ lo) || decide (hi' ≤ lo')

/-- The input and the output buffer are disjoint (20_memory R79). -/
def Engine.buffersDisjoint (e : Engine) : Bool := rangesDisjoint e.src e.inEnd e.dst e.outEnd

/-- Two engines may run at once: the output buffer of each is disjoint from both buffers of the other
(20_memory R83). -/
def Engine.compatible (e f : Engine) : Bool :=
  rangesDisjoint e.dst e.outEnd f.src f.inEnd && rangesDisjoint e.dst e.outEnd f.dst f.outEnd &&
    rangesDisjoint f.dst f.outEnd e.src e.inEnd

/-- The 32-bit word of four bytes, lowest address first (20_memory R63). -/
def word32 (en : Endian) (m0 m1 m2 m3 : Byte) : Word :=
  match en with
  | .little => BitVec.ofNat 32 (m0.toNat + 256 * m1.toNat + 65536 * m2.toNat + 16777216 * m3.toNat)
  | .big => BitVec.ofNat 32 (16777216 * m0.toNat + 65536 * m1.toNat + 256 * m2.toNat + m3.toNat)

/-- The words of consecutive groups of four bytes (20_memory R63): lane `l` of a 16-byte vector from bytes
`4l .. 4l + 3`. -/
def wordsOf (en : Endian) : List Byte → List Word
  | m0 :: m1 :: m2 :: m3 :: bs => word32 en m0 m1 m2 m3 :: wordsOf en bs
  | _ => []

/-- The scalar that stands at address `a` (20_memory R63). -/
def scalarAt (en : Endian) (m : Memory) (a : Nat) : Word :=
  word32 en (m.read a) (m.read (a + 1)) (m.read (a + 2)) (m.read (a + 3))

end Sys2Proof.Machine
end

