-- ==== Sys2Proof/Machine/Race.lean ====
section
/-!
DEFINITION. Races (20_memory R80, R83, 93_implementation_defined U6): while an engine is BUSY and another agent writes its
input or touches its output, "each byte read by either side is any value among old and new". The other agent is the host
or another engine. `State.contested` holds the values an address in a race has had; which of them a read returns, and
which of two unordered writes lasts, are free values (log entry 12).
-/

namespace Sys2Proof.Machine

/-- The engine has already stored the output scalar at address `a` (10_state R27). -/
def Engine.wrote (e : Engine) (a : Nat) : Bool := e.inOutput a && decide (a < e.outAddr e.idx)

/-- Address `a` is in a race. -/
def State.contestedAt (s : State) (a : Nat) : Bool := s.contested.any fun c => decide (c.1 = a)

/-- The values the race at address `a` has left behind. -/
def State.contestedValues (s : State) (a : Nat) : List Byte :=
  (s.contested.filter fun c => decide (c.1 = a)).map (·.2)

/-- Output scalar `k` of engine `e` with its converted value: the value already stored, or the one a step would store;
nothing for a NaN that a step would refuse. What an engine in a race is about to store is a free value, since its input is
one (log entry 12). -/
def State.convertedByte (s : State) (who : Drawer) (e : Engine) (k : Nat) : Option Byte :=
  if k < e.idx then some (s.mem.read (e.outAddr k))
  else if e.raced then some (Config.racedByte who s.draws (e.outAddr k))
  else (fp2i8 (nanResult s.params.nanPolicy who s.draws) (scalarAt s.params.endian s.mem (e.inAddr k))).map byte

/-- What a read of address `a` by `who` may find there because engine `e` is BUSY and `a` is in its output: the value from before
its command and the value its command gives it (20_memory R80). -/
def State.oldAndNew (s : State) (who : Reader) (a : Nat) (e : Engine) : List Byte :=
  if e.running && e.inOutput a then
    e.launch.read a :: (s.convertedByte (.observer who (a - e.dst)) e (a - e.dst)).toList
  else []

/-- All that a read of address `a` by `who` may return, `es` being the engines that race with the reader: what memory holds, what
the race has left behind, and the old and the new value of every output of `es`. -/
def State.candidates (s : State) (who : Reader) (es : List Engine) (a : Nat) : List Byte :=
  s.mem.read a :: (s.contestedValues a ++ es.flatMap (s.oldAndNew who a))

/-- One of the values of a list, the only one if there is one, else the one that number `n` picks. -/
def pick (n : Nat) : List Byte → Byte
  | [] => Memory.unlisted
  | [b] => b
  | b :: c :: l => (b :: c :: l).getD (n % (l.length + 2)) b

/-- A read of address `a` by `who`, which races with the engines `es` (93_implementation_defined U6). Every operation after which
the host can tell what was read counts the draws on, so that the next such read is free again (log entry 12). -/
def State.raceRead (s : State) (who : Reader) (es : List Engine) (a : Nat) : Byte :=
  pick (Config.racePick who s.draws a) (s.candidates who es a)

/-- The selected engine as a reader, by its number (60_exceptions R232). -/
def State.reader (s : State) : Reader := .engine s.before.length

/-- The byte the selected engine reads at address `a`: what memory holds, unless its command is in a race. -/
def State.seen (s : State) (a : Nat) : Byte :=
  if s.eng.raced then s.raceRead s.reader s.others a else s.mem.read a

/-- The `n` bytes the selected engine reads from address `a` up, lowest address first. -/
def State.seenBytes (s : State) (a : Nat) : Nat → List Byte
  | 0 => []
  | n + 1 => s.seen a :: s.seenBytes (a + 1) n

/-- The word of input scalar `k` as the selected engine reads it (20_memory R62, R63). -/
def State.inputWord (s : State) (k : Nat) : Word :=
  word32 s.params.endian (s.seen (s.eng.inAddr k)) (s.seen (s.eng.inAddr k + 1)) (s.seen (s.eng.inAddr k + 2))
    (s.seen (s.eng.inAddr k + 3))

/-- A write of byte `b` at address `a` in a race. Memory then holds `b`, or, where an unordered write has been made there,
one of the two; the old value and `b` may be read from then on (93_implementation_defined U6). -/
def State.raceWrite (s : State) (unordered : Bool) (a : Nat) (b : Byte) : State :=
  s.withStore (if unordered && Config.raceLost s.draws a then s.mem else s.mem.write a b)
    ((a, s.mem.read a) :: (a, b) :: s.contested) (s.draws + 1)

/-- A byte written by the selected engine whose command is in a race: the race is at this address when another running
engine has it in a buffer or a race is on there already. -/
def State.racedStore (s : State) (a : Nat) (b : Byte) : State :=
  if s.contestedAt a || s.others.any (fun e => e.running && e.holds a) then
    s.raceWrite (s.contestedAt a || s.others.any fun e => e.running && e.wrote a) a b
  else s.withMem (s.mem.write a b)

/-- Those bytes of a list written from address `a` up by an engine in a race that `landed` picks (byte `k` of the list is
written when `landed k` holds and its address exists). -/
def State.racedStores (s : State) (landed : Nat → Bool) (a k : Nat) : List Byte → State
  | [] => s
  | b :: bs =>
    State.racedStores (if landed k && decide (a + k < s.params.space) then s.racedStore (a + k) b else s)
      landed a (k + 1) bs

/-- The selected engine has written the bytes of a list from address `a` up. -/
def State.store (s : State) (a : Nat) (bs : List Byte) : State :=
  if s.eng.raced then s.racedStores (fun _ => true) a 0 bs else s.withMem (s.mem.writeBytes a bs)

/-- Of a store of the selected engine that was answered with an error those bytes have been written that `landed` picks
(20_memory R71). -/
def State.storePartly (s : State) (landed : Nat → Bool) (a : Nat) (bs : List Byte) : State :=
  if s.eng.raced then s.racedStores landed a 0 bs
  else s.withMem (s.mem.writeLanded s.params.space landed a 0 bs)

/-- A race ends with the commands that are in it: what it has left behind at an address is forgotten once no running
engine has that address in a buffer (20_memory R78, R80). -/
def State.settled (s : State) : State :=
  s.withContested (s.contested.filter fun c => s.engines.any fun e => e.running && e.holds c.1)

/-- The engine with its command marked as being in a race, if it runs one and `p` picks it. -/
def Engine.markIf (p : Engine → Bool) (e : Engine) : Engine :=
  if e.running && p e then { e with raced := true } else e

/-- The state with the commands of those running engines marked as being in a race that `p` picks. -/
def State.mark (s : State) (p : Engine → Bool) : State :=
  { s with before := s.before.map (Engine.markIf p), eng := s.eng.markIf p, after := s.after.map (Engine.markIf p) }

end Sys2Proof.Machine
end

