-- ==== Sys2Proof/Machine/Ops.lean ====
section
/-!
DEFINITION. The shared operations of a step: the two memory requests with the platform's answer (20_memory R70, R71), fault
entry (60_exceptions R214), the completion of a command (42_vector_commands R174) and reset, the only way out of a fault
(60_exceptions R221, 70_reset_and_hazards R240 to R242).
-/

namespace Sys2Proof.Machine

/-- Of two answers the one that prevails when a request touches both: never answered, then error, then done
(log entry 6). -/
def Answer.worse : Answer → Answer → Answer
  | .silent, _ => .silent
  | _, .silent => .silent
  | .error, _ => .error
  | _, .error => .error
  | .done, .done => .done

/-- How the platform answers a read that touches address `a`: by the first window that holds it (20_memory R70). There
is no address from `space` up (10_state R33): a request for one is answered with an error (log entry 6). -/
def readAnswerAt (space : Nat) (ws : List Window) (a : Nat) : Answer :=
  if a < space then
    match ws.find? (fun w => decide (w.base ≤ a ∧ a < w.base + w.size)) with
    | some w => w.onRead
    | none => .done
  else .error

/-- How the platform answers a write that touches address `a` (20_memory R71). -/
def writeAnswerAt (space : Nat) (ws : List Window) (a : Nat) : Answer :=
  if a < space then
    match ws.find? (fun w => decide (w.base ≤ a ∧ a < w.base + w.size)) with
    | some w => w.onWrite
    | none => .done
  else .error

/-- The answer to a request of `n` bytes from address `a` up, from the answers at its addresses. -/
def requestAnswer (at_ : Nat → Answer) (a : Nat) : Nat → Answer
  | 0 => .done
  | n + 1 => (at_ a).worse (requestAnswer at_ (a + 1) n)

/-- The platform's answer to a read of `n` bytes at `a` (20_memory R70). -/
def State.readAnswer (s : State) (a n : Nat) : Answer :=
  requestAnswer (readAnswerAt s.params.space s.windows) a n

/-- The platform's answer to a write of `n` bytes at `a` (20_memory R71). -/
def State.writeAnswer (s : State) (a n : Nat) : Answer :=
  requestAnswer (writeAnswerAt s.params.space s.windows) a n

/-- What a read request brings: the bytes, an error answer, or nothing yet. -/
inductive Access (α : Type) where
  | got (v : α)
  | error
  | silent
deriving DecidableEq, Repr

/-- `MemRead(addr, n)` (00_scope R9, 20_memory R70). The bytes an error answer might carry are discarded
(60_exceptions R216). -/
def memRead (s : State) (a n : Nat) : Access (List Byte) :=
  match s.readAnswer a n with
  | .done => .got (s.seenBytes a n)
  | .error => .error
  | .silent => .silent

/-- How an engine step ends: without fault, with a fault raised, or not at all because the platform does not answer
(42_vector_commands R178). -/
inductive StepEnd where
  | ok (s : State)
  | raised (c : Cause) (s : State)
  | unanswered
deriving DecidableEq, Repr

/-- `MemWrite(addr, 16, v)` at a store of a whole vector register (20_memory R71): after an error answer each byte may
or may not have been written, which the free value `Config.storeLanded` says (60_exceptions R217, log entry 9). -/
def memWriteVector (s : State) (a : Nat) (bs : List Byte) : StepEnd :=
  match s.writeAnswer a bs.length with
  | .done => .ok (s.store a bs)
  | .error =>
    .raised .storeAccess (s.storePartly (Config.storeLanded s.draws) a bs)
  | .silent => .unanswered

/-- `MemWrite(addr, 1, v)` (20_memory R71): "a 1-byte write answered with an error has not written". -/
def memWriteByte (s : State) (a : Nat) (b : Byte) : StepEnd :=
  match s.writeAnswer a 1 with
  | .done => .ok (s.store a [b])
  | .error => .raised .storeAccess s
  | .silent => .unanswered

/-- FAULT ENTRY, `raise F` (60_exceptions R214): ERR and CAUSE set, BUSY and DONE cleared, IDX cleared for a fault at a
write to CMD and unchanged for one inside a step, everything else unchanged. Nothing is saved anywhere else and control
goes nowhere: the engine is in HALT, and a race its command was in is over (log entry 12). -/
def takeFault (c : Cause) (s : State) : State :=
  (s.withEng { s.eng with
    status := statusFault s.eng.status c
    idx := if c.atCommand then 0 else s.eng.idx
    launch := []
    raced := false }).settled

/-- The completion step (42_vector_commands R174): BUSY cleared, DONE set, nothing else. A race the command was in
is over (log entry 12). -/
def complete (s : State) : State :=
  (s.withEng { s.eng with status := statusComplete s.eng.status, launch := [], raced := false }).settled

/-- IDX as a step without fault leaves it (42_vector_commands R171, R172). -/
def State.withIdx (s : State) (i : Nat) : State := s.withEng { s.eng with idx := i }

/-- Output scalar `k` after a reset in RUN: its value from before the command or its converted value, which of the two
is the free value `Config.resetLanded` (70_reset_and_hazards R242, log entry 10). -/
def State.abandonedByte (s : State) (k : Nat) : Byte :=
  if Config.resetLanded s.draws k then
    (s.convertedByte (.reset k) s.eng k).getD (s.eng.launch.read (s.eng.outAddr k))
  else s.eng.launch.read (s.eng.outAddr k)

/-- Memory after a reset in RUN, output scalars `0 .. n-1` treated (70_reset_and_hazards R242). -/
def State.abandonOutput (s : State) : Nat → Memory
  | 0 => s.mem
  | n + 1 => (s.abandonOutput n).write (s.eng.outAddr n) (s.abandonedByte n)

/-- The output of an engine in a race after a reset in RUN, output scalars `0 .. n-1` treated: each holds one of the
values a racing read may find there (70_reset_and_hazards R242, log entry 12). -/
def State.abandonRaced (s : State) : Nat → State
  | 0 => s
  | n + 1 => (s.abandonRaced n).racedStore (s.eng.outAddr n) (s.raceRead s.reader s.engines (s.eng.outAddr n))

/-- The state in which a reset in RUN has given up the command, its registers still as they were (70_reset_and_hazards
R242). -/
def State.abandoned (s : State) : State :=
  if s.eng.raced then s.abandonRaced s.eng.scalars else s.withMem (s.abandonOutput s.eng.scalars)

/-- RESET of the selected engine (70_reset_and_hazards R240): every register takes its reset value. In IDLE, in HALT and
before the first reset memory does not change (R241); in RUN the command is abandoned (R242). -/
def applyReset (s : State) : State :=
  if s.eng.running then ((s.abandoned.withEng Engine.reset).drawn 1).settled
  else s.withEng Engine.reset

end Sys2Proof.Machine
end

