-- ==== Sys2Proof/Machine/LaneProcessor.lean ====
section
/-!
DEFINITION. The lane processor LP (simd_fp_to_int8_lane_processor, 41_lane_processor): the stage operations LDG.U, LDG.A,
VMIN, VMAX, VCVT, VNARROW, STG.U, STG.A and the group step they make. The working registers VIN, VCL, VW and VB
(10_state R31) are the lists of 16 lanes that pass from stage to stage, written flat: lane `k` belongs to scalar `i + k`
(41_lane_processor R151).
-/

namespace Sys2Proof.Machine

/-- `a` of GSTEP(i, a): which load and store a group step uses (41_lane_processor R140). -/
inductive Group where
  | unaligned
  | aligned
deriving DecidableEq, Repr

/-- `n` vector loads of VLEN_BYTES from address `a` up, in rising order; the first that fails ends the load
(41_lane_processor R141). -/
def loadVectors (s : State) (a : Nat) : Nat → Access (List Word)
  | 0 => .got []
  | n + 1 =>
    match memRead s a Config.vlenBytes with
    | .error => .error
    | .silent => .silent
    | .got bs =>
      match loadVectors s (a + Config.vlenBytes) n with
      | .error => .error
      | .silent => .silent
      | .got ws => .got (wordsOf s.params.endian bs ++ ws)

/-- LDG.U(i), group load, unaligned (41_lane_processor R141): `vin[0..15]`. -/
def ldgU (s : State) (i : Nat) : Access (List Word) :=
  loadVectors s (s.eng.inAddr i) Config.loadsPerGroup

/-- LDG.A(i), group load, aligned: identical to LDG.U(i) (41_lane_processor R142). -/
def ldgA (s : State) (i : Nat) : Access (List Word) :=
  loadVectors s (s.eng.inAddr i) Config.loadsPerGroup

/-- A lane between VMIN and VMAX: a NaN, minus infinity, or a real not above 127 (41_lane_processor R143). -/
inductive Capped where
  | nan
  | negInf
  | real (k : Int)
deriving DecidableEq, Repr

/-- VMIN in one lane, against the upper bound (41_lane_processor R143). -/
def vminLane : F32 → Capped
  | .nan => .nan
  | .posInf => .real (Config.clipMax * unit)
  | .negInf => .negInf
  | .real k => .real (if k > Config.clipMax * unit then Config.clipMax * unit else k)

/-- VMAX in one lane, against the lower bound (41_lane_processor R144); nothing marks a NaN. -/
def vmaxLane : Capped → Option Int
  | .nan => none
  | .negInf => some (Config.clipMin * unit)
  | .real k => some (if k < Config.clipMin * unit then Config.clipMin * unit else k)

/-- VMIN (41_lane_processor R143). -/
def vmin (vin : List Word) : List Capped := vin.map (fun w => vminLane (f32 w))

/-- VMAX (41_lane_processor R144): `vcl[0..15]`. -/
def vmax (t : List Capped) : List (Option Int) := t.map vmaxLane

/-- VCVT (41_lane_processor R145): `vw[0..15]`, or nothing where NaNInputFault is raised. Each NaN lane draws
separately; `who` draws, `d` numbers the draw of the first lane. -/
def vcvt (pol : NanPolicy) (who : Drawer) (d : Nat) : List (Option Int) → Option (List Int)
  | [] => some []
  | x :: xs =>
    match (match x with | none => nanResult pol who d | some c => some (rnd c)), vcvt pol who (d + 1) xs with
    | some v, some vs => some (v :: vs)
    | _, _ => none

/-- VNARROW (41_lane_processor R146): `vb[0..15]`. -/
def vnarrow (vw : List Int) : List Int := vw.map sat8

/-- STG.U(i), group store, unaligned (41_lane_processor R148). -/
def stgU (s : State) (i : Nat) (vb : List Int) : StepEnd :=
  memWriteVector s (s.eng.outAddr i) (vb.map byte)

/-- STG.A(i), group store, aligned: identical to STG.U(i) (41_lane_processor R149). -/
def stgA (s : State) (i : Nat) (vb : List Int) : StepEnd :=
  memWriteVector s (s.eng.outAddr i) (vb.map byte)

/-- LDG.a (41_lane_processor R140). -/
def ldg : Group → State → Nat → Access (List Word)
  | .unaligned => ldgU
  | .aligned => ldgA

/-- STG.a (41_lane_processor R140). -/
def stg : Group → State → Nat → List Int → StepEnd
  | .unaligned => stgU
  | .aligned => stgA

/-- The lane processor without its load and store (41_lane_processor R153): the 16 integers of `vb`, or nothing where
NaNInputFault is raised. -/
def laneProcessor (pol : NanPolicy) (who : Drawer) (d : Nat) (vin : List Word) : Option (List Int) :=
  (vcvt pol who d (vmax (vmin vin))).map vnarrow

/-- GSTEP(i, a), the group step (41_lane_processor R140) of a command with word `w`: LoadAccessFault, then NaNInputFault,
then StoreAccessFault. The draws count on whenever the lanes have been used, a refused NaN included (log entries 8, 12). -/
def gstep (w : Word) (g : Group) (s : State) (i : Nat) : StepEnd :=
  match ldg g s i with
  | .error => .raised .loadAccess s
  | .silent => .unanswered
  | .got vin =>
    match laneProcessor s.params.nanPolicy (.laneProcessor w) s.draws vin with
    | none => .raised .nanInput (s.drawn Config.groupScalars)
    | some vb => stg g (s.drawn Config.groupScalars) i vb

end Sys2Proof.Machine
end

