-- ==== Sys2Proof/Machine/Scalar.lean ====
section
/-!
DEFINITION. The scalar path SP (40_reference_kernel R118): the stage operations SLD, SCLIP, SRND and SST, and the scalar
step they make. SX, the working register, is the word that passes from SLD to SCLIP (10_state R32).
-/

namespace Sys2Proof.Machine

/-- SLD: `SX <- word32(MemRead(SRC + 4*i, 4))` (40_reference_kernel R118). -/
def sld (s : State) (i : Nat) : Access Word :=
  match memRead s (s.eng.inAddr i) Config.inScalarBytes with
  | .got bs =>
    match wordsOf s.params.endian bs with
    | w :: _ => .got w
    | [] => .error
  | .error => .error
  | .silent => .silent

/-- SCLIP (40_reference_kernel R112). -/
def sclip (sx : Word) : Option Int := clip (f32 sx)

/-- SRND (40_reference_kernel R113) in a command with word `w`, with the value of a NaN from NAN_POLICY (R119); nothing
where NaNInputFault is raised. -/
def srnd (w : Word) (s : State) : Option Int → Option Int
  | none => nanResult s.params.nanPolicy (.scalarPath w) s.draws
  | some c => some (rnd c)

/-- SST: `MemWrite(DST + i, 1, [byte(v)])` (40_reference_kernel R118). -/
def sst (s : State) (i : Nat) (v : Int) : StepEnd := memWriteByte s (s.eng.outAddr i) (byte v)

/-- SSTEP(i), the scalar step (40_reference_kernel R118) of a command with word `w`: LoadAccessFault, then NaNInputFault,
then StoreAccessFault. The draws count on whenever the scalar has been used, a refused NaN included (log entries 8, 12). -/
def sstep (w : Word) (s : State) (i : Nat) : StepEnd :=
  match sld s i with
  | .error => .raised .loadAccess s
  | .silent => .unanswered
  | .got sx =>
    match srnd w s (sclip sx) with
    | none => .raised .nanInput (s.drawn 1)
    | some v => sst (s.drawn 1) i v

end Sys2Proof.Machine
end

