-- ==== Sys2Proof/Machine/Sequencer.lean ====
section
/-!
DEFINITION. What the three commands share: acceptance (43_command_port R193) and the sequencer (42_vector_commands R170 to
R174). A command differs from another by its command word and by its group step, if it has one.
-/

namespace Sys2Proof.Machine

/-- The buffers of the selected engine are compatible with those of every other engine that runs (20_memory R83). -/
def State.othersCompatible (s : State) : Bool :=
  s.others.all (fun f => !f.running || s.eng.compatible f)

/-- Step 4 of a write to CMD: `CMD <- w ; IDX <- 0 ; DONE <- 0 ; BUSY <- 1` (43_command_port R193). No memory request. A
command whose buffers break 20_memory R83 with those of a running one is in a race with it, and so is that one (log
entry 13). -/
def accepted (w : Word) (s : State) : State :=
  (s.mark fun f => !s.eng.compatible f).withEng { s.eng with
    cmd := w
    idx := 0
    status := statusAccept s.eng.status
    launch := s.mem
    raced := !s.othersCompatible }

/-- A write of the command word `w` to CMD of an engine in IDLE, from check 2 on (43_command_port R193): address range,
then alignment where the command requires it, then acceptance. A launch the hardware accepts but the spec gives no
meaning, since its own buffers overlap, is refused (20_memory R79). -/
def accept (w : Word) (g : Option Group) (s : State) : Host.Outcome State Fault Refusal :=
  if !s.eng.rangesFit s.params then .next (takeFault .addressRange s)
  else if decide (g = some .aligned) && !s.eng.aligned then .next (takeFault .misaligned s)
  else if !s.eng.buffersDisjoint then .refused .overlappingBuffers
  else .next (accepted w s)

/-- The state after a group step or scalar step at index `i` that converts `n` scalars (42_vector_commands R171, R172):
IDX is advanced only if the step ended without fault; a step whose request is not answered leaves the engine in RUN as it
was (42_vector_commands R178). -/
def finish (s : State) (i n : Nat) : StepEnd → State
  | .ok s' => s'.withIdx (i + n)
  | .raised c s' => takeFault c s'
  | .unanswered => s

/-- The sequencer in RUN (42_vector_commands R170) with the command of word `w`: completion step, group step or scalar
step. -/
def sequencerStep (w : Word) (g : Option Group) (s : State) : State :=
  if s.eng.idx = s.eng.scalars then complete s
  else
    match g with
    | some a =>
      if s.eng.idx + Config.groupScalars ≤ s.eng.scalars then
        finish s s.eng.idx Config.groupScalars (gstep w a s s.eng.idx)
      else finish s s.eng.idx 1 (sstep w s s.eng.idx)
    | none => finish s s.eng.idx 1 (sstep w s s.eng.idx)

/-- One transition of a command: in IDLE its write to CMD, in RUN its next step, in HALT nothing, since a halted engine
accepts nothing and takes no step (42_vector_commands R170, 43_command_port R193, log entry 5). -/
def transition (w : Word) (g : Option Group) (s : State) : Host.Outcome State Fault Refusal :=
  match s.eng.phase with
  | .idle => accept w g s
  | .run => .next (sequencerStep w g s)
  | .halt => .next s

end Sys2Proof.Machine
end

