-- ==== Sys2Proof/Machine/Convert.lean ====
section
/-!
DEFINITION. The meanings of the three commands (40_reference_kernel R122, 42_vector_commands R175, R177).
-/

namespace Sys2Proof.Machine

/-- CONV.REF, the Reference Kernel (40_reference_kernel R122): it never chooses a group step. -/
def execConvRef (s : State) : Host.Outcome State Fault Refusal :=
  transition (encode .convRef) none s

/-- CONV.VU, the Wide-Vector Kernel, unaligned (42_vector_commands R175). -/
def execConvVu (s : State) : Host.Outcome State Fault Refusal :=
  transition (encode .convVu) (some .unaligned) s

/-- CONV.VA, the Wide-Vector Kernel, aligned (42_vector_commands R177): accepted only with both start addresses
aligned. -/
def execConvVa (s : State) : Host.Outcome State Fault Refusal :=
  transition (encode .convVa) (some .aligned) s

end Sys2Proof.Machine
end

