-- ==== Sys2Proof/Machine/Dispatch.lean ====
section
/-!
DEFINITION. One arm per command: one transition of the command in the state (log entry 5).
-/

namespace Sys2Proof.Machine

def exec (i : Instr) (s : State) : Host.Outcome State Fault Refusal :=
  match i with
  | .convRef => Sys2Proof.Machine.execConvRef s
  | .convVu => Sys2Proof.Machine.execConvVu s
  | .convVa => Sys2Proof.Machine.execConvVa s

end Sys2Proof.Machine
end

