-- ==== Sys2Proof/Machine/HostPort.lean ====
section
/-!
DEFINITION. The command port (43_command_port R190 to R193), reset as the host applies it, and what other agents do to
memory between two steps of an engine (20_memory R78, R80).
-/

namespace Sys2Proof.Machine

/-- `rd` of a register number (43_command_port R191, 30_encoding R94): a number above 5 reads 0. -/
def Engine.readReg (e : Engine) : Nat → Nat
  | 0 => e.cmd.toNat
  | 1 => e.status.toNat
  | 2 => e.dst
  | 3 => e.src
  | 4 => e.count
  | 5 => e.idx
  | _ => 0

/-- `wr CMD, w` (43_command_port R193): ignored in RUN and HALT; in IDLE the word is decoded, an illegal one raises
IllegalCommandFault and a command makes its first transition. -/
def writeCmd (w : Word) (s : State) : Host.Outcome State Fault Refusal :=
  match s.eng.phase with
  | .idle =>
    match decode w with
    | .command i => exec i s
    | .illegal _ => .next (takeFault .illegalCommand s)
  | .run => .next s
  | .halt => .next s

/-- `wr DST, v`, `wr SRC, v`, `wr COUNT, v` and writes that are always ignored (43_command_port R192): an operand
register takes the value in IDLE and keeps its own in RUN and HALT. A register has its own width (43_command_port
R190). -/
def writeOperand (reg v : Nat) (s : State) : State :=
  if s.eng.phase = .idle then
    match reg with
    | 2 => s.withEng { s.eng with dst := v % s.params.space }
    | 3 => s.withEng { s.eng with src := v % s.params.space }
    | 4 => s.withEng { s.eng with count := v % s.params.countRange }
    | _ => s
  else s

/-- `wr` of a register number (43_command_port R192, R193, 30_encoding R94). -/
def writeReg (reg v : Nat) (s : State) : Host.Outcome State Fault Refusal :=
  if reg = 0 then writeCmd (BitVec.ofNat 32 v) s else .next (writeOperand reg v s)

/-- The turn of the selected engine (42_vector_commands R170): in RUN a step of the latched command, in IDLE and HALT
nothing. -/
def engineTurn (s : State) : Host.Outcome State Fault Refusal :=
  if !s.eng.live then .refused .beforeFirstReset
  else
    match s.eng.phase with
    | .run =>
      match decode s.eng.cmd with
      | .command i => exec i s
      | .illegal _ => .fault .latchedWordIllegal
    | .idle => .next s
    | .halt => .next s

/-- `wait` (30_encoding R99): STATUS is read; once it shows DONE or ERR the host goes on, told that value; until then
the engine takes its turn and the host reads again. `rest` is what the host does after it (log entry 17). -/
def waitTurn (rest : List HostAction) (s : State) : Host.Outcome State Fault Refusal :=
  if s.eng.live && (statusDone s.eng.status || statusErr s.eng.status) then
    .next ((s.withInputs rest).told (.reg 1 s.eng.status.toNat))
  else engineTurn s

/-- Engine number `k` becomes the selected one; a number no engine has changes nothing (60_exceptions R232). -/
def selectEngine (k : Nat) (s : State) : State :=
  match s.engines.drop k with
  | e :: rest => { s with before := s.engines.take k, eng := e, after := rest }
  | [] => s

/-- The state after another agent has read the byte at `a` (20_memory R78). In the output buffer of a BUSY engine, and
wherever a race is on, it finds any of the old and new values (20_memory R80, 93_implementation_defined U6, log entry
12). -/
def agentRead (a : Nat) (s : State) : State :=
  if s.contestedAt a || s.engines.any (fun e => e.running && e.inOutput a) then
    (s.told (.byte a (s.raceRead .agent s.engines a))).drawn 1
  else s.told (.byte a (s.mem.read a))

/-- The state after another agent has written the byte at `a` (20_memory R78). In a buffer of a BUSY engine that is a
race, in which the engine's command is from then on; nothing orders the write and one the engine has made there already
(20_memory R80, 93_implementation_defined U6, log entry 12). -/
def agentWrite (a : Nat) (b : Byte) (s : State) : State :=
  if s.engines.any (fun e => e.running && e.holds a) then
    (s.raceWrite (s.engines.any fun e => e.running && e.wrote a) a b).mark fun e => e.holds a
  else s.withMem (s.mem.write a b)

/-- Another agent reads the byte at `a`, if there is such an address (10_state R33). -/
def agentLoad (a : Nat) (s : State) : Host.Outcome State Fault Refusal :=
  if s.params.space ≤ a then .fault .addressOutsideSpace
  else .next (agentRead a s)

/-- Another agent writes the byte at `a`, if there is such an address (10_state R33). -/
def agentStore (a : Nat) (b : Byte) (s : State) : Host.Outcome State Fault Refusal :=
  if s.params.space ≤ a then .fault .addressOutsideSpace
  else .next (agentWrite a b s)

/-- A register transaction with the selected engine, which must have been reset once (70_reset_and_hazards R243). -/
def ifLive (s : State) (r : Host.Outcome State Fault Refusal) : Host.Outcome State Fault Refusal :=
  if s.eng.live then r else .refused .beforeFirstReset

/-- One action of the host in the state `s`, which no longer holds the action and still holds what follows it. -/
def hostAction (act : HostAction) (s : State) : Host.Outcome State Fault Refusal :=
  match act with
  | .read reg => ifLive s (.next (s.told (.reg reg (s.eng.readReg reg))))
  | .write reg v => ifLive s (writeReg reg v s)
  | .wait => waitTurn s.inputs (s.withInputs (.wait :: s.inputs))
  | .reset => .next (applyReset s)
  | .tick => engineTurn s
  | .select k => .next (selectEngine k s)
  | .load a => agentLoad a s
  | .store a b => agentStore a b s
  | .remap ws => .next (s.withPlatform ws)

end Sys2Proof.Machine
end

