-- ==== Sys2Proof/Machine/Step.lean ====
section
/-!
DEFINITION. One step of the machine: the host's next action, or the selected engine's turn when the host does nothing.
Every interleaving of transactions and engine steps is a list of actions (43_command_port R190, log entry 4).
-/

namespace Sys2Proof.Machine

/-- One step of the machine. -/
def step (s : State) : Host.Outcome State Fault Refusal :=
  match s.inputs with
  | [] => engineTurn s
  | act :: rest => hostAction act (s.withInputs rest)

/-- The state in which the very next step runs the command whose word is `w` (bits above `nbits` are 0): the host's next
action is `wr CMD, w`, to an engine that has been reset and is in IDLE (43_command_port R193, log entry 5). -/
def State.withFetchWord (s : State) (nbits w : Nat) : State :=
  { s with
    inputs := .write 0 (w % 2 ^ nbits) :: s.inputs
    eng := if s.eng.phase = .idle then { s.eng with live := true }
      else { s.eng with live := true, status := 0#32, launch := [], raced := false } }

end Sys2Proof.Machine
end

