-- ==== Sys2Proof/Machine/Assembler.lean ====
section
/-!
DEFINITION. The assembler lines of 30_encoding R99 and the host transactions they stand for.
-/

namespace Sys2Proof.Machine

/-- A line of a host program (30_encoding R99). -/
inductive AsmLine where
  | wr (reg val : Nat)
  | rd (reg : Nat)
  | wait
  | reset
  | conv (i : Instr) (dst src n : Nat)
  | convert (dst src n : Nat)
deriving DecidableEq, Repr

/-- `conv.ref`, `conv.vu`, `conv.va`: the three operand writes in the order of the table of 30_encoding R99, then the write
to CMD. DESIGN CHOICE: R99 lets the three be in any order, and lets one be left out whose register holds its value already
(log entry 26; `writeOperand_comm` and `writeOperand_held` say that this shows in no register). -/
def convActions (i : Instr) (dst src n : Nat) : List HostAction :=
  [.write 2 dst, .write 3 src, .write 4 n, .write 0 (encode i).toNat]

/-- The commands `convert` may stand for: CONV.VA only with aligned addresses (30_encoding R99, 43_command_port R194). -/
def convertChoices (dst src : Nat) : List Instr :=
  if dst % Config.alignBytes = 0 ∧ src % Config.alignBytes = 0 then [.convRef, .convVu, .convVa]
  else [.convRef, .convVu]

/-- The transaction lists a line stands for in this model: for `convert` one for each command it may be, for every other
line one. That a `conv` line has the one list of `convActions` is a DESIGN CHOICE (log entry 26). -/
def AsmLine.expansions : AsmLine → List (List HostAction)
  | .wr reg v => [[.write reg v]]
  | .rd reg => [[.read reg]]
  | .wait => [[.wait]]
  | .reset => [[.reset]]
  | .conv i dst src n => [convActions i dst src n]
  | .convert dst src n => (convertChoices dst src).map (fun i => convActions i dst src n)

end Sys2Proof.Machine
end

