-- ==== Sys2Proof/Machine/Requests.lean ====
section
/-!
DEFINITION. The memory requests a running engine makes in its next step, in the order it makes them (20_memory R67, R77).
They are no state: they are read off the state the step starts from (log entry 25).
-/

namespace Sys2Proof.Machine

/-- One request on the engine's memory port (00_scope R9, 20_memory R67). -/
inductive Request where
  | read (addr n : Nat)
  | write (addr n : Nat)
deriving DecidableEq, Repr

/-- The request touches address `a`. -/
def Request.covers : Request → Nat → Bool
  | .read addr n, a => decide (addr ≤ a ∧ a < addr + n)
  | .write addr n, a => decide (addr ≤ a ∧ a < addr + n)

/-- The request is a write. -/
def Request.isWrite : Request → Bool
  | .read _ _ => false
  | .write _ _ => true

/-- The requests of a group load from address `a` up: each is made only after the one before it has been answered with
the bytes (20_memory R77, 41_lane_processor R141). -/
def loadRequests (s : State) (a : Nat) : Nat → List Request
  | 0 => []
  | n + 1 =>
    .read a Config.vlenBytes ::
      (if s.readAnswer a Config.vlenBytes = .done then loadRequests s (a + Config.vlenBytes) n else [])

/-- The requests of SSTEP(i): the read and, once there is an integer to store, the write (40_reference_kernel R118). -/
def scalarRequests (w : Word) (s : State) (i : Nat) : List Request :=
  .read (s.eng.inAddr i) Config.inScalarBytes ::
    match sld s i with
    | .got sx =>
      match srnd w s (sclip sx) with
      | some _ => [.write (s.eng.outAddr i) Config.outScalarBytes]
      | none => []
    | .error => []
    | .silent => []

/-- The requests of GSTEP(i, a): the four reads and, once the lane processor has a result, the write
(41_lane_processor R140). -/
def groupRequests (w : Word) (g : Group) (s : State) (i : Nat) : List Request :=
  loadRequests s (s.eng.inAddr i) Config.loadsPerGroup ++
    match ldg g s i with
    | .got vin =>
      match laneProcessor s.params.nanPolicy (.laneProcessor w) s.draws vin with
      | some _ => [.write (s.eng.outAddr i) Config.groupScalars]
      | none => []
    | .error => []
    | .silent => []

/-- The requests of the next step of a running engine (42_vector_commands R170): none in the completion step. -/
def stepRequests (w : Word) (g : Option Group) (s : State) : List Request :=
  if s.eng.idx = s.eng.scalars then []
  else
    match g with
    | some a =>
      if s.eng.idx + Config.groupScalars ≤ s.eng.scalars then groupRequests w a s s.eng.idx
      else scalarRequests w s s.eng.idx
    | none => scalarRequests w s s.eng.idx

/-- The requests of a transition of a command: acceptance makes none (43_command_port R193), nor does a halted engine
(60_exceptions R214). -/
def commandRequests (i : Instr) (s : State) : List Request :=
  match s.eng.phase with
  | .run =>
    match i with
    | .convRef => stepRequests (encode .convRef) none s
    | .convVu => stepRequests (encode .convVu) (some .unaligned) s
    | .convVa => stepRequests (encode .convVa) (some .aligned) s
  | .idle => []
  | .halt => []

end Sys2Proof.Machine
end

