-- ==== Sys2Proof/Safety.lean ====
section
/-!
DEFINITION. What claims are stated in terms of: the invariant every step keeps, the contract of a launch (43_command_port
R196), and what a running command has already done (60_exceptions R215, R218).
-/

namespace Sys2Proof.Machine

/-- What holds of an engine in RUN: its buffers fit the address space and are disjoint, IDX has not passed `T`, an
aligned command has aligned addresses, and a group step is only ever taken at a multiple of 16 (42_vector_commands R171,
10_state R27). -/
structure Engine.RunOk (p : Params) (e : Engine) : Prop where
  fits : e.rangesFit p = true
  disjoint : e.buffersDisjoint = true
  inRange : e.idx ≤ e.scalars
  alignedVa : decode e.cmd = .command .convVa → e.aligned = true
  groupAt : decode e.cmd ≠ .command .convRef → e.idx + 16 ≤ e.scalars → e.idx % 16 = 0

/-- What holds of an engine that has been reset: registers within their widths (30_encoding R94), STATUS one of the
values R23 lists, CMD a command word (10_state R21), IDX of a halted engine within its command (10_state R27), nothing
retained of the buffers and no race while no command runs (10_state R34). -/
structure Engine.Ok (p : Params) (e : Engine) : Prop where
  dst_lt : e.dst < p.space
  src_lt : e.src < p.space
  count_lt : e.count < p.countRange
  idx_lt : e.idx < 2 * p.countRange
  legal : statusLegal e.status = true
  command : ∃ i, decode e.cmd = .command i
  run : e.phase = .run → e.RunOk p
  halted : e.phase = .halt → e.idx ≤ e.scalars
  retains : e.phase ≠ .run → e.launch = [] ∧ e.raced = false

/-- An address lies in the input buffer and in the output buffer of one command (20_memory R79). -/
def Engine.Overlap (e : Engine) : Prop :=
  ∃ a, e.src ≤ a ∧ a < e.src + 8 * e.count ∧ e.dst ≤ a ∧ a < e.dst + 2 * e.count

/-- The output buffer of one engine and a buffer of the other have an address in common; a shared input buffer is none
(20_memory R83). -/
def Engine.Clash (e f : Engine) : Prop :=
  ∃ a, (e.dst ≤ a ∧ a < e.dst + 2 * e.count ∧
      ((f.src ≤ a ∧ a < f.src + 8 * f.count) ∨ (f.dst ≤ a ∧ a < f.dst + 2 * f.count))) ∨
    (f.dst ≤ a ∧ a < f.dst + 2 * f.count ∧ e.src ≤ a ∧ a < e.src + 8 * e.count)

/-- Two engines that run at once do so without a clash, or both commands are in a race (20_memory R83). -/
def Engine.Apart (e f : Engine) : Prop :=
  e.running = true → f.running = true → e.Clash f → e.raced = true ∧ f.raced = true

/-- The engine but for the model's own mark of a race. -/
def Engine.unmarked (e : Engine) : Engine := { e with raced := false }

/-- The invariant of the machine: sound parameters, as many engines as NUM_ENGINES says, memory in canonical form
inside the address space, every engine that has been reset sound, engines that run at once without a clash or in a
race (20_memory R83), and no trace of a race where no running engine has a buffer (20_memory R78). -/
structure State.Inv (s : State) : Prop where
  params : s.params.wellFormed = true
  engineCount : s.engines.length = s.params.numEngines
  memWf : s.mem.wf
  memBelow : s.mem.below s.params.space
  ok : ∀ e ∈ s.engines, e.live = true → e.Ok s.params
  apart : s.engines.Pairwise Engine.Apart
  contested : ∀ c ∈ s.contested, ∃ e ∈ s.engines, e.running = true ∧ e.holds c.1 = true

/-- Every scalar of the input buffer of the selected engine is a number (43_command_port R196 (h)). -/
def State.nanFree (s : State) : Prop :=
  ∀ k < s.eng.scalars, isNaN (scalarAt s.params.endian s.mem (s.eng.inAddr k)) = false

/-- The platform answers every request the selected engine's command can make (43_command_port R196 (d), (e)). -/
def State.granted (s : State) : Prop :=
  (∀ a, s.eng.inInput a = true → readAnswerAt s.params.space s.windows a = .done) ∧
    ∀ a, s.eng.inOutput a = true → writeAnswerAt s.params.space s.windows a = .done

/-- The launch of command `i` by the selected engine in this state is in contract (43_command_port R196; (g) is that the
host does nothing else while the command runs, which claims say of `inputs`). -/
structure State.InContract (s : State) (i : Instr) : Prop where
  live : s.eng.live = true
  idle : s.eng.phase = .idle
  fits : s.eng.rangesFit s.params = true
  aligned : i = .convVa → s.eng.aligned = true
  granted : s.granted
  disjoint : ¬s.eng.Overlap
  others : ∀ f ∈ s.others, f.running = true → ¬s.eng.Clash f
  nanFree : s.nanFree

/-- What a running engine whose command is in no race has done so far (60_exceptions R215, R218): its input buffer is as it
was at acceptance, the output scalars before IDX hold converted values, those from IDX on hold what they held at acceptance. -/
structure State.Progress (s : State) (e : Engine) : Prop where
  input : ∀ a, e.inInput a = true → s.mem.read a = e.launch.read a
  stored : ∀ k < e.idx, isNaN (scalarAt s.params.endian s.mem (e.inAddr k)) = false →
    ∃ v, fp2i8 none (scalarAt s.params.endian s.mem (e.inAddr k)) = some v ∧ s.mem.read (e.outAddr k) = byte v
  untouched : ∀ k, e.idx ≤ k → k < e.scalars → s.mem.read (e.outAddr k) = e.launch.read (e.outAddr k)

/-- How many steps of the sequencer a command takes before its completion step (42_vector_commands R178). -/
def stepsBeforeCompletion (i : Instr) (n : Nat) : Nat :=
  match i with
  | .convRef => 2 * n
  | .convVu => 2 * n / 16 + 2 * n % 16
  | .convVa => 2 * n / 16 + 2 * n % 16

/-- `n` transitions of command `i` in a row. -/
def transitions (i : Instr) : Nat → State → Host.Outcome State Fault Refusal
  | 0, s => .next s
  | n + 1, s =>
    match exec i s with
    | .next t => transitions i n t
    | .fault f => .fault f
    | .refused r => .refused r

end Sys2Proof.Machine
end

