-- ==== Sys2Proof/Certificates/Slice0/Obligations.lean ====
section
/-!
DEFINITION. The statements about FP2I8, made from the numbered rules of spec/. Each docstring names the rules.
"Frame" in a statement is what an instruction leaves unchanged.
-/

open Sys2Proof Sys2Proof.Machine

/-! ### Encoding -/

/-- 30_encoding R92: a word is the command of a row when `w & mask = match`; the three rows are the words 0, 1 and 2, and
every other word is illegal. -/
def Obligations.WordIsCommandOfItsRow : Prop :=
  ∀ w : Word,
    (∀ i : Instr, decode w = .command i ↔ w &&& opcodeMask i = opcodeMatch i) ∧
    (decode w = .command .convRef ↔ w = 0x00000000#32) ∧
    (decode w = .command .convVu ↔ w = 0x00000001#32) ∧
    (decode w = .command .convVa ↔ w = 0x00000002#32) ∧
    ((∃ why, decode w = .illegal why) ↔ w ≠ 0x00000000#32 ∧ w ≠ 0x00000001#32 ∧ w ≠ 0x00000002#32)

/-- 30_encoding R97: why a word is illegal: a bit of ZERO is set, or else OP = 0b11. -/
def Obligations.IllegalWordsAreTheRest : Prop :=
  ∀ w : Word,
    (decode w = .illegal .zeroBitSet ↔ 4 ≤ w.toNat) ∧
    (decode w = .illegal .reservedOp ↔ w.toNat = 3) ∧
    ((∃ i, decode w = .command i) ↔ w.toNat < 3)

/-- 30_encoding R91, R92: decoding an encoded command gives it back, and a word that decodes is the encoder's. -/
def Obligations.DecodeEncodeAgree : Prop :=
  (∀ i : Instr, i.wellFormed = true → decode (encode i) = .command i) ∧
    ∀ (w : Word) (i : Instr), decode w = .command i → encode i = w

/-- 30_encoding R92, R97: words written out bit by bit. Sanity statement. -/
def Obligations.WrittenWordsDecode : Prop :=
  decode 0b00000000000000000000000000000000#32 = .command .convRef ∧
  decode 0b00000000000000000000000000000001#32 = .command .convVu ∧
  decode 0b00000000000000000000000000000010#32 = .command .convVa ∧
  decode 0b00000000000000000000000000000011#32 = .illegal .reservedOp ∧
  decode 0b00000000000000000000000000000100#32 = .illegal .zeroBitSet ∧
  decode 0b10000000000000000000000000000001#32 = .illegal .zeroBitSet

/-! ### The step and the command port -/

/-- 43_command_port R193: the host's write of a command word to CMD of an engine in IDLE runs that command's first
transition; the step consumes the host's action and does nothing else around `exec`. -/
def Obligations.CommandWriteRunsDecodedCommand : Prop :=
  ∀ (s : State) (rest : List HostAction) (v : Nat) (i : Instr),
    s.inputs = .write 0 v :: rest → s.eng.live = true → s.eng.phase = .idle →
    decode (BitVec.ofNat 32 v) = .command i → i.wellFormed = true →
    step s = exec i (s.withInputs rest)

/-- 42_vector_commands R170: in RUN the engine's turn is one transition of the latched command; the step consumes the
host's `tick`, if there is one, and does nothing else around `exec`. -/
def Obligations.RunningEngineStepsLatchedCommand : Prop :=
  ∀ (s : State) (i : Instr),
    s.eng.live = true → s.eng.phase = .run → decode s.eng.cmd = .command i → i.wellFormed = true →
    (s.inputs = [] → step s = exec i s) ∧
    ∀ rest, s.inputs = .tick :: rest → step s = exec i (s.withInputs rest)

/-- 30_encoding R97, 43_command_port R193 check 1: the words with `OP = 0b11` or a bit of ZERO set are the illegal ones,
and writing one to CMD in IDLE halts the engine with cause 1: IDX is cleared, CMD, memory and everything else keep their
values. `launch`, `raced` and `contested` are the model's own records, of which nothing is said (log entries 10, 12). -/
def Obligations.IllegalCommandWordFaults : Prop :=
  ∀ w : Word,
    (¬(w.extractLsb' 0 2 = 3#2 ∨ w.extractLsb' 2 30 ≠ 0#30) → ∃ i, decode w = .command i) ∧
    ((w.extractLsb' 0 2 = 3#2 ∨ w.extractLsb' 2 30 ≠ 0#30) →
      (∃ why, decode w = .illegal why) ∧
      ∀ (s : State) (rest : List HostAction),
        s.inputs = .write 0 w.toNat :: rest → s.eng.live = true → statusLegal s.eng.status = true →
        s.eng.phase = .idle →
        ∃ m r c, step s = .next (((s.withInputs rest).withEng
          { s.eng with status := 0x14#32, idx := 0, launch := m, raced := r }).withContested c))

/-- 43_command_port R193: in RUN and HALT a write to CMD is ignored entirely. -/
def Obligations.CommandWriteIgnoredOutsideIdle : Prop :=
  ∀ (s : State) (rest : List HostAction) (v : Nat),
    s.inputs = .write 0 v :: rest → s.eng.live = true → s.eng.phase ≠ .idle →
    step s = .next (s.withInputs rest)

/-- 43_command_port R192: an operand register takes the value in IDLE; in RUN and HALT, and for STATUS, IDX and numbers
above 5 always, the write changes nothing. -/
def Obligations.OperandWritesOnlyInIdle : Prop :=
  ∀ (s : State) (rest : List HostAction) (reg v : Nat),
    s.inputs = .write reg v :: rest → s.eng.live = true → reg ≠ 0 →
    HostAction.wellFormed s.params (.write reg v) = true →
    step s = .next
      (if s.eng.phase = .idle ∧ reg = 2 then (s.withInputs rest).withEng { s.eng with dst := v }
       else if s.eng.phase = .idle ∧ reg = 3 then (s.withInputs rest).withEng { s.eng with src := v }
       else if s.eng.phase = .idle ∧ reg = 4 then (s.withInputs rest).withEng { s.eng with count := v }
       else s.withInputs rest)

/-- 43_command_port R191, 30_encoding R94: a read returns the register's value, 0 for a number above 5, and has no side
effect: the step changes only what the host has been told. -/
def Obligations.RegisterReadsHaveNoSideEffect : Prop :=
  ∀ (s : State) (rest : List HostAction) (reg : Nat),
    s.inputs = .read reg :: rest → s.eng.live = true →
    step s = .next ((s.withInputs rest).told (.reg reg
      (if reg = 0 then s.eng.cmd.toNat else if reg = 1 then s.eng.status.toNat else if reg = 2 then s.eng.dst
       else if reg = 3 then s.eng.src else if reg = 4 then s.eng.count else if reg = 5 then s.eng.idx else 0)))

/-- 30_encoding R99: `wait` ends, telling the host STATUS, exactly when STATUS shows DONE or ERR; until then it stays
first in line and the engine takes its turn. -/
def Obligations.WaitEndsOnDoneOrErr : Prop :=
  ∀ (s : State) (rest : List HostAction), s.inputs = .wait :: rest → s.eng.live = true →
    ((statusDone s.eng.status = true ∨ statusErr s.eng.status = true) →
      step s = .next ((s.withInputs rest).told (.reg 1 s.eng.status.toNat))) ∧
    (¬(statusDone s.eng.status = true ∨ statusErr s.eng.status = true) → step s = engineTurn s)

/-- 20_memory R78, R80, 10_state R33, 93_implementation_defined U6 (log entries 12, 16): what another agent's memory
accesses do. Outside the output buffers of BUSY engines and where no race is on a read finds what memory holds; there it
finds any of the old and new values. Outside the buffers of BUSY engines a write is a write; there the running commands
concerned are in a race from then on, memory holds the agent's byte or, where an engine had stored one already, one of the
two, and both the old value and the agent's byte may be read. -/
def Obligations.AgentAccessesRaceInBusyBuffers : Prop :=
  ∀ (s : State) (rest : List HostAction) (a : Nat) (b : Byte), s.mem.wf →
    (s.inputs = .load a :: rest →
      (s.params.space ≤ a → step s = .fault .addressOutsideSpace) ∧
      (a < s.params.space → (∀ v, (a, v) ∉ s.contested) →
        (∀ e ∈ s.engines, e.running = true → ¬(e.dst ≤ a ∧ a < e.dst + 2 * e.count)) →
        step s = .next ((s.withInputs rest).told (.byte a (s.mem.read a)))) ∧
      (a < s.params.space →
        ((∃ v, (a, v) ∈ s.contested) ∨
          ∃ e ∈ s.engines, e.running = true ∧ e.dst ≤ a ∧ a < e.dst + 2 * e.count) →
        ∃ v, step s = .next (((s.withInputs rest).told (.byte a v)).drawn 1) ∧
          (v = s.mem.read a ∨ (a, v) ∈ s.contested ∨
            ∃ e ∈ s.engines, e.running = true ∧ e.dst ≤ a ∧ a < e.dst + 2 * e.count ∧
              (v = e.launch.read a ∨ (e.dst + e.idx ≤ a ∧ (e.raced = true ∨
                ∃ d w, fp2i8 (nanResult s.params.nanPolicy (.observer .agent (a - e.dst)) d)
                  (scalarAt s.params.endian s.mem (e.src + 4 * (a - e.dst))) = some w ∧ v = byte w)))))) ∧
    (s.inputs = .store a b :: rest →
      (s.params.space ≤ a → step s = .fault .addressOutsideSpace) ∧
      (a < s.params.space →
        (∀ e ∈ s.engines, e.running = true →
          ¬((e.src ≤ a ∧ a < e.src + 8 * e.count) ∨ (e.dst ≤ a ∧ a < e.dst + 2 * e.count))) →
        step s = .next ((s.withInputs rest).withMem (s.mem.write a b))) ∧
      (a < s.params.space →
        (∃ e ∈ s.engines, e.running = true ∧
          ((e.src ≤ a ∧ a < e.src + 8 * e.count) ∨ (e.dst ≤ a ∧ a < e.dst + 2 * e.count))) →
        ∃ t, step s = .next t ∧
          (t.mem.read a = b ∨ (t.mem.read a = s.mem.read a ∧
            ∃ e ∈ s.engines, e.running = true ∧ e.dst ≤ a ∧ a < e.dst + e.idx ∧ a < e.dst + 2 * e.count)) ∧
          (∀ a', a' ≠ a → t.mem.read a' = s.mem.read a') ∧ (a, s.mem.read a) ∈ t.contested ∧ (a, b) ∈ t.contested ∧
          t.params = s.params ∧ t.platform = s.platform ∧ t.inputs = rest ∧ t.answers = s.answers ∧
          t.engines.length = s.engines.length ∧ t.before.length = s.before.length ∧
          ∀ (k : Nat) (e : Engine), s.engines[k]? = some e →
            (e.running = true ∧ ((e.src ≤ a ∧ a < e.src + 8 * e.count) ∨ (e.dst ≤ a ∧ a < e.dst + 2 * e.count)) →
              t.engines[k]? = some { e with raced := true }) ∧
            (¬(e.running = true ∧
                ((e.src ≤ a ∧ a < e.src + 8 * e.count) ∨ (e.dst ≤ a ∧ a < e.dst + 2 * e.count))) →
              t.engines[k]? = some e)))

/-- 70_reset_and_hazards R243, 93_implementation_defined U12 (log entry 15): no rule holds of an engine that has never
been reset, so its transactions and steps are refused; a reset makes it live, with every register 0. -/
def Obligations.NoRuleBeforeFirstReset : Prop :=
  ∀ (s : State) (rest : List HostAction), s.eng.live = false →
    (s.inputs = [] → step s = .refused .beforeFirstReset) ∧
    (∀ reg, s.inputs = .read reg :: rest → step s = .refused .beforeFirstReset) ∧
    (∀ reg v, s.inputs = .write reg v :: rest → step s = .refused .beforeFirstReset) ∧
    (s.inputs = .tick :: rest → step s = .refused .beforeFirstReset) ∧
    (s.inputs = .wait :: rest → step s = .refused .beforeFirstReset) ∧
    (s.inputs = .reset :: rest → step s = .next ((s.withInputs rest).withEng
      { live := true, cmd := 0#32, status := 0#32, dst := 0, src := 0, count := 0, idx := 0, launch := [],
        raced := false }))

/-! ### Reset -/

/-- 10_state R35, 70_reset_and_hazards R240: what reset leaves in the six registers, and that the engine is in IDLE. -/
def Obligations.ResetClearsEveryRegister : Prop :=
  State.reset.eng.cmd = 0#32 ∧ State.reset.eng.status = 0#32 ∧ State.reset.eng.dst = 0 ∧
  State.reset.eng.src = 0 ∧ State.reset.eng.count = 0 ∧ State.reset.eng.idx = 0 ∧
  State.reset.eng.phase = .idle ∧ step State.reset = .next State.reset

/-- 70_reset_and_hazards R240, R241: a reset in IDLE or HALT clears the six registers and changes no memory, no other
engine and nothing else. -/
def Obligations.ResetOutsideRunChangesNoMemory : Prop :=
  ∀ (s : State) (rest : List HostAction), s.inputs = .reset :: rest → s.eng.phase ≠ .run →
    step s = .next ((s.withInputs rest).withEng
      { live := true, cmd := 0#32, status := 0#32, dst := 0, src := 0, count := 0, idx := 0, launch := [],
        raced := false })

/-- 70_reset_and_hazards R242 (log entry 10): a reset in RUN clears the registers and leaves each byte of the output
range with the value it had before the command or with its converted value; the rest of memory is unchanged. In any sound
state of a command that is in no race (first clause) a byte already stored counts as the converted one; where the command
has done what it should so far (`State.Progress`, second clause) the converted value of a scalar that is no NaN is
`FP2I8` of it. For a NaN scalar the converted value is some draw of NAN_POLICY. A command in a race leaves one of the values
that 20_memory R80 lets a read return there (log entry 12). -/
def Obligations.ResetInRunLeavesOldOrConverted : Prop :=
  ∀ (s : State) (rest : List HostAction),
    s.Inv → s.inputs = .reset :: rest → s.eng.live = true → s.eng.phase = .run →
    ∃ t, step s = .next t ∧
      t.eng =
        { live := true, cmd := 0#32, status := 0#32, dst := 0, src := 0, count := 0, idx := 0, launch := [],
          raced := false } ∧
      t.inputs = rest ∧ t.before = s.before ∧ t.after = s.after ∧ t.params = s.params ∧ t.platform = s.platform ∧
      t.answers = s.answers ∧
      (∀ a, ¬(s.eng.dst ≤ a ∧ a < s.eng.dst + 2 * s.eng.count) → t.mem.read a = s.mem.read a) ∧
      (s.eng.raced = false → ∀ k < 2 * s.eng.count,
        t.mem.read (s.eng.dst + k) = s.eng.launch.read (s.eng.dst + k) ∨
        (k < s.eng.idx ∧ t.mem.read (s.eng.dst + k) = s.mem.read (s.eng.dst + k)) ∨
        (s.eng.idx ≤ k ∧ ∃ d v, fp2i8 (nanResult s.params.nanPolicy (.reset k) d)
          (scalarAt s.params.endian s.mem (s.eng.src + 4 * k)) = some v ∧ t.mem.read (s.eng.dst + k) = byte v)) ∧
      (s.eng.raced = false → s.Progress s.eng → ∀ k < 2 * s.eng.count,
        isNaN (scalarAt s.params.endian s.mem (s.eng.src + 4 * k)) = false →
        t.mem.read (s.eng.dst + k) = s.eng.launch.read (s.eng.dst + k) ∨
        ∃ v, fp2i8 none (scalarAt s.params.endian s.mem (s.eng.src + 4 * k)) = some v ∧
          t.mem.read (s.eng.dst + k) = byte v) ∧
      (s.eng.raced = true → ∀ k < 2 * s.eng.count,
        t.mem.read (s.eng.dst + k) ∈ s.candidates s.reader s.engines (s.eng.dst + k))

/-! ### Faults -/

/-- 60_exceptions R214: fault entry sets ERR and CAUSE, clears BUSY and DONE, clears IDX for codes 1 to 3, and leaves
everything else; STATUS is then `0x4 | (c << 4)`, the engine is in HALT and takes no further step of any command.
`launch`, `raced` and `contested` are the model's own records, of which nothing is said (log entries 10, 12). -/
def Obligations.FaultEntry : Prop :=
  ∀ (c : Cause) (s : State), statusLegal s.eng.status = true →
    (∃ m r x, takeFault c s = (s.withEng { s.eng with
      status := 0x00000004#32 ||| (BitVec.ofNat 32 c.code <<< 4)
      idx := if c = .illegalCommand ∨ c = .addressRange ∨ c = .misaligned then 0 else s.eng.idx
      launch := m
      raced := r }).withContested x) ∧
    (takeFault c s).eng.phase = .halt ∧
    (statusErr (takeFault c s).eng.status = true ∧ statusCause (takeFault c s).eng.status = c.code ∧
      statusBusy (takeFault c s).eng.status = false ∧ statusDone (takeFault c s).eng.status = false) ∧
    (∀ i : Instr, exec i (takeFault c s) = .next (takeFault c s)) ∧
    (s.eng.live = true → s.inputs = [] → step (takeFault c s) = .next (takeFault c s))

/-- 43_command_port R193 check 2, 60_exceptions R211 code 2: for every command, a buffer that passes the top of the
address space halts the engine with cause 2, whatever else is wrong with the operands. -/
def Obligations.AddressRangeFaultAtCommand : Prop :=
  ∀ (i : Instr) (s : State), s.eng.phase = .idle → statusLegal s.eng.status = true →
    (s.eng.src + 8 * s.eng.count > 2 ^ s.params.addrBits ∨ s.eng.dst + 2 * s.eng.count > 2 ^ s.params.addrBits) →
    exec i s = .next (s.withEng { s.eng with status := 0x24#32, idx := 0, launch := [], raced := false }).settled

/-- 43_command_port R193 check 3, 20_memory R66: CONV.VA with an address that is no multiple of 16 halts the engine with
cause 3, for every COUNT. -/
def Obligations.MisalignedFaultAtConvVa : Prop :=
  ∀ s : State, s.eng.phase = .idle → statusLegal s.eng.status = true →
    s.eng.src + 8 * s.eng.count ≤ 2 ^ s.params.addrBits → s.eng.dst + 2 * s.eng.count ≤ 2 ^ s.params.addrBits →
    (s.eng.src % 16 ≠ 0 ∨ s.eng.dst % 16 ≠ 0) →
    exec .convVa s = .next (s.withEng { s.eng with status := 0x34#32, idx := 0, launch := [], raced := false }).settled

/-- 20_memory R79, R83, 93_implementation_defined U5, U6 (log entries 11, 13): a launch that passes the checks of
acceptance is refused when its own input and output overlap; any other is accepted. Its command is in a race exactly when
its output shares an address with a buffer of an engine that runs, or its input with the output of one; a shared input is
no race. The commands it is in a race with are so too; nothing else of the other engines changes. -/
def Obligations.OverlapRefusedClashRaces : Prop :=
  ∀ (i : Instr) (s : State), s.eng.phase = .idle → statusLegal s.eng.status = true →
    s.eng.src + 8 * s.eng.count ≤ 2 ^ s.params.addrBits → s.eng.dst + 2 * s.eng.count ≤ 2 ^ s.params.addrBits →
    (i = .convVa → s.eng.src % 16 = 0 ∧ s.eng.dst % 16 = 0) →
    ((∃ a, s.eng.src ≤ a ∧ a < s.eng.src + 8 * s.eng.count ∧ s.eng.dst ≤ a ∧ a < s.eng.dst + 2 * s.eng.count) →
      exec i s = .refused .overlappingBuffers) ∧
    ((∀ a, ¬(s.eng.src ≤ a ∧ a < s.eng.src + 8 * s.eng.count ∧ s.eng.dst ≤ a ∧ a < s.eng.dst + 2 * s.eng.count)) →
      ∃ (r : Bool) (bs as : List Engine),
        exec i s = .next { s with
          before := bs
          after := as
          eng := { s.eng with cmd := encode i, idx := 0, status := 0x1#32, launch := s.mem, raced := r } } ∧
        (r = true ↔ ∃ f ∈ s.before ++ s.after, f.running = true ∧ ∃ a,
          (s.eng.dst ≤ a ∧ a < s.eng.dst + 2 * s.eng.count ∧
            ((f.src ≤ a ∧ a < f.src + 8 * f.count) ∨ (f.dst ≤ a ∧ a < f.dst + 2 * f.count))) ∨
          (f.dst ≤ a ∧ a < f.dst + 2 * f.count ∧ s.eng.src ≤ a ∧ a < s.eng.src + 8 * s.eng.count)) ∧
        bs.length = s.before.length ∧ as.length = s.after.length ∧
        ∀ (k : Nat) (f : Engine), (s.before ++ s.after)[k]? = some f →
          (f.running = true ∧ s.eng.Clash f → (bs ++ as)[k]? = some { f with raced := true }) ∧
          (¬(f.running = true ∧ s.eng.Clash f) → (bs ++ as)[k]? = some f))

/-- 60_exceptions R216, 40_reference_kernel R118: in a scalar step of any of the three commands a read answered with an
error halts the engine with cause 4; IDX, memory and everything else are unchanged. -/
def Obligations.ScalarLoadFault : Prop :=
  ∀ (i : Instr) (s : State), s.eng.phase = .run → statusLegal s.eng.status = true →
    s.eng.idx < 2 * s.eng.count → (i = .convRef ∨ 2 * s.eng.count < s.eng.idx + 16) →
    s.readAnswer (s.eng.src + 4 * s.eng.idx) 4 = .error →
    exec i s = .next (s.withEng { s.eng with status := 0x44#32, launch := [], raced := false }).settled

/-- 60_exceptions R216, 41_lane_processor R141, R142: in a group step of CONV.VU or CONV.VA the first of the four reads
that is answered with an error halts the engine with cause 4; nothing is stored, IDX is unchanged. -/
def Obligations.GroupLoadFault : Prop :=
  ∀ (i : Instr) (s : State) (j : Nat), i ≠ .convRef → s.eng.phase = .run → statusLegal s.eng.status = true →
    s.eng.idx + 16 ≤ 2 * s.eng.count → j < 4 →
    (∀ j' < j, s.readAnswer (s.eng.src + 4 * s.eng.idx + 16 * j') 16 = .done) →
    s.readAnswer (s.eng.src + 4 * s.eng.idx + 16 * j) 16 = .error →
    exec i s = .next (s.withEng { s.eng with status := 0x44#32, launch := [], raced := false }).settled

/-- 60_exceptions R217, 20_memory R71: in a scalar step a write answered with an error halts the engine with cause 5;
the byte is not written, IDX is unchanged. The draws have moved on (the model's own counter). -/
def Obligations.ScalarStoreFault : Prop :=
  ∀ (i : Instr) (s : State) (v : Int), s.eng.phase = .run → statusLegal s.eng.status = true →
    s.eng.idx < 2 * s.eng.count → (i = .convRef ∨ 2 * s.eng.count < s.eng.idx + 16) →
    s.readAnswer (s.eng.src + 4 * s.eng.idx) 4 = .done →
    fp2i8 (nanResult s.params.nanPolicy (.scalarPath (encode i)) s.draws) (s.inputWord s.eng.idx) = some v →
    s.writeAnswer (s.eng.dst + s.eng.idx) 1 = .error →
    exec i s = .next ((s.drawn 1).withEng { s.eng with status := 0x54#32, launch := [], raced := false }).settled

/-- 60_exceptions R217, 20_memory R71: in a group step a write answered with an error halts the engine with cause 5; each
of the 16 bytes holds its old or its new value, every other byte and IDX are unchanged. The draws and the values of racing
bytes are the model's own. -/
def Obligations.GroupStoreFault : Prop :=
  ∀ (i : Instr) (s : State) (vb : List Int), i ≠ .convRef → s.mem.wf → s.eng.phase = .run →
    statusLegal s.eng.status = true → s.eng.idx + 16 ≤ 2 * s.eng.count →
    (∀ j < 4, s.readAnswer (s.eng.src + 4 * s.eng.idx + 16 * j) 16 = .done) →
    vb.length = 16 →
    (∀ k < 16, fp2i8 (nanResult s.params.nanPolicy (.laneProcessor (encode i)) (s.draws + k))
      (s.inputWord (s.eng.idx + k)) = vb[k]?) →
    s.writeAnswer (s.eng.dst + s.eng.idx) 16 = .error →
    ∃ m c d, exec i s = .next ((s.withStore m c d).withEng
        { s.eng with status := 0x54#32, launch := [], raced := false }) ∧
      (∀ a, ¬(s.eng.dst + s.eng.idx ≤ a ∧ a < s.eng.dst + s.eng.idx + 16) → m.read a = s.mem.read a) ∧
      ∀ k < 16, m.read (s.eng.dst + s.eng.idx + k) = s.mem.read (s.eng.dst + s.eng.idx + k) ∨
        ∃ v, vb[k]? = some v ∧ m.read (s.eng.dst + s.eng.idx + k) = byte v

/-- 60_exceptions R219, 40_reference_kernel R119, 41_lane_processor R152: under NAN_POLICY = fault a NaN among the
scalars of the step, all loads answered, halts the engine with cause 6 and the step stores nothing. The draws have moved on (the
model's own counter, log entries 8, 12), so that a later read of the same bytes in a race is free again. -/
def Obligations.NaNInputFaultStoresNothing : Prop :=
  ∀ (i : Instr) (s : State), s.eng.phase = .run → statusLegal s.eng.status = true → s.params.nanPolicy = .fault →
    (s.eng.idx < 2 * s.eng.count → (i = .convRef ∨ 2 * s.eng.count < s.eng.idx + 16) →
      s.readAnswer (s.eng.src + 4 * s.eng.idx) 4 = .done → isNaN (s.inputWord s.eng.idx) = true →
      exec i s = .next ((s.drawn 1).withEng { s.eng with status := 0x64#32, launch := [], raced := false }).settled) ∧
    (i ≠ .convRef → s.eng.idx + 16 ≤ 2 * s.eng.count →
      (∀ j < 4, s.readAnswer (s.eng.src + 4 * s.eng.idx + 16 * j) 16 = .done) →
      (∃ k < 16, isNaN (s.inputWord (s.eng.idx + k)) = true) →
      exec i s = .next ((s.drawn 16).withEng { s.eng with status := 0x64#32, launch := [], raced := false }).settled)

/-- 42_vector_commands R178, 93_implementation_defined U14 (log entry 7): a request the platform never answers leaves the
engine in RUN as it was. The last two clauses say it of every request the step makes (`commandRequests`): each read and
each write of a scalar step and of a group step, whatever NAN_POLICY gave for a NaN. The first two spell it out for the
read of a scalar step, its write, and each read of a group step. -/
def Obligations.UnansweredRequestLeavesRun : Prop :=
  ∀ (i : Instr) (s : State), s.eng.phase = .run →
    (s.eng.idx < 2 * s.eng.count → (i = .convRef ∨ 2 * s.eng.count < s.eng.idx + 16) →
      (s.readAnswer (s.eng.src + 4 * s.eng.idx) 4 = .silent → exec i s = .next s) ∧
      (s.readAnswer (s.eng.src + 4 * s.eng.idx) 4 = .done →
        (isNaN (s.inputWord s.eng.idx) = false ∨ s.params.nanPolicy ≠ .fault) →
        s.writeAnswer (s.eng.dst + s.eng.idx) 1 = .silent → exec i s = .next s)) ∧
    (i ≠ .convRef → s.eng.idx + 16 ≤ 2 * s.eng.count →
      (∀ j < 4, (∀ j' < j, s.readAnswer (s.eng.src + 4 * s.eng.idx + 16 * j') 16 = .done) →
        s.readAnswer (s.eng.src + 4 * s.eng.idx + 16 * j) 16 = .silent → exec i s = .next s) ∧
      ((∀ j < 4, s.readAnswer (s.eng.src + 4 * s.eng.idx + 16 * j) 16 = .done) →
        (s.params.nanPolicy = .fault → ∀ k < 16, isNaN (s.inputWord (s.eng.idx + k)) = false) →
        s.writeAnswer (s.eng.dst + s.eng.idx) 16 = .silent → exec i s = .next s)) ∧
    (∀ a n, .read a n ∈ commandRequests i s → s.readAnswer a n = .silent → exec i s = .next s) ∧
    (∀ a n, .write a n ∈ commandRequests i s → s.writeAnswer a n = .silent → exec i s = .next s)

/-! ### The commands, transition by transition -/

/-- 43_command_port R193 step 4, 40_reference_kernel R122, 42_vector_commands R175, R177, 20_memory R83: each of the three
commands is accepted in IDLE when its ranges fit and, for CONV.VA only, both addresses are multiples of 16: CMD takes the
word, IDX is 0, STATUS is RUN, and nothing else changes (no memory request is made). Its own buffers must not overlap (log
entry 11), and its output must share no address with a buffer of an engine that runs, nor its input with the output of one
(log entry 13); it may share an input with one. `launch` and `raced` are the model's own records (log entries 10, 12). -/
def Obligations.AcceptanceStartsCommand : Prop :=
  ∀ (i : Instr) (s : State), s.eng.phase = .idle → statusLegal s.eng.status = true →
    s.eng.src + 8 * s.eng.count ≤ 2 ^ s.params.addrBits → s.eng.dst + 2 * s.eng.count ≤ 2 ^ s.params.addrBits →
    (i = .convVa → s.eng.src % 16 = 0 ∧ s.eng.dst % 16 = 0) →
    (∀ a, ¬(s.eng.src ≤ a ∧ a < s.eng.src + 8 * s.eng.count ∧ s.eng.dst ≤ a ∧ a < s.eng.dst + 2 * s.eng.count)) →
    (∀ f ∈ s.before ++ s.after, f.running = true → ∀ a,
      (s.eng.dst ≤ a ∧ a < s.eng.dst + 2 * s.eng.count →
        ¬((f.src ≤ a ∧ a < f.src + 8 * f.count) ∨ (f.dst ≤ a ∧ a < f.dst + 2 * f.count))) ∧
      (f.dst ≤ a ∧ a < f.dst + 2 * f.count → ¬(s.eng.src ≤ a ∧ a < s.eng.src + 8 * s.eng.count))) →
    exec i s = .next (s.withEng
      { s.eng with cmd := encode i, idx := 0, status := 0x1#32, launch := s.mem, raced := false })

/-- 40_reference_kernel R118, R122, 42_vector_commands R172: CONV.REF in RUN with scalars left, both requests answered:
the byte at `DST + IDX` becomes the converted input scalar IDX, IDX goes up by 1, nothing else changes but the model's
draw counter. With a NaN scalar `v` is NaNResult under NAN_POLICY (log entry 8). In a race (20_memory R80, log entry 12) the
input scalar is what the engine reads and the byte may be one that another agent wrote there. -/
def Obligations.ConvRefScalarStep : Prop :=
  ∀ (s : State) (v : Int), s.mem.wf → s.eng.phase = .run → s.eng.idx < 2 * s.eng.count →
    s.readAnswer (s.eng.src + 4 * s.eng.idx) 4 = .done → s.writeAnswer (s.eng.dst + s.eng.idx) 1 = .done →
    (s.eng.raced = false →
      fp2i8 (nanResult s.params.nanPolicy (.scalarPath (encode .convRef)) s.draws)
        (scalarAt s.params.endian s.mem (s.eng.src + 4 * s.eng.idx)) = some v →
      exec .convRef s = .next { s with
        mem := s.mem.write (s.eng.dst + s.eng.idx) (byte v)
        eng := { s.eng with idx := s.eng.idx + 1 }
        draws := s.draws + 1 }) ∧
    (s.eng.raced = true →
      fp2i8 (nanResult s.params.nanPolicy (.scalarPath (encode .convRef)) s.draws) (s.inputWord s.eng.idx) = some v →
      ∃ m c d, exec .convRef s = .next ((s.withStore m c d).withEng { s.eng with idx := s.eng.idx + 1 }) ∧
        (m.read (s.eng.dst + s.eng.idx) = byte v ∨
          m.read (s.eng.dst + s.eng.idx) = s.mem.read (s.eng.dst + s.eng.idx)) ∧
        ∀ a, a ≠ s.eng.dst + s.eng.idx → m.read a = s.mem.read a)

/-- 42_vector_commands R172, R173, R175, R177: CONV.VU and CONV.VA in RUN with 1 to 15 scalars left take the same scalar
step as CONV.REF, each with its own draw for a NaN (log entry 8). -/
def Obligations.VectorCommandTailStep : Prop :=
  ∀ (i : Instr) (s : State) (v : Int), i ≠ .convRef → s.mem.wf → s.eng.phase = .run →
    s.eng.idx < 2 * s.eng.count → 2 * s.eng.count < s.eng.idx + 16 →
    s.readAnswer (s.eng.src + 4 * s.eng.idx) 4 = .done → s.writeAnswer (s.eng.dst + s.eng.idx) 1 = .done →
    (s.eng.raced = false →
      fp2i8 (nanResult s.params.nanPolicy (.scalarPath (encode i)) s.draws)
        (scalarAt s.params.endian s.mem (s.eng.src + 4 * s.eng.idx)) = some v →
      exec i s = .next { s with
        mem := s.mem.write (s.eng.dst + s.eng.idx) (byte v)
        eng := { s.eng with idx := s.eng.idx + 1 }
        draws := s.draws + 1 }) ∧
    (s.eng.raced = true →
      fp2i8 (nanResult s.params.nanPolicy (.scalarPath (encode i)) s.draws) (s.inputWord s.eng.idx) = some v →
      ∃ m c d, exec i s = .next ((s.withStore m c d).withEng { s.eng with idx := s.eng.idx + 1 }) ∧
        (m.read (s.eng.dst + s.eng.idx) = byte v ∨
          m.read (s.eng.dst + s.eng.idx) = s.mem.read (s.eng.dst + s.eng.idx)) ∧
        ∀ a, a ≠ s.eng.dst + s.eng.idx → m.read a = s.mem.read a)

/-- 41_lane_processor R140, R150, 42_vector_commands R171, R175, R177: CONV.VU and CONV.VA in RUN with at least 16 scalars
left, all five requests answered: the 16 bytes from `DST + IDX` up become the converted scalars IDX to IDX + 15 in
order, IDX goes up by 16, nothing else changes but the model's draw counter. A NaN lane has NaNResult under NAN_POLICY,
drawn for itself (log entry 8). In a race (20_memory R80, log entry 12) the input scalars are what the engine reads and a
byte may be one that another agent wrote there. -/
def Obligations.VectorCommandGroupStep : Prop :=
  ∀ (i : Instr) (s : State) (vb : List Int), i ≠ .convRef → s.mem.wf → s.eng.phase = .run →
    s.eng.idx + 16 ≤ 2 * s.eng.count →
    (∀ j < 4, s.readAnswer (s.eng.src + 4 * s.eng.idx + 16 * j) 16 = .done) →
    s.writeAnswer (s.eng.dst + s.eng.idx) 16 = .done → vb.length = 16 →
    (s.eng.raced = false →
      (∀ k < 16, fp2i8 (nanResult s.params.nanPolicy (.laneProcessor (encode i)) (s.draws + k))
        (scalarAt s.params.endian s.mem (s.eng.src + 4 * (s.eng.idx + k))) = vb[k]?) →
      exec i s = .next { s with
        mem := s.mem.writeBytes (s.eng.dst + s.eng.idx) (vb.map byte)
        eng := { s.eng with idx := s.eng.idx + 16 }
        draws := s.draws + 16 }) ∧
    (s.eng.raced = true →
      (∀ k < 16, fp2i8 (nanResult s.params.nanPolicy (.laneProcessor (encode i)) (s.draws + k))
        (s.inputWord (s.eng.idx + k)) = vb[k]?) →
      ∃ m c d, exec i s = .next ((s.withStore m c d).withEng { s.eng with idx := s.eng.idx + 16 }) ∧
        (∀ k < 16, m.read (s.eng.dst + s.eng.idx + k) = s.mem.read (s.eng.dst + s.eng.idx + k) ∨
          ∃ v, vb[k]? = some v ∧ m.read (s.eng.dst + s.eng.idx + k) = byte v) ∧
        ∀ a, ¬(s.eng.dst + s.eng.idx ≤ a ∧ a < s.eng.dst + s.eng.idx + 16) → m.read a = s.mem.read a)

/-- 42_vector_commands R174: each of the three commands in RUN with IDX = T completes: BUSY cleared, DONE set, IDX, CMD,
DST, SRC, COUNT and memory unchanged. -/
def Obligations.CompletionStep : Prop :=
  ∀ (i : Instr) (s : State), s.eng.phase = .run → statusLegal s.eng.status = true →
    s.eng.idx = 2 * s.eng.count →
    exec i s = .next (s.withEng { s.eng with status := 0x00000002#32, launch := [], raced := false }).settled

/-- 42_vector_commands R170, 60_exceptions R214, 70_reset_and_hazards R240: a halted engine makes no transition of any
command, and an engine in IDLE or HALT takes no step of its own. -/
def Obligations.NoStepOutsideRun : Prop :=
  (∀ (i : Instr) (s : State), s.eng.phase = .halt → exec i s = .next s) ∧
  ∀ s : State, s.eng.live = true → s.eng.phase ≠ .run → s.inputs = [] → step s = .next s

/-! ### Frames -/

/-- 20_memory R69, 40_reference_kernel R118, 41_lane_processor R140, 42_vector_commands R174: whatever a transition of
CONV.REF, CONV.VU or CONV.VA in RUN does, it leaves CMD, DST, SRC, COUNT, every other engine, the parameters, the
platform and the host's side unchanged, STATUS too unless the engine leaves RUN, and every byte of memory outside the
bytes stored to: the byte at `DST + IDX` for a scalar step, the 16 bytes from `DST + IDX` up for a group step, none for
the completion step. -/
def Obligations.RunningCommandFrame : Prop :=
  ∀ (i : Instr) (s t : State), s.mem.wf → s.eng.phase = .run → exec i s = .next t →
    t.eng.live = s.eng.live ∧ t.eng.cmd = s.eng.cmd ∧ t.eng.dst = s.eng.dst ∧ t.eng.src = s.eng.src ∧
    t.eng.count = s.eng.count ∧ t.before = s.before ∧ t.after = s.after ∧ t.params = s.params ∧
    t.platform = s.platform ∧ t.inputs = s.inputs ∧ t.answers = s.answers ∧
    (t.eng.phase = .run → t.eng.status = s.eng.status) ∧
    (s.eng.idx = 2 * s.eng.count → ∀ a, t.mem.read a = s.mem.read a) ∧
    (s.eng.idx ≠ 2 * s.eng.count → (i = .convRef ∨ 2 * s.eng.count < s.eng.idx + 16) →
      ∀ a, a ≠ s.eng.outAddr s.eng.idx → t.mem.read a = s.mem.read a) ∧
    (i ≠ .convRef → s.eng.idx + 16 ≤ 2 * s.eng.count →
      ∀ a, ¬(s.eng.outAddr s.eng.idx ≤ a ∧ a < s.eng.outAddr s.eng.idx + 16) → t.mem.read a = s.mem.read a)

/-- 43_command_port R193, 60_exceptions R214: a write of a command in IDLE, accepted or faulted, makes no memory request:
memory, DST, SRC, COUNT, the other engines and everything else are unchanged, and CMD changes only on acceptance. The
other engines may be marked as being in a race, the model's own record (log entry 13). -/
def Obligations.CommandWriteFrame : Prop :=
  ∀ (i : Instr) (s t : State), s.eng.phase = .idle → exec i s = .next t →
    commandRequests i s = [] ∧ t.mem = s.mem ∧ t.params = s.params ∧ t.platform = s.platform ∧ t.inputs = s.inputs ∧
    t.answers = s.answers ∧ t.draws = s.draws ∧
    t.before.map Engine.unmarked = s.before.map Engine.unmarked ∧
    t.after.map Engine.unmarked = s.after.map Engine.unmarked ∧
    t.eng.live = s.eng.live ∧ t.eng.dst = s.eng.dst ∧ t.eng.src = s.eng.src ∧ t.eng.count = s.eng.count ∧
    t.eng.idx = 0 ∧ (t.eng.phase = .run → t.eng.cmd = encode i) ∧ (t.eng.phase = .halt → t.eng.cmd = s.eng.cmd) ∧
    t.eng.phase ≠ .idle

/-- 60_exceptions R232: whatever the selected engine, the host or the platform does, the other engines are unchanged;
selecting another engine changes no engine and nothing else of the machine. The acceptance of a command and another
agent's write may mark other running engines as being in a race, the model's own record (log entries 12, 13). -/
def Obligations.OtherEnginesUnchanged : Prop :=
  ∀ s t : State, step s = .next t →
    ((∀ k rest, s.inputs ≠ .select k :: rest) →
      t.before.map Engine.unmarked = s.before.map Engine.unmarked ∧
      t.after.map Engine.unmarked = s.after.map Engine.unmarked ∧
      ((∀ v rest, s.inputs ≠ .write 0 v :: rest) → (∀ a b rest, s.inputs ≠ .store a b :: rest) →
        t.before = s.before ∧ t.after = s.after)) ∧
    ∀ k rest, s.inputs = .select k :: rest →
      t.engines = s.engines ∧ t.mem = s.mem ∧ t.params = s.params ∧ t.platform = s.platform ∧
      t.answers = s.answers ∧ t.draws = s.draws ∧ t.inputs = rest ∧
      (k < s.engines.length → s.engines[k]? = some t.eng)

/-- 43_command_port R192, 20_memory R82: whatever happens to an engine in RUN but reset, CMD, DST, SRC and COUNT keep
their values from acceptance on. -/
def Obligations.OperandsFixedWhileRunning : Prop :=
  ∀ s t : State, step s = .next t → s.eng.phase = .run →
    (∀ rest, s.inputs ≠ .reset :: rest) → (∀ k rest, s.inputs ≠ .select k :: rest) →
    t.eng.cmd = s.eng.cmd ∧ t.eng.dst = s.eng.dst ∧ t.eng.src = s.eng.src ∧ t.eng.count = s.eng.count

/-- 60_exceptions R221, 10_state R28: nothing but reset changes a halted engine in any way. -/
def Obligations.HaltIsLeftByResetOnly : Prop :=
  ∀ s t : State, step s = .next t → s.eng.phase = .halt →
    (∀ rest, s.inputs ≠ .reset :: rest) → (∀ k rest, s.inputs ≠ .select k :: rest) → t.eng = s.eng

/-- 10_state R28: which engine state STATUS shows, and every way from one state to another: IDLE to RUN by an accepted
command, IDLE to HALT by a fault at acceptance, RUN to IDLE by the completion step, RUN to HALT by a fault during a step,
any state to IDLE by reset, and no other. -/
def Obligations.EngineStateTransitions : Prop :=
  ∀ s : State, s.Inv → s.eng.live = true →
    ((s.eng.phase = .idle ↔ statusBusy s.eng.status = false ∧ statusErr s.eng.status = false) ∧
      (s.eng.phase = .run ↔ statusBusy s.eng.status = true ∧ statusErr s.eng.status = false) ∧
      (s.eng.phase = .halt ↔ statusBusy s.eng.status = false ∧ statusErr s.eng.status = true)) ∧
    ∀ t : State, step s = .next t → (∀ k rest, s.inputs ≠ .select k :: rest) →
      (∀ rest, s.inputs = .reset :: rest → t.eng.phase = .idle) ∧
      ((∀ rest, s.inputs ≠ .reset :: rest) →
        (s.eng.phase = .idle → t.eng.phase ≠ .idle → ∃ v rest, s.inputs = .write 0 v :: rest ∧
          ((t.eng.phase = .run ∧ t.eng.idx = 0 ∧
              ∃ i, decode (BitVec.ofNat 32 v) = .command i ∧ t.eng.cmd = encode i) ∨
            (t.eng.phase = .halt ∧ statusCause t.eng.status ∈ [1, 2, 3]))) ∧
        (s.eng.phase = .run → t.eng.phase = .idle → s.eng.idx = 2 * s.eng.count ∧ t.eng.status = 0x2#32) ∧
        (s.eng.phase = .run → t.eng.phase = .halt →
          s.eng.idx < 2 * s.eng.count ∧ statusCause t.eng.status ∈ [4, 5, 6]) ∧
        (s.eng.phase = .halt → t.eng.phase = .halt))

/-- 10_state R27, 43_command_port R191: while a command runs IDX never falls and never passes T. -/
def Obligations.IdxRisesUpToT : Prop :=
  ∀ s t : State, s.Inv → s.eng.live = true → s.eng.phase = .run → step s = .next t →
    (∀ rest, s.inputs ≠ .reset :: rest) → (∀ k rest, s.inputs ≠ .select k :: rest) →
    s.eng.idx ≤ t.eng.idx ∧ t.eng.idx ≤ 2 * s.eng.count

/-- 20_memory R67, R68, R69: the requests of a step of a running engine have the shapes of R67 and lie inside its
buffers; the step changes no byte but those of its write request, and in a command that is in no race what it does depends,
for the same draws (log entries 8, 9), on no byte of memory but those of its requests. -/
def Obligations.StepsTouchOnlyRequestedBytes : Prop :=
  ∀ (i : Instr) (s : State), s.mem.wf → s.eng.phase = .run → s.eng.idx ≤ 2 * s.eng.count →
    (∀ r ∈ commandRequests i s,
      ((r = .read (s.eng.src + 4 * s.eng.idx) 4 ∨ r = .write (s.eng.dst + s.eng.idx) 1) ∨
        (i ≠ .convRef ∧ ((∃ j < 4, r = .read (s.eng.src + 4 * s.eng.idx + 16 * j) 16) ∨
          r = .write (s.eng.dst + s.eng.idx) 16))) ∧
      ∀ a, r.covers a = true →
        if r.isWrite then s.eng.dst ≤ a ∧ a < s.eng.dst + 2 * s.eng.count
        else s.eng.src ≤ a ∧ a < s.eng.src + 8 * s.eng.count) ∧
    (∃ t, exec i s = .next t ∧
      ∀ a, (∀ r ∈ commandRequests i s, r.isWrite = true → r.covers a = false) → t.mem.read a = s.mem.read a) ∧
    ∀ m : Memory, m.wf → s.eng.raced = false →
      (∀ r ∈ commandRequests i s, ∀ a, r.covers a = true → m.read a = s.mem.read a) →
      ∃ t t', exec i s = .next t ∧ exec i (s.withMem m) = .next t' ∧ t'.eng = t.eng ∧ t'.draws = t.draws ∧
        ∀ r ∈ commandRequests i s, ∀ a, r.covers a = true → t'.mem.read a = t.mem.read a

/-! ### Numbers -/

/-- 40_reference_kernel R110: what a 32-bit word denotes, as a rational number; `real k` stands for `k * 2^(-149)`. -/
def Obligations.WordDenotesBinary32 : Prop :=
  ∀ w : Word,
    let s := w.getLsbD 31
    let e := (w.extractLsb' 23 8).toNat
    let f := (w.extractLsb' 0 23).toNat
    let sign : ℚ := if s then -1 else 1
    (e = 0 → ∃ k : Int, f32 w = .real k ∧ (k : ℚ) * 2 ^ (-149 : ℤ) = sign * f * 2 ^ (-149 : ℤ)) ∧
    (1 ≤ e → e ≤ 254 → ∃ k : Int, f32 w = .real k ∧
      (k : ℚ) * 2 ^ (-149 : ℤ) = sign * (2 ^ 23 + f) * 2 ^ ((e : ℤ) - 150)) ∧
    (e = 255 → f = 0 → f32 w = if s then .negInf else .posInf) ∧
    (e = 255 → f ≠ 0 → f32 w = .nan)

/-- 40_reference_kernel R112: CLIP is `max(min(x, 127), -128)` on reals, 127 and -128 on the infinities; both bounds are
binary32 values, and so is CLIP of a binary32 value. -/
def Obligations.ClipFormula : Prop :=
  clip .posInf = some (127 * unit) ∧ clip .negInf = some (-128 * unit) ∧ clip .nan = none ∧
  (∀ k : Int, clip (.real k) = some (max (min k (127 * unit)) (-128 * unit))) ∧
  (∀ (w : Word) (c : Int), clip (f32 w) = some c → ∃ w', f32 w' = .real c) ∧
  f32 Config.clipMaxWord = .real (127 * unit) ∧ f32 Config.clipMinWord = .real (-128 * unit)

/-- 40_reference_kernel R113: RND gives the nearest integer, and the even one of the two when its operand is exactly half
way between two integers; a real in [-128, 127] gives an integer in [-128, 127]. -/
def Obligations.RoundsToNearestTiesToEven : Prop :=
  ∀ c : Int,
    (∀ n : Int, rnd c = n ↔
      (-unit < 2 * (c - n * unit) ∧ 2 * (c - n * unit) < unit) ∨
      ((2 * (c - n * unit) = unit ∨ 2 * (c - n * unit) = -unit) ∧ n % 2 = 0)) ∧
    (-128 * unit ≤ c → c ≤ 127 * unit → -128 ≤ rnd c ∧ rnd c ≤ 127)

/-- 40_reference_kernel R114, 20_memory R64: every output scalar lies in [-128, 127], and its byte is its
two's-complement encoding, so no narrowing loss is possible. -/
def Obligations.OutputScalarsInRange : Prop :=
  ∀ (pol : NanPolicy) (who : Drawer) (d : Nat) (w : Word) (v : Int), fp2i8 (nanResult pol who d) w = some v →
    -128 ≤ v ∧ v ≤ 127 ∧ ((byte v).toNat : Int) = v % 256 ∧ (byte v).toInt = v

/-- 40_reference_kernel R117, first two properties, and R120: saturation above 127 and below -128 (infinities included),
and rounding to nearest even in between. -/
def Obligations.SaturationAndRangeFidelity : Prop :=
  ∀ (nan : Option Int) (w : Word),
    (f32 w = .posInf → fp2i8 nan w = some 127) ∧ (f32 w = .negInf → fp2i8 nan w = some (-128)) ∧
    ∀ k, f32 w = .real k →
      (k > 127 * unit → fp2i8 nan w = some 127) ∧ (k < -128 * unit → fp2i8 nan w = some (-128)) ∧
      (-128 * unit ≤ k → k ≤ 127 * unit → fp2i8 nan w = some (rnd k))

/-- 40_reference_kernel R117, R121: exactly the values of magnitude up to one half give 0, exactly those above 126.5 give
127, exactly those up to -127.5 give -128. -/
def Obligations.WhichValuesGiveZeroAndTheBounds : Prop :=
  ∀ (nan : Option Int) (w : Word) (k : Int), f32 w = .real k →
    (fp2i8 nan w = some 0 ↔ -unit ≤ 2 * k ∧ 2 * k ≤ unit) ∧
    (fp2i8 nan w = some 127 ↔ 253 * unit < 2 * k) ∧
    (fp2i8 nan w = some (-128) ↔ 2 * k ≤ -255 * unit)

/-- 40_reference_kernel R117: `FP2I8` is monotone on numbers ordered as reals, and odd where nothing is clipped. -/
def Obligations.ConversionIsMonotone : Prop :=
  ∀ (nan : Option Int) (w w' : Word) (k k' v v' : Int), f32 w = .real k → f32 w' = .real k' →
    fp2i8 nan w = some v → fp2i8 nan w' = some v' →
    (k ≤ k' → v ≤ v') ∧ (k' = -k → -127 * unit ≤ k → k ≤ 127 * unit → v' = -v)

/-- 40_reference_kernel R116: the bit-level form, integer operations only, gives the same result for every word that is
not a NaN, and singles out the NaNs. -/
def Obligations.BitLevelFormAgrees : Prop :=
  ∀ (nan : Option Int) (w : Word),
    (isNaN w = false → fp2i8Bits w = fp2i8 nan w) ∧ (isNaN w = true → fp2i8Bits w = none)

/-- 40_reference_kernel R119: what a NaN scalar gives under each NAN_POLICY: under `draw` the drawn value, of which
nothing is known but its range; under `fixed(v)` the value v; under `fault` none. -/
def Obligations.NaNResultFollowsPolicy : Prop :=
  ∀ (w : Word) (who : Drawer) (d : Nat), isNaN w = true →
    fp2i8 (nanResult .draw who d) w = some (Config.nanDraw who d).toInt ∧
    (∀ v : Byte, fp2i8 (nanResult (.fixed v) who d) w = some v.toInt) ∧
    fp2i8 (nanResult .fault who d) w = none

/-- 41_lane_processor R147, R146: `sat8` clamps to [-128, 127], is the identity there, idempotent and monotone, and a
stage through a signed saturating width of 8 bits or more changes nothing. -/
def Obligations.NarrowingSaturates : Prop :=
  ∀ v : Int,
    (v > 127 → sat8 v = 127) ∧ (v < -128 → sat8 v = -128) ∧ (-128 ≤ v → v ≤ 127 → sat8 v = v) ∧
    sat8 (sat8 v) = sat8 v ∧ (∀ v', v ≤ v' → sat8 v ≤ sat8 v') ∧
    ∀ n : Nat, 7 ≤ n → sat8 (max (min v (2 ^ n - 1)) (-(2 ^ n))) = sat8 v

/-- 20_memory R63, R80: the word of four bytes under each byte order, that a 16-byte vector load sees the same four scalars
as four 4-byte loads, and which word an engine reads as its input scalar `k`: the one memory holds, or in a race one each
of whose bytes is an old or a new one (log entry 12). -/
def Obligations.ByteOrderOfInputScalars : Prop :=
  (∀ (m0 m1 m2 m3 : Byte),
    (word32 .little m0 m1 m2 m3).toNat = m0.toNat + 256 * m1.toNat + 65536 * m2.toNat + 16777216 * m3.toNat ∧
    (word32 .big m0 m1 m2 m3).toNat = 16777216 * m0.toNat + 65536 * m1.toNat + 256 * m2.toNat + m3.toNat) ∧
  (∀ (en : Endian) (m : Memory) (a : Nat),
    wordsOf en (m.readBytes a 16) = wordsOf en (m.readBytes a 4) ++ wordsOf en (m.readBytes (a + 4) 4) ++
      wordsOf en (m.readBytes (a + 8) 4) ++ wordsOf en (m.readBytes (a + 12) 4) ∧
    wordsOf en (m.readBytes a 4) = [word32 en (m.read a) (m.read (a + 1)) (m.read (a + 2)) (m.read (a + 3))]) ∧
  ∀ (s : State) (k : Nat),
    (s.eng.raced = false → s.inputWord k = scalarAt s.params.endian s.mem (s.eng.src + 4 * k)) ∧
    ∃ m0 m1 m2 m3, s.inputWord k = word32 s.params.endian m0 m1 m2 m3 ∧
      ∀ p ∈ [(0, m0), (1, m1), (2, m2), (3, m3)],
        p.2 ∈ s.candidates (.engine s.before.length) (s.before ++ s.after) (s.eng.src + 4 * k + p.1)

/-- 30_encoding R99, 43_command_port R194: a `conv` line is the three operand writes and then the write of its command
word, the three in the table's order and none left out, which is the model's choice (log entry 26: R99 allows any order and
leaving out a write whose register holds its value already); `convert` may stand for CONV.REF or CONV.VU always, and for CONV.VA exactly when both addresses are multiples of
16. -/
def Obligations.AssemblerLinesExpand : Prop :=
  ∀ (i : Instr) (dst src n : Nat),
    AsmLine.expansions (.conv i dst src n) =
      [[.write 2 dst, .write 3 src, .write 4 n, .write 0 (encode i).toNat]] ∧
    ([.write 2 dst, .write 3 src, .write 4 n, .write 0 (encode i).toNat] ∈
        AsmLine.expansions (.convert dst src n) ↔ (i = .convVa → dst % 16 = 0 ∧ src % 16 = 0))

/-! ### The lane processor and the equivalence of the commands -/

/-- 41_lane_processor R150 to R153: the lane processor is `FP2I8` lane by lane, in order, a NaN in one lane affecting that
lane only; it raises NaNInputFault exactly when some lane does. -/
def Obligations.LaneProcessorIsConversionPerLane : Prop :=
  ∀ (pol : NanPolicy) (who : Drawer) (d : Nat) (vin : List Word),
    (∀ vb, laneProcessor pol who d vin = some vb ↔
      vb.length = vin.length ∧
        ∀ k (w : Word), vin[k]? = some w → fp2i8 (nanResult pol who (d + k)) w = vb[k]?) ∧
    (laneProcessor pol who d vin = none ↔
      ∃ k w, vin[k]? = some w ∧ fp2i8 (nanResult pol who (d + k)) w = none)

/-- 41_lane_processor R150: on NaN-free input, in a running engine with sound buffers whose requests are answered and that
no other agent disturbs, a group step of CONV.VU or CONV.VA leaves exactly the state that sixteen scalar steps leave, the
model's draw counter included (log entry 8). -/
def Obligations.GroupStepEqualsSixteenScalarSteps : Prop :=
  ∀ (i : Instr) (s : State), i ≠ .convRef → s.mem.wf → s.eng.phase = .run →
    ¬s.eng.Overlap → s.eng.raced = false → s.granted → s.nanFree → s.eng.idx + 16 ≤ 2 * s.eng.count →
    ∃ t, exec i s = .next t ∧ transitions .convRef 16 s = .next t

/-- 42_vector_commands R176, 43_command_port R197, R122, R175, R177, R178: THE THREE COMMANDS AGREE. A state fixes one
final memory such that every command whose launch in that state is in contract runs, when the host writes its word and
then does nothing, to completion without fault in exactly the number of steps R178 gives (and one for the write, one for
the completion), with that memory, IDX = 2n, STATUS = 0x00000002 and CMD the command's word; output scalar k is
`FP2I8` of input scalar k, and every byte outside the output range is unchanged. `d` and `c` are
the model's own draw counter and record of races (log entries 8, 12). -/
def Obligations.CommandsConvertTheBufferAlike : Prop :=
  ∀ s : State, s.mem.wf → statusLegal s.eng.status = true →
    ∃ m : Memory,
      (s.nanFree → ∀ k < 2 * s.eng.count,
        ∃ v, fp2i8 none (scalarAt s.params.endian s.mem (s.eng.src + 4 * k)) = some v ∧
          m.read (s.eng.dst + k) = byte v) ∧
      (∀ a, ¬(s.eng.dst ≤ a ∧ a < s.eng.dst + 2 * s.eng.count) → m.read a = s.mem.read a) ∧
      ∀ i : Instr, s.InContract i →
        ∃ c d, Host.Core.run Sys2Proof.core (stepsBeforeCompletion i s.eng.count + 2)
            (s.withInputs [.write 0 (encode i).toNat]) = .next { s with
          inputs := []
          mem := m
          eng := { s.eng with
            cmd := encode i, status := 0x00000002#32, idx := 2 * s.eng.count, launch := [], raced := false }
          contested := c
          draws := d }

/-! ### Invariants -/

/-- Every step keeps the invariant `State.Inv` (10_state R23, R27, R34, 20_memory R75, R83, 42_vector_commands R171). -/
def Obligations.EveryStepKeepsTheInvariant : Prop :=
  ∀ s t : State, s.Inv → step s = .next t → t.Inv

/-- The invariant holds right after reset, for every well-formed choice of the parameters, and so for the defaults. -/
def Obligations.ResetMeetsTheInvariant : Prop :=
  (∀ p : Params, p.wellFormed = true → (State.resetWith p).Inv) ∧ State.reset.Inv

/-- 60_exceptions R215, R218, 20_memory R68, R69: for every engine that runs, at every moment, the input buffer is as it
was at acceptance, the output scalars before IDX are converted (those whose input is no NaN as `FP2I8` says), and those
from IDX on hold their values from before the command, unless its command is in a race. Every step keeps this. -/
def Obligations.RunningEnginesHaveConvertedUpToIdx : Prop :=
  ∀ s t : State, s.Inv → (∀ e ∈ s.engines, e.running = true → e.raced = false → s.Progress e) →
    step s = .next t →
    ∀ e ∈ t.engines, e.running = true → e.raced = false → t.Progress e

/-- 42_vector_commands R178, 70_reset_and_hazards R252: every accepted command ends. From any sound state with the engine
in RUN and a platform that answers every request, the engine left alone is out of RUN after at most `T - IDX + 1`
steps. -/
def Obligations.EveryCommandEnds : Prop :=
  ∀ s : State, s.Inv → s.eng.live = true → s.eng.phase = .run → s.inputs = [] →
    (∀ w ∈ s.platform, w.onRead ≠ .silent ∧ w.onWrite ≠ .silent) →
    ∃ n ≤ 2 * s.eng.count - s.eng.idx + 1, ∃ t, Host.Core.run Sys2Proof.core n s = .next t ∧ t.eng.phase ≠ .run

/-- The parameters of an implementation never change while it runs (00_scope R7, log entry 1), and every step only adds
to what the host has been told (43_command_port R191). -/
def Obligations.ParametersNeverChange : Prop :=
  ∀ s t : State, step s = .next t → t.params = s.params ∧ s.answers <+: t.answers
end

