-- ==== Sys2Proof/Laws/Assembler.lean ====
section
/-!
SUPPORT. That the list a `conv` line stands for in this model shows no more than another the assembler may choose
(30_encoding R99, log entry 26): operand writes may be exchanged, and one that would change no register may be left out.
-/

namespace Sys2Proof.Machine

/-- Each operand register after a write, field by field (43_command_port R192). -/
theorem writeOperand_idle {s : State} (hp : s.eng.phase = .idle) (r v : Nat) :
    writeOperand r v s = s.withEng { s.eng with
      dst := if r = 2 then v % s.params.space else s.eng.dst
      src := if r = 3 then v % s.params.space else s.eng.src
      count := if r = 4 then v % s.params.countRange else s.eng.count } := by
  unfold writeOperand
  rw [if_pos hp]
  match r with
  | 0 | 1 | 2 | 3 | 4 | _ + 5 => rfl

/-- Writes to two different registers may be exchanged (43_command_port R192). -/
theorem writeOperand_comm {r q : Nat} (h : r ≠ q) (v w : Nat) (s : State) :
    writeOperand r v (writeOperand q w s) = writeOperand q w (writeOperand r v s) := by
  by_cases hp : s.eng.phase = .idle
  · have hk : ∀ r v, (writeOperand r v s).eng.phase = .idle := fun r v => by rw [writeOperand_idle hp]; exact hp
    rw [writeOperand_idle (hk q w), writeOperand_idle (hk r v), writeOperand_idle hp, writeOperand_idle hp]
    simp only [State.withEng, State.mk.injEq, Engine.mk.injEq, true_and, and_true]
    refine ⟨?_, ?_, ?_⟩ <;> split <;> split <;> first | rfl | omega
  · simp [writeOperand, hp]

/-- A write that leaves its register with the value it had leaves everything as it was (43_command_port R192). -/
theorem writeOperand_held {r v : Nat} {s : State}
    (h : (writeOperand r v s).eng.readReg r = s.eng.readReg r) : writeOperand r v s = s := by
  revert h
  unfold writeOperand
  split
  · split <;> intro h <;> simp_all [State.withEng, Engine.readReg]
  · exact fun _ => rfl

end Sys2Proof.Machine
end

