-- ==== Sys2Proof/Laws/State.lean ====
section
/-!
SUPPORT. One lemma per field per update of the state, true by unfolding the update, so that no later proof unfolds one.
-/

namespace Sys2Proof.Machine

@[simp] theorem State.withEng_params (s : State) (e : Engine) : (s.withEng e).params = s.params := rfl
@[simp] theorem State.withEng_before (s : State) (e : Engine) : (s.withEng e).before = s.before := rfl
@[simp] theorem State.withEng_eng (s : State) (e : Engine) : (s.withEng e).eng = e := rfl
@[simp] theorem State.withEng_after (s : State) (e : Engine) : (s.withEng e).after = s.after := rfl
@[simp] theorem State.withEng_mem (s : State) (e : Engine) : (s.withEng e).mem = s.mem := rfl
@[simp] theorem State.withEng_contested (s : State) (e : Engine) : (s.withEng e).contested = s.contested := rfl
@[simp] theorem State.withEng_platform (s : State) (e : Engine) : (s.withEng e).platform = s.platform := rfl
@[simp] theorem State.withEng_inputs (s : State) (e : Engine) : (s.withEng e).inputs = s.inputs := rfl
@[simp] theorem State.withEng_answers (s : State) (e : Engine) : (s.withEng e).answers = s.answers := rfl
@[simp] theorem State.withEng_draws (s : State) (e : Engine) : (s.withEng e).draws = s.draws := rfl

@[simp] theorem State.withMem_params (s : State) (m : Memory) : (s.withMem m).params = s.params := rfl
@[simp] theorem State.withMem_before (s : State) (m : Memory) : (s.withMem m).before = s.before := rfl
@[simp] theorem State.withMem_eng (s : State) (m : Memory) : (s.withMem m).eng = s.eng := rfl
@[simp] theorem State.withMem_after (s : State) (m : Memory) : (s.withMem m).after = s.after := rfl
@[simp] theorem State.withMem_mem (s : State) (m : Memory) : (s.withMem m).mem = m := rfl
@[simp] theorem State.withMem_contested (s : State) (m : Memory) : (s.withMem m).contested = s.contested := rfl
@[simp] theorem State.withMem_platform (s : State) (m : Memory) : (s.withMem m).platform = s.platform := rfl
@[simp] theorem State.withMem_inputs (s : State) (m : Memory) : (s.withMem m).inputs = s.inputs := rfl
@[simp] theorem State.withMem_answers (s : State) (m : Memory) : (s.withMem m).answers = s.answers := rfl
@[simp] theorem State.withMem_draws (s : State) (m : Memory) : (s.withMem m).draws = s.draws := rfl

@[simp] theorem State.withInputs_params (s : State) (l : List HostAction) : (s.withInputs l).params = s.params := rfl
@[simp] theorem State.withInputs_before (s : State) (l : List HostAction) : (s.withInputs l).before = s.before := rfl
@[simp] theorem State.withInputs_eng (s : State) (l : List HostAction) : (s.withInputs l).eng = s.eng := rfl
@[simp] theorem State.withInputs_after (s : State) (l : List HostAction) : (s.withInputs l).after = s.after := rfl
@[simp] theorem State.withInputs_mem (s : State) (l : List HostAction) : (s.withInputs l).mem = s.mem := rfl
@[simp] theorem State.withInputs_contested (s : State) (l : List HostAction) :
    (s.withInputs l).contested = s.contested := rfl
@[simp] theorem State.withInputs_platform (s : State) (l : List HostAction) :
    (s.withInputs l).platform = s.platform := rfl
@[simp] theorem State.withInputs_inputs (s : State) (l : List HostAction) : (s.withInputs l).inputs = l := rfl
@[simp] theorem State.withInputs_answers (s : State) (l : List HostAction) : (s.withInputs l).answers = s.answers := rfl
@[simp] theorem State.withInputs_draws (s : State) (l : List HostAction) : (s.withInputs l).draws = s.draws := rfl

@[simp] theorem State.told_params (s : State) (x : Seen) : (s.told x).params = s.params := rfl
@[simp] theorem State.told_before (s : State) (x : Seen) : (s.told x).before = s.before := rfl
@[simp] theorem State.told_eng (s : State) (x : Seen) : (s.told x).eng = s.eng := rfl
@[simp] theorem State.told_after (s : State) (x : Seen) : (s.told x).after = s.after := rfl
@[simp] theorem State.told_mem (s : State) (x : Seen) : (s.told x).mem = s.mem := rfl
@[simp] theorem State.told_contested (s : State) (x : Seen) : (s.told x).contested = s.contested := rfl
@[simp] theorem State.told_platform (s : State) (x : Seen) : (s.told x).platform = s.platform := rfl
@[simp] theorem State.told_inputs (s : State) (x : Seen) : (s.told x).inputs = s.inputs := rfl
@[simp] theorem State.told_answers (s : State) (x : Seen) : (s.told x).answers = s.answers ++ [x] := rfl
@[simp] theorem State.told_draws (s : State) (x : Seen) : (s.told x).draws = s.draws := rfl

@[simp] theorem State.drawn_params (s : State) (n : Nat) : (s.drawn n).params = s.params := rfl
@[simp] theorem State.drawn_before (s : State) (n : Nat) : (s.drawn n).before = s.before := rfl
@[simp] theorem State.drawn_eng (s : State) (n : Nat) : (s.drawn n).eng = s.eng := rfl
@[simp] theorem State.drawn_after (s : State) (n : Nat) : (s.drawn n).after = s.after := rfl
@[simp] theorem State.drawn_mem (s : State) (n : Nat) : (s.drawn n).mem = s.mem := rfl
@[simp] theorem State.drawn_contested (s : State) (n : Nat) : (s.drawn n).contested = s.contested := rfl
@[simp] theorem State.drawn_platform (s : State) (n : Nat) : (s.drawn n).platform = s.platform := rfl
@[simp] theorem State.drawn_inputs (s : State) (n : Nat) : (s.drawn n).inputs = s.inputs := rfl
@[simp] theorem State.drawn_answers (s : State) (n : Nat) : (s.drawn n).answers = s.answers := rfl
@[simp] theorem State.drawn_draws (s : State) (n : Nat) : (s.drawn n).draws = s.draws + n := rfl

@[simp] theorem State.withPlatform_params (s : State) (ws : List Window) : (s.withPlatform ws).params = s.params := rfl
@[simp] theorem State.withPlatform_before (s : State) (ws : List Window) : (s.withPlatform ws).before = s.before := rfl
@[simp] theorem State.withPlatform_eng (s : State) (ws : List Window) : (s.withPlatform ws).eng = s.eng := rfl
@[simp] theorem State.withPlatform_after (s : State) (ws : List Window) : (s.withPlatform ws).after = s.after := rfl
@[simp] theorem State.withPlatform_mem (s : State) (ws : List Window) : (s.withPlatform ws).mem = s.mem := rfl
@[simp] theorem State.withPlatform_contested (s : State) (ws : List Window) :
    (s.withPlatform ws).contested = s.contested := rfl
@[simp] theorem State.withPlatform_platform (s : State) (ws : List Window) : (s.withPlatform ws).platform = ws := rfl
@[simp] theorem State.withPlatform_inputs (s : State) (ws : List Window) : (s.withPlatform ws).inputs = s.inputs := rfl
@[simp] theorem State.withPlatform_answers (s : State) (ws : List Window) :
    (s.withPlatform ws).answers = s.answers := rfl
@[simp] theorem State.withPlatform_draws (s : State) (ws : List Window) : (s.withPlatform ws).draws = s.draws := rfl

@[simp] theorem State.withIdx_params (s : State) (i : Nat) : (s.withIdx i).params = s.params := rfl
@[simp] theorem State.withIdx_before (s : State) (i : Nat) : (s.withIdx i).before = s.before := rfl
@[simp] theorem State.withIdx_eng (s : State) (i : Nat) : (s.withIdx i).eng = { s.eng with idx := i } := rfl
@[simp] theorem State.withIdx_after (s : State) (i : Nat) : (s.withIdx i).after = s.after := rfl
@[simp] theorem State.withIdx_mem (s : State) (i : Nat) : (s.withIdx i).mem = s.mem := rfl
@[simp] theorem State.withIdx_contested (s : State) (i : Nat) : (s.withIdx i).contested = s.contested := rfl
@[simp] theorem State.withIdx_platform (s : State) (i : Nat) : (s.withIdx i).platform = s.platform := rfl
@[simp] theorem State.withIdx_inputs (s : State) (i : Nat) : (s.withIdx i).inputs = s.inputs := rfl
@[simp] theorem State.withIdx_answers (s : State) (i : Nat) : (s.withIdx i).answers = s.answers := rfl
@[simp] theorem State.withIdx_draws (s : State) (i : Nat) : (s.withIdx i).draws = s.draws := rfl

@[simp] theorem State.withStore_params (s : State) (m : Memory) (c : List (Nat × Byte)) (d : Nat) :
    (s.withStore m c d).params = s.params := rfl
@[simp] theorem State.withStore_before (s : State) (m : Memory) (c : List (Nat × Byte)) (d : Nat) :
    (s.withStore m c d).before = s.before := rfl
@[simp] theorem State.withStore_eng (s : State) (m : Memory) (c : List (Nat × Byte)) (d : Nat) :
    (s.withStore m c d).eng = s.eng := rfl
@[simp] theorem State.withStore_after (s : State) (m : Memory) (c : List (Nat × Byte)) (d : Nat) :
    (s.withStore m c d).after = s.after := rfl
@[simp] theorem State.withStore_mem (s : State) (m : Memory) (c : List (Nat × Byte)) (d : Nat) :
    (s.withStore m c d).mem = m := rfl
@[simp] theorem State.withStore_contested (s : State) (m : Memory) (c : List (Nat × Byte)) (d : Nat) :
    (s.withStore m c d).contested = c := rfl
@[simp] theorem State.withStore_platform (s : State) (m : Memory) (c : List (Nat × Byte)) (d : Nat) :
    (s.withStore m c d).platform = s.platform := rfl
@[simp] theorem State.withStore_inputs (s : State) (m : Memory) (c : List (Nat × Byte)) (d : Nat) :
    (s.withStore m c d).inputs = s.inputs := rfl
@[simp] theorem State.withStore_answers (s : State) (m : Memory) (c : List (Nat × Byte)) (d : Nat) :
    (s.withStore m c d).answers = s.answers := rfl
@[simp] theorem State.withStore_draws (s : State) (m : Memory) (c : List (Nat × Byte)) (d : Nat) :
    (s.withStore m c d).draws = d := rfl

@[simp] theorem State.withContested_params (s : State) (c : List (Nat × Byte)) :
    (s.withContested c).params = s.params := rfl
@[simp] theorem State.withContested_before (s : State) (c : List (Nat × Byte)) :
    (s.withContested c).before = s.before := rfl
@[simp] theorem State.withContested_eng (s : State) (c : List (Nat × Byte)) : (s.withContested c).eng = s.eng := rfl
@[simp] theorem State.withContested_after (s : State) (c : List (Nat × Byte)) :
    (s.withContested c).after = s.after := rfl
@[simp] theorem State.withContested_mem (s : State) (c : List (Nat × Byte)) : (s.withContested c).mem = s.mem := rfl
@[simp] theorem State.withContested_contested (s : State) (c : List (Nat × Byte)) :
    (s.withContested c).contested = c := rfl
@[simp] theorem State.withContested_platform (s : State) (c : List (Nat × Byte)) :
    (s.withContested c).platform = s.platform := rfl
@[simp] theorem State.withContested_inputs (s : State) (c : List (Nat × Byte)) :
    (s.withContested c).inputs = s.inputs := rfl
@[simp] theorem State.withContested_answers (s : State) (c : List (Nat × Byte)) :
    (s.withContested c).answers = s.answers := rfl
@[simp] theorem State.withContested_draws (s : State) (c : List (Nat × Byte)) :
    (s.withContested c).draws = s.draws := rfl

@[simp] theorem State.settled_params (s : State) : (s.settled).params = s.params := rfl
@[simp] theorem State.settled_before (s : State) : (s.settled).before = s.before := rfl
@[simp] theorem State.settled_eng (s : State) : (s.settled).eng = s.eng := rfl
@[simp] theorem State.settled_after (s : State) : (s.settled).after = s.after := rfl
@[simp] theorem State.settled_mem (s : State) : (s.settled).mem = s.mem := rfl
@[simp] theorem State.settled_platform (s : State) : (s.settled).platform = s.platform := rfl
@[simp] theorem State.settled_inputs (s : State) : (s.settled).inputs = s.inputs := rfl
@[simp] theorem State.settled_answers (s : State) : (s.settled).answers = s.answers := rfl
@[simp] theorem State.settled_draws (s : State) : (s.settled).draws = s.draws := rfl

@[simp] theorem State.mark_params (s : State) (p : Engine → Bool) : (s.mark p).params = s.params := rfl
@[simp] theorem State.mark_before (s : State) (p : Engine → Bool) :
    (s.mark p).before = s.before.map (Engine.markIf p) := rfl
@[simp] theorem State.mark_eng (s : State) (p : Engine → Bool) : (s.mark p).eng = s.eng.markIf p := rfl
@[simp] theorem State.mark_after (s : State) (p : Engine → Bool) :
    (s.mark p).after = s.after.map (Engine.markIf p) := rfl
@[simp] theorem State.mark_mem (s : State) (p : Engine → Bool) : (s.mark p).mem = s.mem := rfl
@[simp] theorem State.mark_contested (s : State) (p : Engine → Bool) : (s.mark p).contested = s.contested := rfl
@[simp] theorem State.mark_platform (s : State) (p : Engine → Bool) : (s.mark p).platform = s.platform := rfl
@[simp] theorem State.mark_inputs (s : State) (p : Engine → Bool) : (s.mark p).inputs = s.inputs := rfl
@[simp] theorem State.mark_answers (s : State) (p : Engine → Bool) : (s.mark p).answers = s.answers := rfl
@[simp] theorem State.mark_draws (s : State) (p : Engine → Bool) : (s.mark p).draws = s.draws := rfl

@[simp] theorem takeFault_params (c : Cause) (s : State) : (takeFault c s).params = s.params := rfl
@[simp] theorem takeFault_before (c : Cause) (s : State) : (takeFault c s).before = s.before := rfl
@[simp] theorem takeFault_after (c : Cause) (s : State) : (takeFault c s).after = s.after := rfl
@[simp] theorem takeFault_mem (c : Cause) (s : State) : (takeFault c s).mem = s.mem := rfl
@[simp] theorem takeFault_platform (c : Cause) (s : State) : (takeFault c s).platform = s.platform := rfl
@[simp] theorem takeFault_inputs (c : Cause) (s : State) : (takeFault c s).inputs = s.inputs := rfl
@[simp] theorem takeFault_answers (c : Cause) (s : State) : (takeFault c s).answers = s.answers := rfl
@[simp] theorem takeFault_draws (c : Cause) (s : State) : (takeFault c s).draws = s.draws := rfl

@[simp] theorem complete_params (s : State) : (complete s).params = s.params := rfl
@[simp] theorem complete_before (s : State) : (complete s).before = s.before := rfl
@[simp] theorem complete_after (s : State) : (complete s).after = s.after := rfl
@[simp] theorem complete_mem (s : State) : (complete s).mem = s.mem := rfl
@[simp] theorem complete_platform (s : State) : (complete s).platform = s.platform := rfl
@[simp] theorem complete_inputs (s : State) : (complete s).inputs = s.inputs := rfl
@[simp] theorem complete_answers (s : State) : (complete s).answers = s.answers := rfl
@[simp] theorem complete_draws (s : State) : (complete s).draws = s.draws := rfl

/-- What fault entry does to the engine (60_exceptions R214). -/
@[simp] theorem takeFault_eng (c : Cause) (s : State) :
    (takeFault c s).eng =
      { s.eng with
        status := statusFault s.eng.status c
        idx := if c.atCommand then 0 else s.eng.idx
        launch := []
        raced := false } := rfl

/-- What the completion step does to the engine (42_vector_commands R174). -/
@[simp] theorem complete_eng (s : State) :
    (complete s).eng =
      { s.eng with status := statusComplete s.eng.status, launch := [], raced := false } := rfl

@[simp] theorem State.drawn_zero (s : State) : s.drawn 0 = s := rfl

@[simp] theorem State.drawn_drawn (s : State) (m n : Nat) : (s.drawn m).drawn n = s.drawn (m + n) := by
  simp [State.drawn, Nat.add_assoc]

@[simp] theorem State.withMem_withMem (s : State) (m m' : Memory) : (s.withMem m).withMem m' = s.withMem m' := rfl

@[simp] theorem State.withEng_withEng (s : State) (e e' : Engine) : (s.withEng e).withEng e' = s.withEng e' := rfl

end Sys2Proof.Machine
end

