-- ==== Sys2Proof/Laws/Flags.lean ====
section
/-!
SUPPORT. The laws of STATUS: what setting a field does to each field, and the engine state it leaves.
-/

namespace Sys2Proof.Machine

theorem getLsbD_setBit (w : Word) (i : Nat) (b : Bool) (hi : i < 32) (j : Nat) :
    (setBit w i b).getLsbD j = if j = i then b else w.getLsbD j := by
  have h1 : (1#32 <<< i).getLsbD j = decide (j = i) := by
    rw [BitVec.getLsbD_shiftLeft, BitVec.getLsbD_one]
    by_cases h : j = i
    · simp [h, hi]
    · by_cases hlt : j < i
      · simp [h, hlt]
      · have : j - i ≠ 0 := by omega
        simp [h, this]
  unfold setBit
  cases b
  · rw [if_neg (by decide), BitVec.getLsbD_and, BitVec.getLsbD_not, h1]
    by_cases h : j = i
    · simp [h]
    · by_cases hj : j < 32
      · simp [h, hj]
      · simp [h, BitVec.getLsbD_of_ge w j (by omega)]
  · rw [if_pos rfl, BitVec.getLsbD_or, h1]
    by_cases h : j = i <;> simp [h]

theorem getLsbD_setCause (w : Word) (c j : Nat) (hj : j < 4) : (setCause w c).getLsbD j = w.getLsbD j := by
  have h1 : ∀ j < 4, (0xF0#32).getLsbD j = false := by decide
  have h2 : (BitVec.ofNat 32 (c % 16 * 16)).getLsbD j = false := by
    rw [BitVec.getLsbD_ofNat, show (16 : Nat) = 2 ^ 4 by rfl, Nat.testBit_mul_two_pow]
    simp; omega
  have : j < 32 := by omega
  unfold setCause
  rw [BitVec.getLsbD_or, BitVec.getLsbD_and, BitVec.getLsbD_not, h1 j hj, h2]
  simp [this]

@[simp] theorem statusErr_setBusy (w : Word) (b : Bool) : statusErr (setBusy w b) = statusErr w := by
  simp only [statusErr, setBusy, getLsbD_setBit _ _ _ (by decide : 0 < 32)]; rfl
@[simp] theorem statusErr_setDone (w : Word) (b : Bool) : statusErr (setDone w b) = statusErr w := by
  simp only [statusErr, setDone, getLsbD_setBit _ _ _ (by decide : 1 < 32)]; rfl
@[simp] theorem statusErr_setErr (w : Word) (b : Bool) : statusErr (setErr w b) = b := by
  simp only [statusErr, setErr, getLsbD_setBit _ _ _ (by decide : 2 < 32)]; rfl
@[simp] theorem statusErr_setCause (w : Word) (c : Nat) : statusErr (setCause w c) = statusErr w :=
  getLsbD_setCause w c 2 (by decide)
@[simp] theorem statusBusy_setBusy (w : Word) (b : Bool) : statusBusy (setBusy w b) = b := by
  simp only [statusBusy, setBusy, getLsbD_setBit _ _ _ (by decide : 0 < 32)]; rfl
@[simp] theorem statusBusy_setDone (w : Word) (b : Bool) : statusBusy (setDone w b) = statusBusy w := by
  simp only [statusBusy, setDone, getLsbD_setBit _ _ _ (by decide : 1 < 32)]; rfl

theorem phaseOf_eq_run {w : Word} : phaseOf w = .run ↔ statusErr w = false ∧ statusBusy w = true := by
  unfold phaseOf
  cases statusErr w <;> cases statusBusy w <;> simp

theorem phaseOf_eq_idle {w : Word} : phaseOf w = .idle ↔ statusErr w = false ∧ statusBusy w = false := by
  unfold phaseOf
  cases statusErr w <;> cases statusBusy w <;> simp

theorem phaseOf_eq_halt {w : Word} : phaseOf w = .halt ↔ statusErr w = true := by
  unfold phaseOf
  cases statusErr w <;> cases statusBusy w <;> simp

/-- After fault entry the engine is in HALT (60_exceptions R214). -/
@[simp] theorem phase_takeFault (c : Cause) (s : State) : (takeFault c s).eng.phase = .halt :=
  phaseOf_eq_halt.mpr (by simp [statusFault])

/-- The completion step takes a running engine to IDLE (42_vector_commands R174). -/
theorem phase_complete {s : State} (h : s.eng.phase = .run) : (complete s).eng.phase = .idle :=
  phaseOf_eq_idle.mpr (by simp [statusComplete, (phaseOf_eq_run.mp h).1])

/-- Acceptance takes an idle engine to RUN (43_command_port R193). -/
theorem phaseOf_statusAccept {w : Word} (h : phaseOf w = .idle) : phaseOf (statusAccept w) = .run :=
  phaseOf_eq_run.mpr (by simp [statusAccept, (phaseOf_eq_idle.mp h).1])

end Sys2Proof.Machine
end

