-- ==== Sys2Proof/Laws/Numeric.lean ====
section
/-!
SUPPORT. The laws of the numeric function (40_reference_kernel): the clip is the formula of R111 and stays in range, RND
finds the nearest integer, VMAX after VMIN is CLIP, narrowing is the identity on what VCVT gives.
-/

namespace Sys2Proof.Machine

theorem expField_eq (w : Word) : expField w = (w.extractLsb' 23 8).toNat := by
  simp [expField, BitVec.extractLsb'_toNat, Nat.shiftRight_eq_div_pow]

theorem fracField_eq (w : Word) : fracField w = (w.extractLsb' 0 23).toNat := by
  simp [fracField, BitVec.extractLsb'_toNat]

theorem expField_lt (w : Word) : expField w < 256 := Nat.mod_lt _ (by decide)

theorem fracField_lt (w : Word) : fracField w < 2 ^ 23 := Nat.mod_lt _ (by decide)

/-- A signed magnitude as a rational number. -/
theorem signed_cast (b : Bool) (m : Nat) : ((signed b m : Int) : ℚ) = (if b then -1 else 1) * (m : ℚ) := by
  cases b <;> simp [signed]

theorem unit_pos : (0 : Int) < unit := by decide

theorem unit_eq : unit = 713623846352979940529142984724747568191373312 := by decide

theorem clipReal_eq (k : Int) : clipReal k = max (min k (127 * unit)) (-128 * unit) := by
  have := unit_pos
  unfold clipReal Config.clipMax Config.clipMin
  generalize unit = u at *
  split
  · rw [min_eq_right (by omega), max_eq_left (by omega)]
  · split
    · rw [min_eq_left (by omega), max_eq_right (by omega)]
    · rw [min_eq_left (by omega), max_eq_left (by omega)]

/-- CLIP gives a real in [-128, 127] (40_reference_kernel R112). -/
theorem clip_range {x : F32} {c : Int} (h : clip x = some c) : -128 * unit ≤ c ∧ c ≤ 127 * unit := by
  have := unit_pos
  cases x with
  | nan => simp [clip] at h
  | negInf => simp [clip, Config.clipMin] at h; omega
  | posInf => simp [clip, Config.clipMax] at h; omega
  | real k =>
    simp only [clip, Option.some.injEq] at h
    rw [clipReal_eq] at h
    omega

theorem clip_eq_none {x : F32} : clip x = none ↔ x = .nan := by
  cases x <;> simp [clip]

/-- RND is the nearest integer (40_reference_kernel R113): the distance is at most one half, and at one half the result
is even. -/
theorem rnd_nearest (c : Int) :
    2 * (c - rnd c * unit) ≤ unit ∧ -unit ≤ 2 * (c - rnd c * unit) ∧
      ((2 * (c - rnd c * unit) = unit ∨ 2 * (c - rnd c * unit) = -unit) → rnd c % 2 = 0) := by
  have hu := unit_pos
  have hd := Int.emod_nonneg c (ne_of_gt hu)
  have hl := Int.emod_lt_of_pos c hu
  have he : c = unit * (c / unit) + c % unit := (Int.mul_ediv_add_emod c unit).symm
  simp only [rnd]
  generalize c / unit = n at *
  generalize c % unit = d at *
  have e0 : c - n * unit = d := by rw [he]; ring
  have e1 : c - (n + 1) * unit = d - unit := by rw [he]; ring
  split
  · rw [e0]; omega
  · split
    · rw [e1]; omega
    · split
      · rw [e0]; omega
      · rw [e1]; omega

/-- At most one integer is nearest with ties to even. -/
theorem nearest_unique {c n m : Int}
    (hn : 2 * (c - n * unit) ≤ unit ∧ -unit ≤ 2 * (c - n * unit) ∧
      ((2 * (c - n * unit) = unit ∨ 2 * (c - n * unit) = -unit) → n % 2 = 0))
    (hm : 2 * (c - m * unit) ≤ unit ∧ -unit ≤ 2 * (c - m * unit) ∧
      ((2 * (c - m * unit) = unit ∨ 2 * (c - m * unit) = -unit) → m % 2 = 0)) : n = m := by
  have key : ∀ n d : Int, 0 ≤ d →
      (2 * (c - n * unit) ≤ unit ∧ -unit ≤ 2 * (c - n * unit) ∧
        ((2 * (c - n * unit) = unit ∨ 2 * (c - n * unit) = -unit) → n % 2 = 0)) →
      (2 * (c - (n + 1 + d) * unit) ≤ unit ∧ -unit ≤ 2 * (c - (n + 1 + d) * unit) ∧
        ((2 * (c - (n + 1 + d) * unit) = unit ∨ 2 * (c - (n + 1 + d) * unit) = -unit) → (n + 1 + d) % 2 = 0)) →
      False := by
    intro n d hd h1 h2
    have hu := unit_pos
    have e : c - (n + 1 + d) * unit = (c - n * unit) - unit - d * unit := by ring
    have hdu : 0 ≤ d * unit := mul_nonneg hd (le_of_lt hu)
    rw [e] at h2
    generalize c - n * unit = x at *
    have hz : d * unit = 0 := by omega
    have hd0 : d = 0 := by
      rcases mul_eq_zero.mp hz with h | h <;> omega
    have h3 := h1.2.2 (by omega)
    have h4 := h2.2.2 (by omega)
    omega
  rcases lt_trichotomy n m with hlt | rfl | hlt
  · exact (key n (m - n - 1) (by omega) hn (by rw [show n + 1 + (m - n - 1) = m by ring]; exact hm)).elim
  · rfl
  · exact (key m (n - m - 1) (by omega) hm (by rw [show m + 1 + (n - m - 1) = n by ring]; exact hn)).elim

/-- RND is the one integer that is nearest with ties to even (40_reference_kernel R113). -/
theorem rnd_iff {c n : Int} :
    rnd c = n ↔ 2 * (c - n * unit) ≤ unit ∧ -unit ≤ 2 * (c - n * unit) ∧
      ((2 * (c - n * unit) = unit ∨ 2 * (c - n * unit) = -unit) → n % 2 = 0) := by
  constructor
  · rintro rfl; exact rnd_nearest c
  · exact fun h => nearest_unique (rnd_nearest c) h

/-- RND stays between two integers that bound its operand. -/
theorem rnd_bounds {lo hi c : Int} (hlo : lo * unit ≤ c) (hhi : c ≤ hi * unit) : lo ≤ rnd c ∧ rnd c ≤ hi := by
  have hu := unit_pos
  obtain ⟨h1, h2, -⟩ := rnd_nearest c
  constructor
  · by_contra hlt
    have h3 : rnd c + 1 ≤ lo := by omega
    have h4 : (rnd c + 1) * unit ≤ lo * unit := Int.mul_le_mul_of_nonneg_right h3 (le_of_lt hu)
    rw [add_mul, one_mul] at h4
    omega
  · by_contra hlt
    have h3 : hi ≤ rnd c - 1 := by omega
    have h4 : hi * unit ≤ (rnd c - 1) * unit := Int.mul_le_mul_of_nonneg_right h3 (le_of_lt hu)
    rw [sub_mul, one_mul] at h4
    omega

/-- The result of RND after CLIP lies in [-128, 127] (40_reference_kernel R113, R114). -/
theorem rnd_clip_range {x : F32} {c : Int} (h : clip x = some c) : -128 ≤ rnd c ∧ rnd c ≤ 127 :=
  let ⟨h1, h2⟩ := clip_range h
  rnd_bounds h1 h2

theorem nanResult_range {pol : NanPolicy} {who : Drawer} {d : Nat} {v : Int} (h : nanResult pol who d = some v) :
    -128 ≤ v ∧ v ≤ 127 := by
  have key : ∀ b : Byte, -128 ≤ b.toInt ∧ b.toInt ≤ 127 := by decide
  cases pol with
  | draw => simp only [nanResult, Option.some.injEq] at h; exact h ▸ key _
  | fixed b => simp only [nanResult, Option.some.injEq] at h; exact h ▸ key _
  | fault => simp [nanResult] at h

/-- Every result is in [-128, 127] (40_reference_kernel R114). -/
theorem fp2i8_range {pol : NanPolicy} {who : Drawer} {d : Nat} {w : Word} {v : Int} (h : fp2i8 (nanResult pol who d) w = some v) :
    -128 ≤ v ∧ v ≤ 127 := by
  simp only [fp2i8] at h
  split at h
  · exact nanResult_range h
  · rename_i c hc
    simp only [Option.some.injEq] at h
    exact h ▸ rnd_clip_range hc

/-- On a word that is no NaN `FP2I8` does not look at NAN_POLICY. -/
theorem fp2i8_of_not_nan {w : Word} (h : isNaN w = false) (nan nan' : Option Int) : fp2i8 nan w = fp2i8 nan' w := by
  have hn : clip (f32 w) ≠ none := by
    rw [Ne, clip_eq_none]
    simpa [isNaN] using h
  unfold fp2i8
  split
  · rename_i e; exact absurd e hn
  · rfl

theorem fp2i8_isSome_of_not_nan {w : Word} (h : isNaN w = false) (nan : Option Int) :
    ∃ v, fp2i8 nan w = some v := by
  have hn : clip (f32 w) ≠ none := by
    rw [Ne, clip_eq_none]
    simpa [isNaN] using h
  unfold fp2i8
  split
  · rename_i e; exact absurd e hn
  · exact ⟨_, rfl⟩

/-- The rounded magnitude is the nearest integer, ties to even (40_reference_kernel R116). -/
theorem roundMagnitude_nearest (m sh : Nat) :
    let x : Int := (m : Int) - roundMagnitude m (sh + 1) * 2 ^ (sh + 1)
    x ≤ 2 ^ sh ∧ -2 ^ sh ≤ x ∧ ((x = 2 ^ sh ∨ x = -2 ^ sh) → (roundMagnitude m (sh + 1) : Int) % 2 = 0) := by
  have h2 : (2 : Nat) ^ (sh + 1) = 2 * 2 ^ sh := by rw [pow_succ]; ring
  have hpos : 0 < 2 ^ sh := Nat.pow_pos (by omega)
  have hm : 2 * 2 ^ sh * (m / (2 * 2 ^ sh)) + m % (2 * 2 ^ sh) = m := Nat.div_add_mod m _
  have hr : m % (2 * 2 ^ sh) < 2 * 2 ^ sh := Nat.mod_lt _ (by omega)
  have h2i : (2 : Int) ^ (sh + 1) = 2 * ((2 ^ sh : Nat) : Int) := by push_cast; rw [pow_succ]; ring
  have h3i : (2 : Int) ^ sh = ((2 ^ sh : Nat) : Int) := by push_cast; rfl
  have e0 : (m : Int) - ((m / (2 * 2 ^ sh) : Nat) : Int) * (2 * ((2 ^ sh : Nat) : Int)) =
      ((m % (2 * 2 ^ sh) : Nat) : Int) := by
    have := congrArg (Nat.cast : Nat → Int) hm
    push_cast at this ⊢
    linarith
  have e1 : (m : Int) - ((m / (2 * 2 ^ sh) + 1 : Nat) : Int) * (2 * ((2 ^ sh : Nat) : Int)) =
      ((m % (2 * 2 ^ sh) : Nat) : Int) - 2 * ((2 ^ sh : Nat) : Int) := by
    rw [← e0]
    push_cast
    ring
  intro x
  simp only [x, roundMagnitude, Nat.add_sub_cancel, h2, h2i, h3i]
  generalize 2 ^ sh = u at *
  generalize m / (2 * u) = q at *
  generalize m % (2 * u) = r at *
  split
  · rw [e1]; omega
  · rw [e0]; omega

/-- Rounding `m * 2^t` in units of `2^(t + sh)` is rounding the magnitude `m * 2^(-sh)` (40_reference_kernel R116). -/
theorem rnd_magnitude {m t sh : Nat} (hu : unit = 2 ^ t * 2 ^ (sh + 1)) :
    rnd ((m * 2 ^ t : Nat) : Int) = roundMagnitude m (sh + 1) ∧
      rnd (-((m * 2 ^ t : Nat) : Int)) = -(roundMagnitude m (sh + 1) : Int) := by
  have hn := roundMagnitude_nearest m sh
  have hp : (0 : Int) < 2 ^ t := by positivity
  simp only at hn
  generalize (roundMagnitude m (sh + 1) : Int) = q at *
  have e : 2 * (((m * 2 ^ t : Nat) : Int) - q * unit) = 2 ^ t * (2 * ((m : Int) - q * 2 ^ (sh + 1))) := by
    rw [hu]; push_cast; ring
  have e' : 2 * (-((m * 2 ^ t : Nat) : Int) - -q * unit) = 2 ^ t * (-(2 * ((m : Int) - q * 2 ^ (sh + 1)))) := by
    rw [hu]; push_cast; ring
  have hu' : unit = 2 ^ t * (2 * 2 ^ sh) := by rw [hu, pow_succ]; ring
  have hun : -unit = 2 ^ t * (-(2 * 2 ^ sh)) := by rw [hu']; ring
  rw [rnd_iff, rnd_iff, e, e', hun]
  rw [show (unit : Int) = 2 ^ t * (2 * 2 ^ sh) from hu']
  simp only [mul_le_mul_iff_right₀ hp, mul_right_inj' (ne_of_gt hp)]
  generalize (m : Int) - q * 2 ^ (sh + 1) = x at *
  generalize (2 : Int) ^ sh = y at *
  obtain ⟨h1, h2, h3⟩ := hn
  refine ⟨⟨by omega, by omega, fun h => h3 (by omega)⟩, by omega, by omega, fun h => ?_⟩
  have := h3 (by omega)
  omega

/-- VMAX after VMIN is CLIP (41_lane_processor R144). -/
theorem vmaxLane_vminLane (x : F32) : vmaxLane (vminLane x) = clip x := by
  have := unit_pos
  cases x with
  | nan => rfl
  | negInf => rfl
  | posInf => simp [vmaxLane, vminLane, clip, Config.clipMax, Config.clipMin]; omega
  | real k =>
    unfold vminLane vmaxLane clip clipReal Config.clipMax Config.clipMin
    generalize unit = u at *
    simp only [Option.some.injEq]
    split
    · rw [if_neg (by omega)]
    · rfl

/-- The lanes VCVT sees are the clipped scalars (41_lane_processor R144). -/
theorem vmax_vmin (vin : List Word) : vmax (vmin vin) = vin.map fun w => clip (f32 w) := by
  simp [vmax, vmin, Function.comp_def, vmaxLane_vminLane]

/-- `sat8` is the identity on [-128, 127] (41_lane_processor R147). -/
theorem sat8_of_range {v : Int} (h : -128 ≤ v ∧ v ≤ 127) : sat8 v = v := by
  simp only [sat8]; omega

/-- The lane processor, lane by lane (41_lane_processor R150, R152): it answers exactly when every lane does, and lane
`k` is `FP2I8` of its own word, the draw of lane `k` being number `d + k`. -/
theorem laneProcessor_cons (pol : NanPolicy) (who : Drawer) (d : Nat) (w : Word) (vin : List Word) :
    laneProcessor pol who d (w :: vin) =
      match fp2i8 (nanResult pol who d) w, laneProcessor pol who (d + 1) vin with
      | some v, some vs => some (v :: vs)
      | _, _ => none := by
  have key : laneProcessor pol who d (w :: vin) =
      (match fp2i8 (nanResult pol who d) w, vcvt pol who (d + 1) (vmax (vmin vin)) with
        | some v, some vs => some (v :: vs)
        | _, _ => none : Option (List Int)).map vnarrow := by
    simp only [laneProcessor, vmax, vmin, List.map_cons, vcvt, vmaxLane_vminLane, fp2i8] <;> rfl
  rw [key]
  rcases hf : fp2i8 (nanResult pol who d) w with _ | v
  · rfl
  · have hv := fp2i8_range hf
    rcases hr : vcvt pol who (d + 1) (vmax (vmin vin)) with _ | vs
    · simp [laneProcessor, hr]
    · simp [laneProcessor, hr, vnarrow, sat8_of_range hv]

@[simp] theorem laneProcessor_nil (pol : NanPolicy) (who : Drawer) (d : Nat) : laneProcessor pol who d [] = some [] := rfl

theorem laneProcessor_length {pol : NanPolicy} {who : Drawer} {d : Nat} {vin : List Word} {vb : List Int}
    (h : laneProcessor pol who d vin = some vb) : vb.length = vin.length := by
  induction vin generalizing d vb with
  | nil => simp at h; simp [← h]
  | cons w vin ih =>
    rw [laneProcessor_cons] at h
    split at h
    · rename_i v vs _ hvs
      simp only [Option.some.injEq] at h
      simp [← h, ih hvs]
    · simp at h

/-- Lane `k` of the lane processor (41_lane_processor R150, R152). -/
theorem laneProcessor_lane {pol : NanPolicy} {who : Drawer} {d : Nat} {vin : List Word} {vb : List Int}
    (h : laneProcessor pol who d vin = some vb) {k : Nat} (hk : k < vin.length) :
    fp2i8 (nanResult pol who (d + k)) vin[k] = some (vb[k]'(by rw [laneProcessor_length h]; exact hk)) := by
  induction vin generalizing d vb k with
  | nil => simp at hk
  | cons w vin ih =>
    rw [laneProcessor_cons] at h
    split at h
    · rename_i v vs hv hvs
      simp only [Option.some.injEq] at h
      subst h
      cases k with
      | zero => simpa using hv
      | succ k =>
        have := ih hvs (k := k) (by simpa using hk)
        simpa [Nat.add_assoc, Nat.add_comm 1] using this
    · simp at h

/-- The lane processor answers when every lane does. -/
theorem laneProcessor_isSome {pol : NanPolicy} {who : Drawer} {d : Nat} {vin : List Word}
    (h : ∀ k (hk : k < vin.length), ∃ v, fp2i8 (nanResult pol who (d + k)) vin[k] = some v) :
    ∃ vb, laneProcessor pol who d vin = some vb := by
  induction vin generalizing d with
  | nil => exact ⟨[], rfl⟩
  | cons w vin ih =>
    obtain ⟨v, hv⟩ := h 0 (by simp)
    obtain ⟨vs, hvs⟩ := ih (d := d + 1) fun k hk => by
      have := h (k + 1) (by simpa using hk)
      simpa [Nat.add_assoc, Nat.add_comm 1] using this
    refine ⟨v :: vs, ?_⟩
    rw [laneProcessor_cons]
    simp only [Nat.add_zero, List.getElem_cons_zero] at hv
    rw [hv, hvs]

end Sys2Proof.Machine
end

