-- ==== Sys2Proof/Laws/Memory.lean ====
section
/-!
SUPPORT. The laws of memory: a byte written is the byte read back, every other byte keeps its value, and every operation
keeps the canonical form, in which equal contents are equal data.
-/

namespace Sys2Proof.Machine

@[simp] theorem Memory.read_nil (a : Nat) : Memory.read [] a = Memory.unlisted := rfl

theorem Memory.read_of_lt {m : Memory} {a : Nat} (h : ∀ c ∈ m, a < c.1) : m.read a = Memory.unlisted := by
  induction m with
  | nil => rfl
  | cons c m ih =>
    have hc := h c (by simp)
    simp only [Memory.read]
    rw [if_neg (by omega)]
    exact ih fun d hd => h d (by simp [hd])

theorem Memory.wf_tail {c : Host.Cell} {m : Memory} (h : Memory.wf (c :: m)) : Memory.wf m :=
  ⟨(List.pairwise_cons.mp h.1).2, fun d hd => h.2 d (by simp [hd])⟩

theorem Memory.wf_head_lt {c : Host.Cell} {m : Memory} (h : Memory.wf (c :: m)) : ∀ d ∈ m, c.1 < d.1 :=
  (List.pairwise_cons.mp h.1).1

theorem Memory.wf_nil : Memory.wf [] := by simp [Memory.wf]

theorem Memory.wf_cons {c : Host.Cell} {m : Memory} (hm : Memory.wf m) (hlt : ∀ d ∈ m, c.1 < d.1)
    (hc : c.2 ≠ Memory.unlisted) : Memory.wf (c :: m) := by
  refine ⟨List.pairwise_cons.mpr ⟨hlt, hm.1⟩, ?_⟩
  intro d hd
  rcases List.mem_cons.mp hd with rfl | hd
  · exact hc
  · exact hm.2 d hd

/-- A cell of a written memory is the written one or an old one. -/
theorem Memory.mem_write {m : Memory} {a : Nat} {b : Byte} {c : Host.Cell} (h : c ∈ m.write a b) :
    c = (a, b) ∨ c ∈ m := by
  induction m with
  | nil =>
    simp only [Memory.write] at h
    split at h <;> simp_all
  | cons d m ih =>
    obtain ⟨k, v⟩ := d
    simp only [Memory.write] at h
    split at h
    · split at h <;> simp_all
    · split at h
      · split at h <;> (simp_all; try tauto)
      · rcases List.mem_cons.mp h with rfl | h
        · simp
        · rcases ih h with h | h <;> simp [h]

/-- A write keeps the canonical form. -/
theorem Memory.wf_write {m : Memory} (h : m.wf) (a : Nat) (b : Byte) : (m.write a b).wf := by
  induction m with
  | nil =>
    simp only [Memory.write]
    split
    · exact h
    · rename_i hb
      exact Memory.wf_cons Memory.wf_nil (by simp) hb
  | cons d m ih =>
    obtain ⟨k, v⟩ := d
    have ht := Memory.wf_tail h
    have hlt := Memory.wf_head_lt h
    simp only [Memory.write]
    split
    · rename_i hak
      split
      · exact h
      · rename_i hb
        refine Memory.wf_cons h ?_ hb
        intro e he
        rcases List.mem_cons.mp he with rfl | he
        · exact hak
        · exact lt_trans hak (hlt e he)
    · split
      · rename_i hak
        subst hak
        split
        · exact ht
        · rename_i hb
          exact Memory.wf_cons ht hlt hb
      · refine Memory.wf_cons (ih ht) ?_ (h.2 (k, v) (by simp))
        intro e he
        rcases Memory.mem_write he with rfl | he
        · show k < a
          omega
        · exact hlt e he

/-- The byte written is the byte read back. -/
theorem Memory.read_write_same {m : Memory} (h : m.wf) (a : Nat) (b : Byte) : (m.write a b).read a = b := by
  induction m with
  | nil =>
    simp only [Memory.write]
    split
    · rename_i hb; simp [hb]
    · simp [Memory.read]
  | cons d m ih =>
    obtain ⟨k, v⟩ := d
    have hlt := Memory.wf_head_lt h
    simp only [Memory.write]
    split
    · rename_i hak
      split
      · rename_i hb
        rw [hb]
        refine Memory.read_of_lt fun c hc => ?_
        rcases List.mem_cons.mp hc with rfl | hc
        · exact hak
        · exact lt_trans hak (hlt c hc)
      · simp [Memory.read]
    · split
      · rename_i hak
        subst hak
        split
        · rename_i hb
          rw [hb]
          exact Memory.read_of_lt hlt
        · simp [Memory.read]
      · rename_i hak
        simp only [Memory.read]
        rw [if_neg (Ne.symm hak)]
        exact ih (Memory.wf_tail h)

/-- A write leaves every other byte alone. -/
theorem Memory.read_write_other {m : Memory} (h : m.wf) {a a' : Nat} (b : Byte) (ha : a' ≠ a) :
    (m.write a b).read a' = m.read a' := by
  induction m with
  | nil =>
    simp only [Memory.write]
    split
    · rfl
    · simp [Memory.read, Ne.symm ha]
  | cons d m ih =>
    obtain ⟨k, v⟩ := d
    have hlt := Memory.wf_head_lt h
    simp only [Memory.write]
    split
    · split
      · rfl
      · simp [Memory.read, Ne.symm ha]
    · split
      · rename_i hak
        subst hak
        split <;> simp [Memory.read, Ne.symm ha]
      · simp only [Memory.read]
        split
        · rfl
        · exact ih (Memory.wf_tail h)

/-- The byte at `a'` after a write at `a`. -/
theorem Memory.read_write {m : Memory} (h : m.wf) (a a' : Nat) (b : Byte) :
    (m.write a b).read a' = if a' = a then b else m.read a' := by
  split
  · rename_i e; rw [e, Memory.read_write_same h]
  · rename_i e; exact Memory.read_write_other h b e

theorem Memory.below_write {m : Memory} {n a : Nat} (h : m.below n) (ha : a < n) (b : Byte) :
    (m.write a b).below n := by
  intro c hc
  rcases Memory.mem_write hc with rfl | hc
  · exact ha
  · exact h c hc

theorem Memory.wf_writeBytes {m : Memory} (h : m.wf) (a : Nat) (bs : List Byte) : (m.writeBytes a bs).wf := by
  induction bs generalizing m a with
  | nil => exact h
  | cons b bs ih => exact ih (Memory.wf_write h a b) (a + 1)

theorem Memory.below_writeBytes {m : Memory} {n a : Nat} (h : m.below n) (bs : List Byte)
    (ha : a + bs.length ≤ n) : (m.writeBytes a bs).below n := by
  induction bs generalizing m a with
  | nil => exact h
  | cons b bs ih =>
    simp only [List.length_cons] at ha
    exact ih (Memory.below_write h (by omega) b) (by omega)

/-- A store of several bytes leaves every byte outside them alone. -/
theorem Memory.read_writeBytes_outside {m : Memory} (h : m.wf) {a a' : Nat} (bs : List Byte)
    (ha : a' < a ∨ a + bs.length ≤ a') : (m.writeBytes a bs).read a' = m.read a' := by
  induction bs generalizing m a with
  | nil => rfl
  | cons b bs ih =>
    simp only [List.length_cons] at ha
    simp only [Memory.writeBytes]
    rw [ih (Memory.wf_write h a b) (by omega), Memory.read_write_other h b (by omega)]

/-- A store of several bytes puts byte `k` at the `k`-th address. -/
theorem Memory.read_writeBytes_inside {m : Memory} (h : m.wf) {a k : Nat} {bs : List Byte} (hk : k < bs.length) :
    (m.writeBytes a bs).read (a + k) = bs[k] := by
  induction bs generalizing m a k with
  | nil => simp at hk
  | cons b bs ih =>
    simp only [Memory.writeBytes]
    cases k with
    | zero =>
      rw [Memory.read_writeBytes_outside (Memory.wf_write h a b) bs (by omega)]
      exact Memory.read_write_same h a b
    | succ k =>
      have hk' : k < bs.length := by simpa using hk
      have := ih (Memory.wf_write h a b) (a := a + 1) hk'
      rw [show a + (k + 1) = a + 1 + k by omega, this]
      rfl

theorem Memory.wf_writeLanded {m : Memory} (h : m.wf) (n : Nat) (l : Nat → Bool) (a k : Nat) (bs : List Byte) :
    (m.writeLanded n l a k bs).wf := by
  induction bs generalizing m k with
  | nil => exact h
  | cons b bs ih =>
    simp only [Memory.writeLanded]
    apply ih
    split
    · exact Memory.wf_write h _ _
    · exact h

theorem Memory.below_writeLanded {m : Memory} {n : Nat} (h : m.below n) (l : Nat → Bool) (a k : Nat)
    (bs : List Byte) : (m.writeLanded n l a k bs).below n := by
  induction bs generalizing m k with
  | nil => exact h
  | cons b bs ih =>
    simp only [Memory.writeLanded]
    apply ih
    split
    · rename_i hc
      exact Memory.below_write h (by simp at hc; exact hc.2) _
    · exact h

theorem Memory.read_writeLanded_outside {m : Memory} (h : m.wf) {n : Nat} {l : Nat → Bool} {a k a' : Nat}
    (bs : List Byte) (ha : a' < a + k ∨ a + k + bs.length ≤ a') :
    (m.writeLanded n l a k bs).read a' = m.read a' := by
  induction bs generalizing m k with
  | nil => rfl
  | cons b bs ih =>
    simp only [List.length_cons] at ha
    simp only [Memory.writeLanded]
    split
    · rw [ih (Memory.wf_write h _ _) (by omega), Memory.read_write_other h b (by omega)]
    · exact ih h (by omega)

/-- After a store answered with an error each byte is the old one or the new one. -/
theorem Memory.read_writeLanded_inside {m : Memory} (h : m.wf) {n : Nat} {l : Nat → Bool} {a k j : Nat}
    {bs : List Byte} (hj : j < bs.length) :
    (m.writeLanded n l a k bs).read (a + k + j) = m.read (a + k + j) ∨
      (m.writeLanded n l a k bs).read (a + k + j) = bs[j] := by
  induction bs generalizing m k j with
  | nil => simp at hj
  | cons b bs ih =>
    simp only [Memory.writeLanded]
    cases j with
    | zero =>
      split
      · right
        rw [Memory.read_writeLanded_outside (Memory.wf_write h _ _) bs (by omega)]
        exact Memory.read_write_same h (a + k) b
      · left
        exact Memory.read_writeLanded_outside h bs (by omega)
    | succ j =>
      have hj' : j < bs.length := by simpa using hj
      rw [show a + k + (j + 1) = a + (k + 1) + j by omega]
      split
      · rcases ih (Memory.wf_write h (a + k) b) (k := k + 1) hj' with e | e
        · left
          rw [e, Memory.read_write_other h b (by omega)]
        · right; rw [e]; rfl
      · rcases ih h (k := k + 1) hj' with e | e
        · left; exact e
        · right; rw [e]; rfl

@[simp] theorem Memory.length_readBytes (m : Memory) (a n : Nat) : (m.readBytes a n).length = n := by
  induction n generalizing a with
  | zero => rfl
  | succ n ih => simp [Memory.readBytes, ih]

/-- Canonical memories that read alike are equal. -/
theorem Memory.eq_of_read_eq {m m' : Memory} (h : m.wf) (h' : m'.wf) (hr : ∀ a, m.read a = m'.read a) :
    m = m' := by
  induction m generalizing m' with
  | nil =>
    cases m' with
    | nil => rfl
    | cons c m' =>
      have := hr c.1
      simp only [Memory.read_nil] at this
      have hc := h'.2 c (by simp)
      obtain ⟨k, v⟩ := c
      simp [Memory.read] at this
      exact absurd this.symm hc
  | cons c m ih =>
    cases m' with
    | nil =>
      have := hr c.1
      obtain ⟨k, v⟩ := c
      simp [Memory.read] at this
      exact absurd this (h.2 (k, v) (by simp))
    | cons c' m' =>
      obtain ⟨k, v⟩ := c
      obtain ⟨k', v'⟩ := c'
      have hlt := Memory.wf_head_lt h
      have hlt' := Memory.wf_head_lt h'
      have hv := h.2 (k, v) (by simp)
      have hv' := h'.2 (k', v') (by simp)
      have hk : k = k' := by
        by_contra hne
        rcases Nat.lt_or_gt_of_ne hne with hl | hl
        · have e := hr k
          have : Memory.read ((k', v') :: m') k = Memory.unlisted := by
            refine Memory.read_of_lt fun d hd => ?_
            rcases List.mem_cons.mp hd with rfl | hd
            · exact hl
            · exact lt_trans hl (hlt' d hd)
          rw [this] at e
          simp [Memory.read] at e
          exact hv e
        · have e := hr k'
          have : Memory.read ((k, v) :: m) k' = Memory.unlisted := by
            refine Memory.read_of_lt fun d hd => ?_
            rcases List.mem_cons.mp hd with rfl | hd
            · exact hl
            · exact lt_trans hl (hlt d hd)
          rw [this] at e
          simp [Memory.read] at e
          exact hv' e.symm
      subst hk
      have hvv : v = v' := by simpa [Memory.read] using hr k
      subst hvv
      have : m = m' := by
        refine ih (Memory.wf_tail h) (Memory.wf_tail h') fun a => ?_
        by_cases ha : k = a
        · subst ha
          rw [Memory.read_of_lt hlt, Memory.read_of_lt hlt']
        · simpa [Memory.read, ha] using hr a
      rw [this]

end Sys2Proof.Machine
end

