-- ==== Sys2Proof/Laws/Race.lean ====
section
/-!
SUPPORT. What reads and writes in a race can do (20_memory R80, 93_implementation_defined U6), and that without a race
they are plain reads and writes of memory.
-/

namespace Sys2Proof.Machine

/-! ### Reads -/

theorem pick_mem {n : Nat} {l : List Byte} (h : l ≠ []) : pick n l ∈ l := by
  match l, h with
  | [b], _ => simp [pick]
  | b :: c :: l, _ =>
    simp only [pick]
    have hlt : n % (l.length + 2) < (b :: c :: l).length := Nat.mod_lt _ (by omega)
    rw [List.getD_eq_getElem _ _ hlt]
    exact List.getElem_mem hlt

/-- A read in a race returns one of the old and new values. -/
theorem State.raceRead_mem (s : State) (who : Reader) (es : List Engine) (a : Nat) :
    s.raceRead who es a ∈ s.candidates who es a :=
  pick_mem (by simp [State.candidates])

/-- Where no race is on a read returns what memory holds. -/
theorem State.raceRead_eq {s : State} {who : Reader} {es : List Engine} {a : Nat} (hc : s.contestedAt a = false)
    (he : ∀ e ∈ es, (e.running && e.inOutput a) = false) : s.raceRead who es a = s.mem.read a := by
  have h1 : s.contestedValues a = [] := by
    simp only [State.contestedAt, List.any_eq_false, decide_eq_true_eq] at hc
    simp only [State.contestedValues, List.map_eq_nil_iff, List.filter_eq_nil_iff, decide_eq_true_eq]
    exact hc
  have h2 : es.flatMap (s.oldAndNew who a) = [] := by
    simp only [List.flatMap_eq_nil_iff]
    intro e hm
    simp [State.oldAndNew, he e hm]
  simp [State.raceRead, State.candidates, h1, h2, pick]

theorem State.seen_of_unraced {s : State} (h : s.eng.raced = false) (a : Nat) : s.seen a = s.mem.read a := by
  simp [State.seen, h]

theorem State.seenBytes_of_unraced {s : State} (h : s.eng.raced = false) (a n : Nat) :
    s.seenBytes a n = s.mem.readBytes a n := by
  induction n generalizing a with
  | zero => rfl
  | succ n ih => simp only [State.seenBytes, Memory.readBytes, State.seen_of_unraced h, ih]

/-- A command that is in no race reads its input from memory. -/
theorem State.inputWord_of_unraced {s : State} (h : s.eng.raced = false) (k : Nat) :
    s.inputWord k = scalarAt s.params.endian s.mem (s.eng.inAddr k) := by
  simp only [State.inputWord, State.seen_of_unraced h]
  rfl

/-! ### Writes -/

@[simp] theorem State.withStore_withStore (s : State) (m m' : Memory) (c c' : List (Nat × Byte)) (d d' : Nat) :
    (s.withStore m c d).withStore m' c' d' = s.withStore m' c' d' := rfl

@[simp] theorem State.withStore_withEng (s : State) (m : Memory) (c : List (Nat × Byte)) (d : Nat) (e : Engine) :
    (s.withStore m c d).withEng e = (s.withEng e).withStore m c d := rfl

theorem State.withMem_eq (s : State) (m : Memory) : s.withMem m = s.withStore m s.contested s.draws := rfl

theorem State.drawn_eq (s : State) (n : Nat) : s.drawn n = s.withStore s.mem s.contested (s.draws + n) := rfl

@[simp] theorem State.withStore_others (s : State) (m : Memory) (c : List (Nat × Byte)) (d : Nat) :
    (s.withStore m c d).others = s.others := rfl

@[simp] theorem State.withStore_engines (s : State) (m : Memory) (c : List (Nat × Byte)) (d : Nat) :
    (s.withStore m c d).engines = s.engines := rfl

/-- `t` is `s` after the bytes `bs` were written from address `a` up, some of which may not have lasted. -/
structure StoreFrame (s t : State) (a : Nat) (bs : List Byte) : Prop where
  same : ∃ m c d, t = s.withStore m c d
  wf : t.mem.wf
  below : a + bs.length ≤ s.params.space → s.mem.below s.params.space → t.mem.below s.params.space
  outside : ∀ x, (x < a ∨ a + bs.length ≤ x) → t.mem.read x = s.mem.read x
  inside : ∀ j b, bs[j]? = some b → t.mem.read (a + j) = b ∨ t.mem.read (a + j) = s.mem.read (a + j)
  contested : ∀ c ∈ t.contested, c ∈ s.contested ∨ (a ≤ c.1 ∧ c.1 < a + bs.length)

theorem StoreFrame.params {s t : State} {a : Nat} {bs : List Byte} (h : StoreFrame s t a bs) : t.params = s.params := by
  obtain ⟨m, c, d, rfl⟩ := h.same; rfl
theorem StoreFrame.before {s t : State} {a : Nat} {bs : List Byte} (h : StoreFrame s t a bs) : t.before = s.before := by
  obtain ⟨m, c, d, rfl⟩ := h.same; rfl
theorem StoreFrame.eng {s t : State} {a : Nat} {bs : List Byte} (h : StoreFrame s t a bs) : t.eng = s.eng := by
  obtain ⟨m, c, d, rfl⟩ := h.same; rfl
theorem StoreFrame.after {s t : State} {a : Nat} {bs : List Byte} (h : StoreFrame s t a bs) : t.after = s.after := by
  obtain ⟨m, c, d, rfl⟩ := h.same; rfl
theorem StoreFrame.platform {s t : State} {a : Nat} {bs : List Byte} (h : StoreFrame s t a bs) :
    t.platform = s.platform := by
  obtain ⟨m, c, d, rfl⟩ := h.same; rfl
theorem StoreFrame.inputs {s t : State} {a : Nat} {bs : List Byte} (h : StoreFrame s t a bs) : t.inputs = s.inputs := by
  obtain ⟨m, c, d, rfl⟩ := h.same; rfl
theorem StoreFrame.answers {s t : State} {a : Nat} {bs : List Byte} (h : StoreFrame s t a bs) :
    t.answers = s.answers := by
  obtain ⟨m, c, d, rfl⟩ := h.same; rfl
theorem StoreFrame.engines {s t : State} {a : Nat} {bs : List Byte} (h : StoreFrame s t a bs) :
    t.engines = s.engines := by
  obtain ⟨m, c, d, rfl⟩ := h.same; rfl
theorem StoreFrame.others {s t : State} {a : Nat} {bs : List Byte} (h : StoreFrame s t a bs) :
    t.others = s.others := by
  obtain ⟨m, c, d, rfl⟩ := h.same; rfl

/-- A plain write of memory. -/
theorem storeFrame_write {s : State} (h : s.mem.wf) (a : Nat) (b : Byte) :
    StoreFrame s (s.withMem (s.mem.write a b)) a [b] where
  same := ⟨_, _, _, rfl⟩
  wf := Memory.wf_write h _ _
  below := fun hl hb => Memory.below_write hb (by simpa using hl) b
  outside := fun x hx => Memory.read_write_other h b (by simp at hx; omega)
  inside := by
    intro j c hj
    rw [List.getElem?_eq_some_iff] at hj
    obtain ⟨hlt, hj⟩ := hj
    obtain rfl : j = 0 := by simpa using hlt
    exact .inl (by rw [← hj]; exact Memory.read_write_same h a b)
  contested := fun c hc => .inl hc

/-- A write in a race. -/
theorem storeFrame_raceWrite {s : State} (h : s.mem.wf) (u : Bool) (a : Nat) (b : Byte) :
    StoreFrame s (s.raceWrite u a b) a [b] := by
  have w := storeFrame_write h a b
  have hc : ∀ c ∈ (s.raceWrite u a b).contested, c ∈ s.contested ∨ (a ≤ c.1 ∧ c.1 < a + [b].length) := by
    intro c hc
    simp only [State.raceWrite, State.withStore_contested, List.mem_cons] at hc
    rcases hc with rfl | rfl | hc
    · right; simp
    · right; simp
    · exact .inl hc
  by_cases hl : (u && Config.raceLost s.draws a) = true
  · have hm : (s.raceWrite u a b).mem = s.mem := by simp [State.raceWrite, hl]
    exact ⟨⟨_, _, _, rfl⟩, by rw [hm]; exact h, fun _ hb => by rw [hm]; exact hb, fun x _ => by rw [hm],
      fun j b _ => .inr (by rw [hm]), hc⟩
  · have hm : (s.raceWrite u a b).mem = s.mem.write a b := by simp [State.raceWrite, hl]
    exact ⟨⟨_, _, _, rfl⟩, by rw [hm]; exact w.wf, fun x hb => by rw [hm]; exact w.below x hb,
      fun x hx => by rw [hm]; exact w.outside x hx, fun j b hj => by rw [hm]; exact w.inside j b hj, hc⟩

/-- A byte stored by an engine in a race. -/
theorem storeFrame_racedStore {s : State} (h : s.mem.wf) (a : Nat) (b : Byte) :
    StoreFrame s (s.racedStore a b) a [b] := by
  unfold State.racedStore
  split
  · exact storeFrame_raceWrite h _ _ _
  · exact storeFrame_write h _ _

/-- The draws are no part of what a store is described by. -/
theorem StoreFrame.of_drawn {s t : State} {n a : Nat} {bs : List Byte} (h : StoreFrame (s.drawn n) t a bs) :
    StoreFrame s t a bs where
  same := by
    obtain ⟨m, c, d, rfl⟩ := h.same
    exact ⟨m, c, d, rfl⟩
  wf := h.wf
  below := h.below
  outside := h.outside
  inside := h.inside
  contested := h.contested

theorem racedStore_same (s : State) (a : Nat) (b : Byte) : ∃ m c d, s.racedStore a b = s.withStore m c d := by
  unfold State.racedStore
  split
  · exact ⟨_, _, _, rfl⟩
  · exact ⟨_, _, _, rfl⟩

theorem racedStores_same (s : State) (l : Nat → Bool) (a k : Nat) (bs : List Byte) :
    ∃ m c d, s.racedStores l a k bs = s.withStore m c d := by
  induction bs generalizing s k with
  | nil => exact ⟨_, _, _, rfl⟩
  | cons b bs ih =>
    simp only [State.racedStores]
    split
    · obtain ⟨m, c, d, e⟩ := racedStore_same s (a + k) b
      rw [e]
      exact ih _ _
    · exact ih _ _

/-- A store changes nothing but memory, the values of racing bytes and the draws. -/
theorem store_same (s : State) (a : Nat) (bs : List Byte) : ∃ m c d, s.store a bs = s.withStore m c d := by
  unfold State.store
  split
  · exact racedStores_same _ _ _ _ _
  · exact ⟨_, _, _, rfl⟩

theorem storePartly_same (s : State) (l : Nat → Bool) (a : Nat) (bs : List Byte) :
    ∃ m c d, s.storePartly l a bs = s.withStore m c d := by
  unfold State.storePartly
  split
  · exact racedStores_same _ _ _ _ _
  · exact ⟨_, _, _, rfl⟩

theorem StoreFrame.refl {s : State} (h : s.mem.wf) (a : Nat) (bs : List Byte) : StoreFrame s s a bs :=
  ⟨⟨_, _, _, rfl⟩, h, fun _ hb => hb, fun _ _ => rfl, fun _ _ _ => .inr rfl, fun _ hc => .inl hc⟩

/-- One byte, then the ones behind it. -/
theorem StoreFrame.cons {s t u : State} {a : Nat} {b : Byte} {bs : List Byte} (h : StoreFrame s t a [b])
    (h' : StoreFrame t u (a + 1) bs) : StoreFrame s u a (b :: bs) where
  same := by
    obtain ⟨m, c, d, rfl⟩ := h.same
    obtain ⟨m', c', d', rfl⟩ := h'.same
    exact ⟨m', c', d', rfl⟩
  wf := h'.wf
  below := fun hl hb => by
    simp only [List.length_cons] at hl
    have := h'.below (by rw [h.params]; omega) (by rw [h.params]; exact h.below (by simp; omega) hb)
    rwa [h.params] at this
  outside := fun x hx => by
    simp only [List.length_cons] at hx
    rw [h'.outside x (by omega), h.outside x (by simp; omega)]
  inside := by
    intro j c hj
    cases j with
    | zero =>
      simp only [List.getElem?_cons_zero, Option.some.injEq] at hj
      subst hj
      rw [h'.outside (a + 0) (by omega)]
      exact h.inside 0 b rfl
    | succ j =>
      simp only [List.getElem?_cons_succ] at hj
      have := h'.inside j c hj
      rw [show a + 1 + j = a + (j + 1) by omega, h.outside (a + (j + 1)) (by simp)] at this
      exact this
  contested := fun c hc => by
    simp only [List.length_cons]
    rcases h'.contested c hc with hc | hc
    · rcases h.contested c hc with hc | hc
      · exact .inl hc
      · simp at hc; exact .inr (by omega)
    · exact .inr (by omega)

/-- Some bytes, then the one behind them. -/
theorem StoreFrame.snoc {s t u : State} {a : Nat} {b : Byte} {bs : List Byte} (h : StoreFrame s t a bs)
    (h' : StoreFrame t u (a + bs.length) [b]) : StoreFrame s u a (bs ++ [b]) where
  same := by
    obtain ⟨m, c, d, rfl⟩ := h.same
    obtain ⟨m', c', d', rfl⟩ := h'.same
    exact ⟨m', c', d', rfl⟩
  wf := h'.wf
  below := fun hl hb => by
    simp only [List.length_append, List.length_singleton] at hl
    have := h'.below (by rw [h.params]; simp; omega) (by rw [h.params]; exact h.below (by omega) hb)
    rwa [h.params] at this
  outside := fun x hx => by
    simp only [List.length_append, List.length_singleton] at hx
    rw [h'.outside x (by simp; omega), h.outside x (by omega)]
  inside := by
    intro j c hj
    by_cases hlt : j < bs.length
    · rw [List.getElem?_append_left hlt] at hj
      rw [h'.outside (a + j) (by omega)]
      exact h.inside j c hj
    · rw [List.getElem?_append_right (by omega)] at hj
      obtain ⟨h0, -⟩ := List.getElem?_eq_some_iff.mp hj
      obtain rfl : j = bs.length := by simp at h0; omega
      rw [Nat.sub_self] at hj
      have := h'.inside 0 c hj
      rwa [Nat.add_zero, h.outside (a + bs.length) (by omega)] at this
  contested := fun c hc => by
    simp only [List.length_append, List.length_singleton]
    rcases h'.contested c hc with hc | hc
    · rcases h.contested c hc with hc | hc
      · exact .inl hc
      · exact .inr (by omega)
    · simp at hc; exact .inr (by omega)

theorem storeFrame_racedStores {s : State} (h : s.mem.wf) (l : Nat → Bool) (a k : Nat) (bs : List Byte) :
    StoreFrame s (s.racedStores l a k bs) (a + k) bs := by
  induction bs generalizing s k with
  | nil => exact .refl h _ _
  | cons b bs ih =>
    simp only [State.racedStores]
    split
    · exact (storeFrame_racedStore h (a + k) b).cons (ih (storeFrame_racedStore h (a + k) b).wf (k + 1))
    · exact (StoreFrame.refl h (a + k) [b]).cons (ih h (k + 1))

theorem below_racedStores {s : State} (h : s.mem.wf) (hb : s.mem.below s.params.space) (l : Nat → Bool) (a k : Nat)
    (bs : List Byte) : (s.racedStores l a k bs).mem.below s.params.space := by
  induction bs generalizing s k with
  | nil => exact hb
  | cons b bs ih =>
    simp only [State.racedStores]
    split
    · rename_i hl
      simp only [Bool.and_eq_true, decide_eq_true_eq] at hl
      have f := storeFrame_racedStore h (a + k) b
      have := ih f.wf (by rw [f.params]; exact f.below (by simp; omega) hb) (k + 1)
      rwa [f.params] at this
    · exact ih h hb (k + 1)

theorem storeFrame_writeBytes {s : State} (h : s.mem.wf) (a : Nat) (bs : List Byte) :
    StoreFrame s (s.withMem (s.mem.writeBytes a bs)) a bs where
  same := ⟨_, _, _, rfl⟩
  wf := Memory.wf_writeBytes h _ _
  below := fun hl hb => Memory.below_writeBytes hb bs (by omega)
  outside := fun x hx => Memory.read_writeBytes_outside h bs hx
  inside := by
    intro j b hj
    obtain ⟨hlt, hj⟩ := List.getElem?_eq_some_iff.mp hj
    exact .inl (by rw [← hj]; exact Memory.read_writeBytes_inside h hlt)
  contested := fun c hc => .inl hc

/-- A store of the selected engine, in a race or not. -/
theorem storeFrame_store {s : State} (h : s.mem.wf) (a : Nat) (bs : List Byte) : StoreFrame s (s.store a bs) a bs := by
  unfold State.store
  split
  · exact storeFrame_racedStores h _ a 0 bs
  · exact storeFrame_writeBytes h a bs

/-- A store of the selected engine that was answered with an error. -/
theorem storeFrame_storePartly {s : State} (h : s.mem.wf) (l : Nat → Bool) (a : Nat) (bs : List Byte) :
    StoreFrame s (s.storePartly l a bs) a bs := by
  unfold State.storePartly
  split
  · exact storeFrame_racedStores h l a 0 bs
  · refine ⟨⟨_, _, _, rfl⟩, Memory.wf_writeLanded h _ _ _ _ _, fun _ hb => Memory.below_writeLanded hb _ _ _ _,
      fun x hx => Memory.read_writeLanded_outside h bs (by omega), fun j b hj => ?_, fun c hc => .inl hc⟩
    obtain ⟨hlt, hj⟩ := List.getElem?_eq_some_iff.mp hj
    have := Memory.read_writeLanded_inside (n := s.params.space) (l := l) (a := a) (k := 0) h hlt
    rw [Nat.add_zero, hj] at this
    exact this.symm

theorem below_storePartly {s : State} (h : s.mem.wf) (hb : s.mem.below s.params.space) (l : Nat → Bool) (a : Nat)
    (bs : List Byte) : (s.storePartly l a bs).mem.below s.params.space := by
  unfold State.storePartly
  split
  · exact below_racedStores h hb l a 0 bs
  · exact Memory.below_writeLanded hb _ _ _ _

theorem State.store_of_unraced {s : State} (h : s.eng.raced = false) (a : Nat) (bs : List Byte) :
    s.store a bs = s.withMem (s.mem.writeBytes a bs) := by
  simp [State.store, h]

theorem State.storePartly_of_unraced {s : State} (h : s.eng.raced = false) (l : Nat → Bool) (a : Nat) (bs : List Byte) :
    s.storePartly l a bs = s.withMem (s.mem.writeLanded s.params.space l a 0 bs) := by
  simp [State.storePartly, h]

/-! ### The draws -/

theorem draws_racedStore (s : State) (a : Nat) (b : Byte) : s.draws ≤ (s.racedStore a b).draws := by
  unfold State.racedStore
  split <;> simp [State.raceWrite]

theorem draws_racedStores (s : State) (l : Nat → Bool) (a k : Nat) (bs : List Byte) :
    s.draws ≤ (s.racedStores l a k bs).draws := by
  induction bs generalizing s k with
  | nil => exact le_rfl
  | cons b bs ih =>
    simp only [State.racedStores]
    split
    · exact (draws_racedStore s _ _).trans (ih _ _)
    · exact ih _ _

/-- A store never counts the draws back. -/
theorem draws_store (s : State) (a : Nat) (bs : List Byte) : s.draws ≤ (s.store a bs).draws := by
  unfold State.store
  split
  · exact draws_racedStores _ _ _ _ _
  · exact le_rfl

theorem draws_storePartly (s : State) (l : Nat → Bool) (a : Nat) (bs : List Byte) :
    s.draws ≤ (s.storePartly l a bs).draws := by
  unfold State.storePartly
  split
  · exact draws_racedStores _ _ _ _ _
  · exact le_rfl

/-! ### Marks and the end of a race -/

@[simp] theorem Engine.markIf_running (p : Engine → Bool) (e : Engine) : (e.markIf p).running = e.running := by
  unfold Engine.markIf; split <;> rfl
@[simp] theorem Engine.markIf_live (p : Engine → Bool) (e : Engine) : (e.markIf p).live = e.live := by
  unfold Engine.markIf; split <;> rfl
@[simp] theorem Engine.markIf_cmd (p : Engine → Bool) (e : Engine) : (e.markIf p).cmd = e.cmd := by
  unfold Engine.markIf; split <;> rfl
@[simp] theorem Engine.markIf_status (p : Engine → Bool) (e : Engine) : (e.markIf p).status = e.status := by
  unfold Engine.markIf; split <;> rfl
@[simp] theorem Engine.markIf_dst (p : Engine → Bool) (e : Engine) : (e.markIf p).dst = e.dst := by
  unfold Engine.markIf; split <;> rfl
@[simp] theorem Engine.markIf_src (p : Engine → Bool) (e : Engine) : (e.markIf p).src = e.src := by
  unfold Engine.markIf; split <;> rfl
@[simp] theorem Engine.markIf_count (p : Engine → Bool) (e : Engine) : (e.markIf p).count = e.count := by
  unfold Engine.markIf; split <;> rfl
@[simp] theorem Engine.markIf_idx (p : Engine → Bool) (e : Engine) : (e.markIf p).idx = e.idx := by
  unfold Engine.markIf; split <;> rfl
@[simp] theorem Engine.markIf_launch (p : Engine → Bool) (e : Engine) : (e.markIf p).launch = e.launch := by
  unfold Engine.markIf; split <;> rfl
@[simp] theorem Engine.markIf_phase (p : Engine → Bool) (e : Engine) : (e.markIf p).phase = e.phase := by
  unfold Engine.markIf; split <;> rfl
@[simp] theorem Engine.markIf_holds (p : Engine → Bool) (e : Engine) (a : Nat) : (e.markIf p).holds a = e.holds a := by
  unfold Engine.markIf; split <;> rfl
@[simp] theorem Engine.markIf_compatible (p q : Engine → Bool) (e f : Engine) :
    (e.markIf p).compatible (f.markIf q) = e.compatible f := by
  unfold Engine.markIf; split <;> split <;> rfl

/-- A command is in a race after a mark when it was before or is picked. -/
theorem Engine.markIf_raced (p : Engine → Bool) (e : Engine) :
    (e.markIf p).raced = (e.raced || (e.running && p e)) := by
  unfold Engine.markIf
  split <;> simp_all

theorem Engine.markIf_of_not {p : Engine → Bool} {e : Engine} (h : (e.running && p e) = false) : e.markIf p = e := by
  simp [Engine.markIf, h]

theorem map_markIf_of_not {p : Engine → Bool} {es : List Engine} (h : ∀ e ∈ es, (e.running && p e) = false) :
    es.map (Engine.markIf p) = es := by
  conv_rhs => rw [← List.map_id es]
  exact List.map_congr_left fun e he => Engine.markIf_of_not (h e he)

/-- A mark that picks no running command changes nothing. -/
theorem State.mark_of_not {s : State} {p : Engine → Bool} (h : ∀ e ∈ s.engines, (e.running && p e) = false) :
    s.mark p = s := by
  simp only [State.engines, List.mem_append, List.mem_cons] at h
  simp only [State.mark]
  rw [map_markIf_of_not fun e he => h e (.inl he), map_markIf_of_not fun e he => h e (.inr (.inr he)),
    Engine.markIf_of_not (h s.eng (.inr (.inl rfl)))]

@[simp] theorem State.mark_engines (s : State) (p : Engine → Bool) :
    (s.mark p).engines = s.engines.map (Engine.markIf p) := by
  simp [State.engines]

@[simp] theorem State.settled_engines (s : State) : s.settled.engines = s.engines := rfl

theorem State.mem_settled {s : State} {c : Nat × Byte} :
    c ∈ s.settled.contested ↔ c ∈ s.contested ∧ ∃ e ∈ s.engines, e.running = true ∧ e.holds c.1 = true := by
  simp [State.settled, List.mem_filter, List.any_eq_true]

theorem State.settled_same (s : State) : ∃ c, s.settled = s.withContested c := ⟨_, rfl⟩

/-- Without a race nothing is left behind. -/
theorem State.settled_of_nil {s : State} (h : s.contested = []) : s.settled = s := by
  simp only [State.settled, State.withContested, h, List.filter_nil]
  rw [← h]

end Sys2Proof.Machine
end

