-- ==== Sys2Proof/Laws/Ops.lean ====
section
/-!
SUPPORT. What each shared operation can do, said once: memory requests, the stage operations, the scalar step, the group
step, acceptance and the sequencer.
-/

namespace Sys2Proof.Machine

/-! ### Operands -/

@[simp] theorem Engine.inInput_iff {e : Engine} {a : Nat} :
    e.inInput a = true ↔ e.src ≤ a ∧ a < e.src + 8 * e.count := by
  unfold Engine.inInput Engine.inEnd
  exact decide_eq_true_iff

@[simp] theorem Engine.inOutput_iff {e : Engine} {a : Nat} :
    e.inOutput a = true ↔ e.dst ≤ a ∧ a < e.dst + 2 * e.count := by
  unfold Engine.inOutput Engine.outEnd
  exact decide_eq_true_iff

@[simp] theorem Engine.rangesFit_iff {e : Engine} {p : Params} :
    e.rangesFit p = true ↔
      e.src + 8 * e.count ≤ 2 ^ p.addrBits ∧ e.dst + 2 * e.count ≤ 2 ^ p.addrBits := by
  unfold Engine.rangesFit Engine.inEnd Engine.outEnd Params.space
  rw [Bool.and_eq_true, decide_eq_true_iff, decide_eq_true_iff]

@[simp] theorem Engine.aligned_iff {e : Engine} : e.aligned = true ↔ e.src % 16 = 0 ∧ e.dst % 16 = 0 := by
  unfold Engine.aligned Config.alignBytes
  rw [Bool.and_eq_true, decide_eq_true_iff, decide_eq_true_iff]

theorem Engine.outAddr_eq (e : Engine) (k : Nat) : e.outAddr k = e.dst + k := by
  unfold Engine.outAddr Config.outScalarBytes
  omega

theorem Engine.inAddr_eq (e : Engine) (k : Nat) : e.inAddr k = e.src + 4 * k := rfl

@[simp] theorem Engine.holds_iff {e : Engine} {a : Nat} :
    e.holds a = true ↔ (e.src ≤ a ∧ a < e.src + 8 * e.count) ∨ (e.dst ≤ a ∧ a < e.dst + 2 * e.count) := by
  simp [Engine.holds]

/-- Two ranges are disjoint when they share no address. -/
theorem rangesDisjoint_iff {lo hi lo' hi' : Nat} :
    rangesDisjoint lo hi lo' hi' = true ↔ ∀ a, ¬(lo ≤ a ∧ a < hi ∧ lo' ≤ a ∧ a < hi') := by
  simp only [rangesDisjoint, Bool.or_eq_true, decide_eq_true_eq]
  constructor
  · intro h a; omega
  · intro h
    have := h (max lo lo')
    omega

/-- The two buffers are disjoint when they share no address (20_memory R79). -/
theorem Engine.buffersDisjoint_iff {e : Engine} :
    e.buffersDisjoint = true ↔
      ∀ a, ¬(e.src ≤ a ∧ a < e.src + 8 * e.count ∧ e.dst ≤ a ∧ a < e.dst + 2 * e.count) :=
  rangesDisjoint_iff

/-- Two engines' buffers are compatible when neither's output shares an address with a buffer of the other; a shared input
is allowed (20_memory R83). -/
theorem Engine.compatible_iff {e f : Engine} :
    e.compatible f = true ↔
      ∀ a, (e.dst ≤ a ∧ a < e.dst + 2 * e.count → ¬((f.src ≤ a ∧ a < f.src + 8 * f.count) ∨
          (f.dst ≤ a ∧ a < f.dst + 2 * f.count))) ∧
        (f.dst ≤ a ∧ a < f.dst + 2 * f.count → ¬(e.src ≤ a ∧ a < e.src + 8 * e.count)) := by
  simp only [Engine.compatible, Bool.and_eq_true, rangesDisjoint_iff, Engine.outEnd, Engine.inEnd]
  constructor
  · rintro ⟨⟨h1, h2⟩, h3⟩ a
    have := h1 a; have := h2 a; have := h3 a
    omega
  · intro h
    refine ⟨⟨fun a => ?_, fun a => ?_⟩, fun a => ?_⟩ <;> (have := h a; omega)

/-- A scalar depends on its four bytes only. -/
theorem scalarAt_congr {en : Endian} {m m' : Memory} {a : Nat} (h : ∀ b < 4, m.read (a + b) = m'.read (a + b)) :
    scalarAt en m a = scalarAt en m' a := by
  unfold scalarAt
  have h0 := h 0 (by omega)
  rw [Nat.add_zero] at h0
  rw [h0, h 1 (by omega), h 2 (by omega), h 3 (by omega)]

/-! ### Requests -/

theorem Answer.worse_eq_done {x y : Answer} : x.worse y = .done ↔ x = .done ∧ y = .done := by
  cases x <;> cases y <;> simp [Answer.worse]

/-- A request is answered with done when every address in it is. -/
theorem requestAnswer_eq_done {f : Nat → Answer} {a n : Nat} :
    requestAnswer f a n = .done ↔ ∀ j < n, f (a + j) = .done := by
  induction n generalizing a with
  | zero => simp [requestAnswer]
  | succ n ih =>
    simp only [requestAnswer, Answer.worse_eq_done, ih]
    constructor
    · rintro ⟨h0, h⟩ j hj
      cases j with
      | zero => exact h0
      | succ j =>
        have := h j (by omega)
        rwa [show a + (j + 1) = a + 1 + j by omega]
    · intro h
      refine ⟨h 0 (by omega), fun j hj => ?_⟩
      have := h (j + 1) (by omega)
      rwa [show a + 1 + j = a + (j + 1) by omega]

theorem writeAnswerAt_done_lt {n a : Nat} {ws : List Window} (h : writeAnswerAt n ws a = .done) : a < n := by
  unfold writeAnswerAt at h
  split at h
  · assumption
  · simp at h

theorem readAnswerAt_done_lt {n a : Nat} {ws : List Window} (h : readAnswerAt n ws a = .done) : a < n := by
  unfold readAnswerAt at h
  split at h
  · assumption
  · simp at h

/-- A write answered with done lies inside the address space (20_memory R75). -/
theorem State.writeAnswer_done_le {s : State} {a n : Nat} (h : s.writeAnswer a n = .done) (hn : 0 < n) :
    a + n ≤ s.params.space := by
  have := writeAnswerAt_done_lt (requestAnswer_eq_done.mp h (n - 1) (by omega))
  omega

/-! ### Loads -/

/-- The word at address `a` as the selected engine reads it. -/
def State.wordSeen (s : State) (a : Nat) : Word :=
  word32 s.params.endian (s.seen a) (s.seen (a + 1)) (s.seen (a + 2)) (s.seen (a + 3))

theorem State.inputWord_eq (s : State) (k : Nat) : s.inputWord k = s.wordSeen (s.eng.inAddr k) := rfl

theorem wordsOf_seenBytes_sixteen (s : State) (a : Nat) :
    wordsOf s.params.endian (s.seenBytes a 16) =
      [s.wordSeen a, s.wordSeen (a + 4), s.wordSeen (a + 8), s.wordSeen (a + 12)] := rfl

/-- SLD reads the word of input scalar `i`. -/
theorem sld_eq (s : State) (i : Nat) :
    sld s i =
      match s.readAnswer (s.eng.inAddr i) 4 with
      | .done => .got (s.inputWord i)
      | .error => .error
      | .silent => .silent := by
  unfold sld memRead Config.inScalarBytes
  rcases s.readAnswer (s.eng.inAddr i) 4 with _ | _ | _ <;> rfl

/-- The `n` words from address `a` up as the selected engine reads them. -/
def wordsAt (s : State) (a : Nat) : Nat → List Word
  | 0 => []
  | n + 1 => s.wordSeen a :: wordsAt s (a + 4) n

@[simp] theorem length_wordsAt (s : State) (a n : Nat) : (wordsAt s a n).length = n := by
  induction n generalizing a with
  | zero => rfl
  | succ n ih => simp [wordsAt, ih]

theorem getElem_wordsAt (s : State) (a n k : Nat) (h : k < (wordsAt s a n).length) :
    (wordsAt s a n)[k] = s.wordSeen (a + 4 * k) := by
  induction n generalizing a k with
  | zero => simp [wordsAt] at h
  | succ n ih =>
    cases k with
    | zero => rfl
    | succ k =>
      simp only [wordsAt, List.getElem_cons_succ]
      rw [ih (a + 4) k (by simpa [wordsAt] using h)]
      congr 1
      omega

theorem loadVectors_succ (s : State) (a n : Nat) :
    loadVectors s a (n + 1) =
      match s.readAnswer a 16 with
      | .error => .error
      | .silent => .silent
      | .done =>
        match loadVectors s (a + 16) n with
        | .error => .error
        | .silent => .silent
        | .got ws => .got (wordsAt s a 4 ++ ws) := by
  simp only [loadVectors, memRead, Config.vlenBytes]
  rcases s.readAnswer a 16 with _ | _ | _
  · simp only
    rcases loadVectors s (a + 16) n with ws | _ | _
    · simp only [wordsOf_seenBytes_sixteen]
      rfl
    · rfl
    · rfl
  · rfl
  · rfl

/-- A group load that answers has read every word, each request answered with done (41_lane_processor R141). -/
theorem loadVectors_got {s : State} {a n : Nat} {ws : List Word} (h : loadVectors s a n = .got ws) :
    ws = wordsAt s a (4 * n) ∧ ∀ j < n, s.readAnswer (a + 16 * j) 16 = .done := by
  induction n generalizing a ws with
  | zero =>
    simp only [loadVectors, Access.got.injEq] at h
    exact ⟨by rw [← h]; rfl, by omega⟩
  | succ n ih =>
    rw [loadVectors_succ] at h
    split at h
    · simp at h
    · simp at h
    · rename_i hd
      split at h
      · simp at h
      · simp at h
      · rename_i ws' hws
        obtain ⟨e, hj⟩ := ih hws
        simp only [Access.got.injEq] at h
        refine ⟨?_, ?_⟩
        · rw [← h, e, show 4 * (n + 1) = 4 * n + 1 + 1 + 1 + 1 by omega]
          rfl
        · intro j hlt
          cases j with
          | zero => exact hd
          | succ j =>
            have := hj j (by omega)
            rwa [show a + 16 * (j + 1) = a + 16 + 16 * j by omega]

theorem loadVectors_of_done {s : State} {a n : Nat} (h : ∀ j < n, s.readAnswer (a + 16 * j) 16 = .done) :
    loadVectors s a n = .got (wordsAt s a (4 * n)) := by
  induction n generalizing a with
  | zero => rfl
  | succ n ih =>
    rw [loadVectors_succ]
    have h0 := h 0 (by omega)
    rw [Nat.mul_zero, Nat.add_zero] at h0
    rw [h0, ih (a := a + 16) fun j hj => by
      have := h (j + 1) (by omega)
      rwa [show a + 16 + 16 * j = a + 16 * (j + 1) by omega]]
    show Access.got _ = _
    rw [show 4 * (n + 1) = 4 * n + 1 + 1 + 1 + 1 by omega]
    rfl

/-- A group load ends with the first request that is not answered with done (41_lane_processor R141). -/
theorem loadVectors_of_first {s : State} {a n j : Nat} (hj : j < n)
    (hbefore : ∀ k < j, s.readAnswer (a + 16 * k) 16 = .done) :
    (s.readAnswer (a + 16 * j) 16 = .error → loadVectors s a n = .error) ∧
      (s.readAnswer (a + 16 * j) 16 = .silent → loadVectors s a n = .silent) := by
  induction n generalizing a j with
  | zero => omega
  | succ n ih =>
    rw [loadVectors_succ]
    cases j with
    | zero =>
      rw [Nat.mul_zero, Nat.add_zero]
      constructor <;> (intro h; rw [h])
    | succ j =>
      have h0 := hbefore 0 (by omega)
      rw [Nat.mul_zero, Nat.add_zero] at h0
      obtain ⟨he, hs⟩ := ih (a := a + 16) (j := j) (by omega) fun k hk => by
        have := hbefore (k + 1) (by omega)
        rwa [show a + 16 + 16 * k = a + 16 * (k + 1) by omega]
      rw [h0, show a + 16 * (j + 1) = a + 16 + 16 * j by omega]
      constructor
      · intro h; simp only [he h]
      · intro h; simp only [hs h]

theorem ldg_eq (g : Group) (s : State) (i : Nat) : ldg g s i = loadVectors s (s.eng.inAddr i) 4 := by
  cases g <;> rfl

theorem stg_eq (g : Group) (s : State) (i : Nat) (vb : List Int) :
    stg g s i vb = memWriteVector s (s.eng.outAddr i) (vb.map byte) := by
  cases g <;> rfl

theorem srnd_sclip (c : Word) (s : State) (w : Word) :
    srnd c s (sclip w) = fp2i8 (nanResult s.params.nanPolicy (.scalarPath c) s.draws) w := by
  unfold srnd sclip fp2i8
  rcases clip (f32 w) with _ | c <;> rfl

/-! ### The scalar step -/

/-- The state after a scalar step at `i` that stored the integer `v`. -/
def State.stored (s : State) (i : Nat) (v : Int) : State :=
  (s.drawn 1).store (s.eng.outAddr i) [byte v]

/-- What a scalar step can do (40_reference_kernel R118). -/
theorem sstep_eq (c : Word) (s : State) (i : Nat) :
    sstep c s i =
      match s.readAnswer (s.eng.inAddr i) 4 with
      | .error => .raised .loadAccess s
      | .silent => .unanswered
      | .done =>
        match fp2i8 (nanResult s.params.nanPolicy (.scalarPath c) s.draws) (s.inputWord i) with
        | none => .raised .nanInput (s.drawn 1)
        | some v =>
          match s.writeAnswer (s.eng.outAddr i) 1 with
          | .done => .ok (s.stored i v)
          | .error => .raised .storeAccess (s.drawn 1)
          | .silent => .unanswered := by
  unfold sstep
  rw [sld_eq]
  rcases s.readAnswer (s.eng.inAddr i) 4 with _ | _ | _
  · simp only [srnd_sclip]
    rcases fp2i8 (nanResult s.params.nanPolicy (.scalarPath c) s.draws) (s.inputWord i) with _ | v
    · rfl
    · rfl
  · rfl
  · rfl

/-- How a scalar step ends, in the order the faults can arise (40_reference_kernel R118). -/
theorem sstep_cases (c : Word) (s : State) (i : Nat) :
    (∃ v, fp2i8 (nanResult s.params.nanPolicy (.scalarPath c) s.draws) (s.inputWord i) = some v ∧
        s.writeAnswer (s.eng.outAddr i) 1 = .done ∧ sstep c s i = .ok (s.stored i v)) ∨
      sstep c s i = .raised .loadAccess s ∨ sstep c s i = .raised .nanInput (s.drawn 1) ∨
      sstep c s i = .raised .storeAccess (s.drawn 1) ∨ sstep c s i = .unanswered := by
  rw [sstep_eq]
  rcases s.readAnswer (s.eng.inAddr i) 4 with _ | _ | _
  · rcases hv : fp2i8 (nanResult s.params.nanPolicy (.scalarPath c) s.draws) (s.inputWord i) with _ | v
    · simp
    · rcases hw : s.writeAnswer (s.eng.outAddr i) 1 with _ | _ | _
      · exact .inl ⟨v, rfl, rfl, rfl⟩
      · simp
      · simp
  · simp
  · simp

/-! ### The group step -/

/-- The state after a group step at `i` that stored the integers `vb`. -/
def State.storedGroup (s : State) (i : Nat) (vb : List Int) : State :=
  (s.drawn 16).store (s.eng.outAddr i) (vb.map byte)

/-- The state after a group step at `i` whose store of `vb` was answered with an error. -/
def State.storedPartly (s : State) (i : Nat) (vb : List Int) : State :=
  (s.drawn 16).storePartly (Config.storeLanded (s.draws + 16)) (s.eng.outAddr i) (vb.map byte)

/-- The words of the group at index `i`. -/
def State.groupWords (s : State) (i : Nat) : List Word :=
  wordsAt s (s.eng.inAddr i) 16

@[simp] theorem State.length_groupWords (s : State) (i : Nat) : (s.groupWords i).length = 16 := by
  simp [State.groupWords]

theorem State.getElem_groupWords (s : State) (i k : Nat) (h : k < (s.groupWords i).length) :
    (s.groupWords i)[k] = s.inputWord (i + k) := by
  simp only [State.groupWords, getElem_wordsAt, State.inputWord_eq, Engine.inAddr, Config.inScalarBytes]
  congr 1
  omega

/-- What a group step can do, whichever load and store it uses (41_lane_processor R140, R142, R149). -/
theorem gstep_eq (c : Word) (g : Group) (s : State) (i : Nat) :
    gstep c g s i =
      match loadVectors s (s.eng.inAddr i) 4 with
      | .error => .raised .loadAccess s
      | .silent => .unanswered
      | .got vin =>
        match laneProcessor s.params.nanPolicy (.laneProcessor c) s.draws vin with
        | none => .raised .nanInput (s.drawn 16)
        | some vb =>
          match s.writeAnswer (s.eng.outAddr i) vb.length with
          | .done => .ok (s.storedGroup i vb)
          | .error => .raised .storeAccess (s.storedPartly i vb)
          | .silent => .unanswered := by
  unfold gstep
  rw [ldg_eq]
  rcases loadVectors s (s.eng.inAddr i) 4 with vin | _ | _
  · simp only
    rcases laneProcessor s.params.nanPolicy (.laneProcessor c) s.draws vin with _ | vb
    · rfl
    · simp only [stg_eq, memWriteVector, List.length_map]
      rfl
  · rfl
  · rfl

/-- How a group step ends, in the order the faults can arise (41_lane_processor R140). -/
theorem gstep_cases (c : Word) (g : Group) (s : State) (i : Nat) :
    (∃ vb, laneProcessor s.params.nanPolicy (.laneProcessor c) s.draws (s.groupWords i) = some vb ∧ vb.length = 16 ∧
        s.writeAnswer (s.eng.outAddr i) 16 = .done ∧ gstep c g s i = .ok (s.storedGroup i vb)) ∨
      gstep c g s i = .raised .loadAccess s ∨ gstep c g s i = .raised .nanInput (s.drawn 16) ∨
      (∃ vb, laneProcessor s.params.nanPolicy (.laneProcessor c) s.draws (s.groupWords i) = some vb ∧ vb.length = 16 ∧
        gstep c g s i = .raised .storeAccess (s.storedPartly i vb)) ∨ gstep c g s i = .unanswered := by
  rw [gstep_eq]
  rcases hl : loadVectors s (s.eng.inAddr i) 4 with vin | _ | _
  · obtain ⟨rfl, -⟩ := loadVectors_got hl
    simp only
    rcases hv : laneProcessor s.params.nanPolicy (.laneProcessor c) s.draws (s.groupWords i) with _ | vb
    · have hv' := hv
      unfold State.groupWords at hv'
      simp only [hv']
      simp
    · have hlen := laneProcessor_length hv
      rw [State.length_groupWords] at hlen
      have hv' := hv
      unfold State.groupWords at hv'
      simp only [hv', hlen]
      rcases hw : s.writeAnswer (s.eng.outAddr i) 16 with _ | _ | _
      · exact .inl ⟨vb, rfl, hlen, rfl, rfl⟩
      · exact .inr (.inr (.inr (.inl ⟨vb, rfl, hlen, rfl⟩)))
      · simp
  · simp
  · simp

/-- A group step whose requests are all answered with done and whose lanes all have a value completes. -/
theorem gstep_of_done {c : Word} {g : Group} {s : State} {i : Nat} {vb : List Int}
    (hr : ∀ j < 4, s.readAnswer (s.eng.inAddr i + 16 * j) 16 = .done)
    (hv : laneProcessor s.params.nanPolicy (.laneProcessor c) s.draws (s.groupWords i) = some vb)
    (hw : s.writeAnswer (s.eng.outAddr i) 16 = .done) : gstep c g s i = .ok (s.storedGroup i vb) := by
  have hlen := laneProcessor_length hv
  rw [State.length_groupWords] at hlen
  unfold State.groupWords at hv
  rw [gstep_eq, loadVectors_of_done hr]
  simp only [hv, hlen, hw]

/-! ### What the stores of a step do -/

/-- The store of a scalar step changes nothing but memory, the values of racing bytes and the draws. -/
theorem State.stored_same (s : State) (i : Nat) (v : Int) : ∃ m c d, s.stored i v = s.withStore m c d :=
  store_same (s.drawn 1) _ _

theorem State.storedGroup_same (s : State) (i : Nat) (vb : List Int) : ∃ m c d, s.storedGroup i vb = s.withStore m c d :=
  store_same (s.drawn 16) _ _

theorem State.storedPartly_same (s : State) (i : Nat) (vb : List Int) :
    ∃ m c d, s.storedPartly i vb = s.withStore m c d :=
  storePartly_same (s.drawn 16) _ _ _

@[simp] theorem State.stored_eng (s : State) (i : Nat) (v : Int) : (s.stored i v).eng = s.eng := by
  obtain ⟨m, c, d, e⟩ := s.stored_same i v; rw [e]; rfl
@[simp] theorem State.storedGroup_eng (s : State) (i : Nat) (vb : List Int) : (s.storedGroup i vb).eng = s.eng := by
  obtain ⟨m, c, d, e⟩ := s.storedGroup_same i vb; rw [e]; rfl
@[simp] theorem State.storedPartly_eng (s : State) (i : Nat) (vb : List Int) : (s.storedPartly i vb).eng = s.eng := by
  obtain ⟨m, c, d, e⟩ := s.storedPartly_same i vb; rw [e]; rfl

/-- The store of a scalar step. -/
theorem State.storeFrame_stored {s : State} (h : s.mem.wf) (i : Nat) (v : Int) :
    StoreFrame s (s.stored i v) (s.eng.outAddr i) [byte v] :=
  (storeFrame_store (s := s.drawn 1) h _ _).of_drawn

/-- The store of a group step. -/
theorem State.storeFrame_storedGroup {s : State} (h : s.mem.wf) (i : Nat) (vb : List Int) :
    StoreFrame s (s.storedGroup i vb) (s.eng.outAddr i) (vb.map byte) :=
  (storeFrame_store (s := s.drawn 16) h _ _).of_drawn

/-- The store of a group step that was answered with an error. -/
theorem State.storeFrame_storedPartly {s : State} (h : s.mem.wf) (i : Nat) (vb : List Int) :
    StoreFrame s (s.storedPartly i vb) (s.eng.outAddr i) (vb.map byte) :=
  (storeFrame_storePartly (s := s.drawn 16) h _ _ _).of_drawn

/-- The store of a scalar step of a command in no race. -/
theorem State.stored_of_unraced {s : State} (h : s.eng.raced = false) (i : Nat) (v : Int) :
    s.stored i v = (s.drawn 1).withMem (s.mem.write (s.eng.outAddr i) (byte v)) :=
  State.store_of_unraced (s := s.drawn 1) h _ _

/-- The store of a group step of a command in no race. -/
theorem State.storedGroup_of_unraced {s : State} (h : s.eng.raced = false) (i : Nat) (vb : List Int) :
    s.storedGroup i vb = (s.drawn 16).withMem (s.mem.writeBytes (s.eng.outAddr i) (vb.map byte)) :=
  State.store_of_unraced (s := s.drawn 16) h _ _

/-- The failed store of a group step of a command in no race. -/
theorem State.storedPartly_of_unraced {s : State} (h : s.eng.raced = false) (i : Nat) (vb : List Int) :
    s.storedPartly i vb = (s.drawn 16).withMem
      (s.mem.writeLanded s.params.space (Config.storeLanded (s.draws + 16)) (s.eng.outAddr i) 0 (vb.map byte)) :=
  State.storePartly_of_unraced (s := s.drawn 16) h _ _ _

/-- A step after which the host can tell what was read has counted the draws on, so the next read is free again (20_memory
R80, 93_implementation_defined U6): only a step that uses none of its bytes, for a failed or an unanswered request, keeps
them. -/
theorem draws_sstep {c : Word} {s t : State} {i : Nat}
    (h : sstep c s i = .ok t ∨ ∃ f, f ≠ .loadAccess ∧ sstep c s i = .raised f t) : s.draws < t.draws := by
  rcases sstep_cases c s i with ⟨v, -, -, e⟩ | e | e | e | e <;> rw [e] at h
  · obtain rfl : s.stored i v = t := by simpa using h
    exact Nat.lt_of_succ_le (draws_store (s.drawn 1) _ _)
  all_goals simp at h
  all_goals simp [← h]

theorem draws_gstep {c : Word} {g : Group} {s t : State} {i : Nat}
    (h : gstep c g s i = .ok t ∨ ∃ f, f ≠ .loadAccess ∧ gstep c g s i = .raised f t) : s.draws < t.draws := by
  have h16 : s.draws < (s.drawn 16).draws := by simp
  rcases gstep_cases c g s i with ⟨vb, -, -, -, e⟩ | e | e | ⟨vb, -, -, e⟩ | e <;> rw [e] at h
  · obtain rfl : s.storedGroup i vb = t := by simpa using h
    exact h16.trans_le (draws_store (s.drawn 16) _ _)
  · simp at h
  · simp at h; simp [← h]
  · obtain rfl : s.storedPartly i vb = t := by simpa using h
    exact h16.trans_le (draws_storePartly (s.drawn 16) _ _ _)
  · simp at h

end Sys2Proof.Machine
end

