-- ==== Sys2Proof/Laws/Step.lean ====
section
/-!
SUPPORT. What the sequencer, acceptance and each host action can do, said once, and that each keeps the invariant.
-/

namespace Sys2Proof.Machine

/-! ### The three commands -/

/-- The group step of a command, if it has one. -/
def groupOf : Instr → Option Group
  | .convRef => none
  | .convVu => some .unaligned
  | .convVa => some .aligned

theorem exec_eq (i : Instr) (s : State) : exec i s = transition (encode i) (groupOf i) s := by
  cases i <;> rfl

theorem exec_idle {i : Instr} {s : State} (h : s.eng.phase = .idle) :
    exec i s = accept (encode i) (groupOf i) s := by
  rw [exec_eq, transition, h]

theorem exec_run {i : Instr} {s : State} (h : s.eng.phase = .run) :
    exec i s = .next (sequencerStep (encode i) (groupOf i) s) := by
  rw [exec_eq, transition, h]

theorem exec_halt {i : Instr} {s : State} (h : s.eng.phase = .halt) : exec i s = .next s := by
  rw [exec_eq, transition, h]

@[simp] theorem decode_encode (i : Instr) : decode (encode i) = .command i := by cases i <;> decide

/-- What acceptance can do (43_command_port R193). -/
theorem accept_cases {w : Word} {g : Option Group} {s t : State} (h : accept w g s = .next t) :
    t = takeFault .addressRange s ∨ t = takeFault .misaligned s ∨
      (s.eng.rangesFit s.params = true ∧ (g = some .aligned → s.eng.aligned = true) ∧
        s.eng.buffersDisjoint = true ∧ t = accepted w s) := by
  unfold accept at h
  split at h
  · simp only [Host.Outcome.next.injEq] at h; exact .inl h.symm
  · split at h
    · simp only [Host.Outcome.next.injEq] at h; exact .inr (.inl h.symm)
    · split at h
      · simp at h
      · simp only [Host.Outcome.next.injEq] at h
        refine .inr (.inr ⟨by simp_all, ?_, by simp_all, h.symm⟩)
        intro hg
        simp_all

/-- The sequencer takes a scalar step when scalars remain and no group step is chosen (42_vector_commands R172). -/
theorem sequencerStep_scalar {w : Word} {g : Option Group} {s : State} (hT : s.eng.idx ≠ s.eng.scalars)
    (hG : ¬(g ≠ none ∧ s.eng.idx + 16 ≤ s.eng.scalars)) :
    sequencerStep w g s = finish s s.eng.idx 1 (sstep w s s.eng.idx) := by
  rcases g with _ | a
  · simp [sequencerStep, hT]
  · have : ¬ s.eng.idx + 16 ≤ s.eng.scalars := fun h => hG ⟨by simp, h⟩
    simp [sequencerStep, hT, Config.groupScalars, this]

/-- The sequencer takes a group step when the command has one and 16 scalars remain (42_vector_commands R171). -/
theorem sequencerStep_group {w : Word} {a : Group} {s : State} (hg : s.eng.idx + 16 ≤ s.eng.scalars) :
    sequencerStep w (some a) s = finish s s.eng.idx 16 (gstep w a s s.eng.idx) := by
  have : s.eng.idx ≠ s.eng.scalars := by omega
  simp [sequencerStep, this, Config.groupScalars, hg]

/-- What one step of the sequencer can do (42_vector_commands R170). -/
theorem sequencerStep_cases (w : Word) (g : Option Group) (s : State) :
    (s.eng.idx = s.eng.scalars ∧ sequencerStep w g s = complete s) ∨
      (∃ v, s.eng.idx ≠ s.eng.scalars ∧ (g ≠ none → s.eng.scalars < s.eng.idx + 16) ∧
        fp2i8 (nanResult s.params.nanPolicy (.scalarPath w) s.draws) (s.inputWord s.eng.idx) = some v ∧
        s.writeAnswer (s.eng.outAddr s.eng.idx) 1 = .done ∧
        sequencerStep w g s = (s.stored s.eng.idx v).withIdx (s.eng.idx + 1)) ∨
      (∃ vb : List Int, g ≠ none ∧ s.eng.idx + 16 ≤ s.eng.scalars ∧
        laneProcessor s.params.nanPolicy (.laneProcessor w) s.draws (s.groupWords s.eng.idx) = some vb ∧ vb.length = 16 ∧
        s.writeAnswer (s.eng.outAddr s.eng.idx) 16 = .done ∧
        sequencerStep w g s = (s.storedGroup s.eng.idx vb).withIdx (s.eng.idx + 16)) ∨
      (∃ c t, c.atCommand = false ∧ sequencerStep w g s = takeFault c t ∧
        (t = s ∨ (∃ n, t = s.drawn n) ∨ ∃ vb : List Int, vb.length = 16 ∧ s.eng.idx + 16 ≤ s.eng.scalars ∧
          t = s.storedPartly s.eng.idx vb)) ∨
      sequencerStep w g s = s := by
  by_cases hT : s.eng.idx = s.eng.scalars
  · exact .inl ⟨hT, by simp [sequencerStep, hT]⟩
  by_cases hG : g ≠ none ∧ s.eng.idx + 16 ≤ s.eng.scalars
  · obtain ⟨hn, hg⟩ := hG
    obtain ⟨a, rfl⟩ := Option.ne_none_iff_exists'.mp hn
    have hs := sequencerStep_group (w := w) (a := a) hg
    rcases gstep_cases w a s s.eng.idx with ⟨vb, hv, hl, hw, e⟩ | e | e | ⟨vb, hv, hl, e⟩ | e
    · exact .inr (.inr (.inl ⟨vb, by simp, hg, hv, hl, hw, by rw [hs, e]; rfl⟩))
    · exact .inr (.inr (.inr (.inl ⟨.loadAccess, s, rfl, by rw [hs, e]; rfl, .inl rfl⟩)))
    · exact .inr (.inr (.inr (.inl ⟨.nanInput, _, rfl, by rw [hs, e]; rfl, .inr (.inl ⟨_, rfl⟩)⟩)))
    · exact .inr (.inr (.inr (.inl ⟨.storeAccess, _, rfl, by rw [hs, e]; rfl,
        .inr (.inr ⟨vb, hl, hg, rfl⟩)⟩)))
    · exact .inr (.inr (.inr (.inr (by rw [hs, e]; rfl))))
  · have hs := sequencerStep_scalar (w := w) hT hG
    have hg : g ≠ none → s.eng.scalars < s.eng.idx + 16 := fun hn => by
      by_contra hlt
      exact hG ⟨hn, by omega⟩
    rcases sstep_cases w s s.eng.idx with ⟨v, hv, hw, e⟩ | e | e | e | e
    · exact .inr (.inl ⟨v, hT, hg, hv, hw, by rw [hs, e]; rfl⟩)
    · exact .inr (.inr (.inr (.inl ⟨.loadAccess, s, rfl, by rw [hs, e]; rfl, .inl rfl⟩)))
    · exact .inr (.inr (.inr (.inl ⟨.nanInput, _, rfl, by rw [hs, e]; rfl, .inr (.inl ⟨_, rfl⟩)⟩)))
    · exact .inr (.inr (.inr (.inl ⟨.storeAccess, _, rfl, by rw [hs, e]; rfl, .inr (.inl ⟨_, rfl⟩)⟩)))
    · exact .inr (.inr (.inr (.inr (by rw [hs, e]; rfl))))

/-- What a step of the sequencer leaves alone whatever it does: everything but memory, IDX, STATUS, the record of the
launch and the draws. -/
theorem sequencerStep_frame (w : Word) (g : Option Group) (s : State) :
    (sequencerStep w g s).params = s.params ∧ (sequencerStep w g s).before = s.before ∧ (sequencerStep w g s).after = s.after ∧
      (sequencerStep w g s).platform = s.platform ∧ (sequencerStep w g s).inputs = s.inputs ∧
      (sequencerStep w g s).answers = s.answers ∧ (sequencerStep w g s).eng.live = s.eng.live ∧
      (sequencerStep w g s).eng.cmd = s.eng.cmd ∧ (sequencerStep w g s).eng.dst = s.eng.dst ∧
      (sequencerStep w g s).eng.src = s.eng.src ∧ (sequencerStep w g s).eng.count = s.eng.count := by
  rcases sequencerStep_cases w g s with ⟨-, e⟩ | ⟨v, -, -, -, -, e⟩ | ⟨vb, -, -, -, -, -, e⟩ | ⟨c, t, -, e, ht⟩ | e
  · rw [e]; simp
  · obtain ⟨m, x, d, e'⟩ := s.stored_same s.eng.idx v
    rw [e, e']; simp
  · obtain ⟨m, x, d, e'⟩ := s.storedGroup_same s.eng.idx vb
    rw [e, e']; simp
  · rw [e]
    rcases ht with rfl | ⟨n, rfl⟩ | ⟨vb, -, -, rfl⟩
    · simp
    · simp
    · obtain ⟨m, x, d, e'⟩ := s.storedPartly_same s.eng.idx vb
      rw [e']; simp
  · rw [e]; simp

/-! ### STATUS -/

theorem statusLegal_cases {w : Word} (h : statusLegal w = true) :
    w = 0x0#32 ∨ w = 0x1#32 ∨ w = 0x2#32 ∨ w = 0x14#32 ∨ w = 0x24#32 ∨ w = 0x34#32 ∨ w = 0x44#32 ∨
      w = 0x54#32 ∨ w = 0x64#32 := by
  simpa [statusLegal, or_assoc] using h

theorem legal_run {w : Word} (h : statusLegal w = true) (hp : phaseOf w = .run) : w = 1#32 := by
  rcases statusLegal_cases h with rfl | rfl | rfl | rfl | rfl | rfl | rfl | rfl | rfl <;> first | rfl | (revert hp; decide)

theorem legal_idle {w : Word} (h : statusLegal w = true) (hp : phaseOf w = .idle) : w = 0#32 ∨ w = 2#32 := by
  rcases statusLegal_cases h with rfl | rfl | rfl | rfl | rfl | rfl | rfl | rfl | rfl <;>
    first | exact .inl rfl | exact .inr rfl | (revert hp; decide)

/-- STATUS after a fault: `0x4 | (CAUSE << 4)` (60_exceptions R214). -/
theorem statusFault_eq {w : Word} (h : statusLegal w = true) (c : Cause) :
    statusFault w c = 0x4#32 ||| (BitVec.ofNat 32 c.code <<< 4) := by
  rcases statusLegal_cases h with rfl | rfl | rfl | rfl | rfl | rfl | rfl | rfl | rfl <;>
    (cases c <;> decide)

theorem statusFault_legal {w : Word} (h : statusLegal w = true) (c : Cause) :
    statusLegal (statusFault w c) = true ∧ phaseOf (statusFault w c) = .halt := by
  rw [statusFault_eq h]
  cases c <;> decide

theorem statusComplete_run {w : Word} (h : statusLegal w = true) (hp : phaseOf w = .run) : statusComplete w = 2#32 := by
  rw [legal_run h hp]; decide

theorem statusAccept_idle {w : Word} (h : statusLegal w = true) (hp : phaseOf w = .idle) : statusAccept w = 1#32 := by
  rcases legal_idle h hp with rfl | rfl <;> decide

/-- CAUSE after a fault (60_exceptions R211). -/
theorem statusCause_statusFault {w : Word} (h : statusLegal w = true) (c : Cause) :
    statusCause (statusFault w c) = c.code := by
  rw [statusFault_eq h]
  cases c <;> decide

/-- Fault entry inside a step: STATUS and the model's own records change, nothing else (60_exceptions R214). -/
theorem takeFault_step {s : State} (h : statusLegal s.eng.status = true) {c : Cause} (hc : c.atCommand = false) :
    takeFault c s =
      (s.withEng { s.eng with
        status := 0x4#32 ||| (BitVec.ofNat 32 c.code <<< 4), launch := [], raced := false }).settled := by
  simp [takeFault, statusFault_eq h, hc]

/-! ### Which step a command takes -/

/-- A command takes a scalar step when scalars remain and it is CONV.REF or fewer than 16 remain (42_vector_commands
R172). -/
theorem scalar_step {i : Instr} {s : State} (hlt : s.eng.idx < 2 * s.eng.count)
    (hi : i = .convRef ∨ 2 * s.eng.count < s.eng.idx + 16) :
    sequencerStep (encode i) (groupOf i) s = finish s s.eng.idx 1 (sstep (encode i) s s.eng.idx) := by
  refine sequencerStep_scalar (by simp only [Engine.scalars]; omega) ?_
  rintro ⟨h1, h2⟩
  rcases hi with rfl | hi
  · exact h1 rfl
  · simp only [Engine.scalars] at h2; omega

/-- CONV.VU and CONV.VA take a group step when at least 16 scalars remain (42_vector_commands R171). -/
theorem group_step {i : Instr} {s : State} (hi : i ≠ .convRef) (hlt : s.eng.idx + 16 ≤ 2 * s.eng.count) :
    ∃ g, groupOf i = some g ∧ sequencerStep (encode i) (groupOf i) s = finish s s.eng.idx 16 (gstep (encode i) g s s.eng.idx) := by
  cases i with
  | convRef => exact absurd rfl hi
  | convVu => exact ⟨_, rfl, sequencerStep_group hlt⟩
  | convVa => exact ⟨_, rfl, sequencerStep_group hlt⟩

/-- The lane processor on a group of which every lane's value is known (41_lane_processor R150). -/
theorem laneProcessor_group {who : Drawer} {s : State} {vb : List Int} {n : Nat} (hl : vb.length = 16)
    (h : ∀ k < 16, fp2i8 (nanResult s.params.nanPolicy who (s.draws + k)) (s.inputWord (n + k)) = vb[k]?) :
    laneProcessor s.params.nanPolicy who s.draws (s.groupWords n) = some vb := by
  obtain ⟨vb', h'⟩ := laneProcessor_isSome (pol := s.params.nanPolicy) (who := who) (d := s.draws) (vin := s.groupWords n) (by
    intro k hk
    rw [State.getElem_groupWords, h k (by simpa using hk)]
    have : k < vb.length := by simp at hk; omega
    exact ⟨_, List.getElem?_eq_getElem this⟩)
  rw [h']
  congr 1
  have hl' := laneProcessor_length h'
  rw [State.length_groupWords] at hl'
  refine List.ext_getElem (by omega) fun k h1 h2 => ?_
  have := laneProcessor_lane h' (k := k) (by simp; omega)
  rw [State.getElem_groupWords, h k (by omega), List.getElem?_eq_getElem h2] at this
  exact (Option.some.inj this).symm

/-! ### The invariant -/

theorem rangesDisjoint_symm {lo hi lo' hi' : Nat} (h : rangesDisjoint lo hi lo' hi' = true) :
    rangesDisjoint lo' hi' lo hi = true := by
  rw [rangesDisjoint_iff] at *
  intro a ha
  exact h a ⟨ha.2.2.1, ha.2.2.2, ha.1, ha.2.1⟩

/-- Two engines' buffers are compatible or not, whichever is named first (20_memory R83). -/
theorem Engine.compatible_symm {e f : Engine} (h : e.compatible f = true) : f.compatible e = true := by
  simp only [Engine.compatible, Bool.and_eq_true] at *
  exact ⟨⟨h.2, rangesDisjoint_symm h.1.2⟩, h.1.1⟩

theorem State.mem_engines {s : State} {e : Engine} : e ∈ s.engines ↔ e = s.eng ∨ e ∈ s.before ++ s.after := by
  simp only [State.engines, List.mem_append, List.mem_cons]
  tauto

theorem State.eng_mem (s : State) : s.eng ∈ s.engines := by simp [State.engines]

/-- The check of 20_memory R83 fails exactly on a clash. -/
theorem Engine.not_clash_iff {e f : Engine} : ¬e.Clash f ↔ e.compatible f = true := by
  rw [Engine.compatible_iff, Engine.Clash, not_exists]
  refine forall_congr' fun a => ?_
  omega

/-- The check of 20_memory R79 fails exactly on an overlap. -/
theorem Engine.not_overlap_iff {e : Engine} : ¬e.Overlap ↔ e.buffersDisjoint = true := by
  rw [Engine.buffersDisjoint_iff, Engine.Overlap, not_exists]

theorem Engine.apart_iff {e f : Engine} :
    e.Apart f ↔ (e.running = true → f.running = true → e.compatible f = true ∨ (e.raced = true ∧ f.raced = true)) := by
  unfold Engine.Apart
  rw [← Engine.not_clash_iff]
  by_cases h : e.Clash f <;> simp [h]

theorem Engine.Apart.symm {e f : Engine} (h : e.Apart f) : f.Apart e := by
  rw [Engine.apart_iff] at *
  intro h1 h2
  rcases h h2 h1 with h | h
  · exact .inl (Engine.compatible_symm h)
  · exact .inr h.symm

theorem State.apart_iff {s : State} :
    s.engines.Pairwise Engine.Apart ↔ s.others.Pairwise Engine.Apart ∧ ∀ f ∈ s.others, s.eng.Apart f := by
  simp only [State.engines, State.others, List.pairwise_append, List.pairwise_cons, List.mem_append, List.mem_cons]
  constructor
  · rintro ⟨h1, ⟨h2, h3⟩, h4⟩
    refine ⟨⟨h1, h3, fun a ha b hb => h4 a ha b (.inr hb)⟩, ?_⟩
    rintro f (hf | hf)
    · exact (h4 f hf s.eng (.inl rfl)).symm
    · exact h2 f hf
  · rintro ⟨⟨h1, h3, h4⟩, h5⟩
    refine ⟨h1, ⟨fun a ha => h5 a (.inr ha), h3⟩, ?_⟩
    rintro a ha b (rfl | hb)
    · exact (h5 a (.inl ha)).symm
    · exact h4 a ha b hb

/-- A change of the selected engine, of memory and of races keeps the invariant when the new engine is sound and apart
from those that run, memory stays canonical inside the address space, and races are where running engines have buffers. -/
theorem State.Inv.update {s t : State} (h : s.Inv) (hp : t.params = s.params) (hb : t.before = s.before)
    (ha : t.after = s.after) (hw : t.mem.wf) (hl : t.mem.below s.params.space)
    (hok : t.eng.live = true → t.eng.Ok s.params) (hap : ∀ f ∈ s.others, t.eng.Apart f)
    (hcon : ∀ c ∈ t.contested, ∃ e ∈ t.engines, e.running = true ∧ e.holds c.1 = true) : t.Inv where
  params := hp ▸ h.params
  engineCount := by
    have := h.engineCount
    simp only [State.engines, hb, ha, hp, List.length_append, List.length_cons] at *
    exact this
  memWf := hw
  memBelow := hp ▸ hl
  ok := by
    intro e he hlive
    rw [State.mem_engines, hb, ha] at he
    rw [hp]
    rcases he with rfl | he
    · exact hok hlive
    · exact h.ok e (State.mem_engines.mpr (.inr he)) hlive
  apart := by
    have ho : t.others = s.others := by simp only [State.others, hb, ha]
    rw [State.apart_iff, ho]
    exact ⟨(State.apart_iff.mp h.apart).1, hap⟩
  contested := hcon

theorem Engine.not_apart_of_not_running {e f : Engine} (h : e.running = false) : e.Apart f := fun h1 => by
  rw [h] at h1; simp at h1

/-- A race stays where a running engine has a buffer when the selected engine keeps its buffers and goes on running. -/
theorem State.Inv.contested_of_keep {s t : State} (h : s.Inv) (hb : t.before = s.before) (ha : t.after = s.after)
    (hrun : t.eng.running = s.eng.running) (hholds : ∀ a, t.eng.holds a = s.eng.holds a) {c : Nat × Byte}
    (hc : c ∈ s.contested) : ∃ e ∈ t.engines, e.running = true ∧ e.holds c.1 = true := by
  obtain ⟨e, he, h1, h2⟩ := h.contested c hc
  rw [State.mem_engines] at he
  rcases he with rfl | he
  · exact ⟨t.eng, t.eng_mem, by rw [hrun, h1], by rw [hholds, h2]⟩
  · exact ⟨e, by rw [State.mem_engines, hb, ha]; exact .inr he, h1, h2⟩

theorem State.Inv.contested_settled (s : State) :
    ∀ c ∈ s.settled.contested, ∃ e ∈ s.settled.engines, e.running = true ∧ e.holds c.1 = true :=
  fun _ hc => (State.mem_settled.mp hc).2

/-- A mark changes nothing of an engine that its soundness speaks of. -/
theorem Engine.Ok.markIf {q : Params} {e : Engine} (h : e.Ok q) (p : Engine → Bool) :
    (e.markIf p).Ok q := by
  unfold Engine.markIf
  split
  · rename_i hr
    simp only [Bool.and_eq_true] at hr
    have hph : e.phase = .run := by
      have := hr.1; simp [Engine.running] at this; exact this.2
    exact ⟨h.dst_lt, h.src_lt, h.count_lt, h.idx_lt, h.legal, h.command,
      fun _ => ⟨(h.run hph).fits, (h.run hph).disjoint, (h.run hph).inRange, (h.run hph).alignedVa,
        (h.run hph).groupAt⟩, h.halted, fun hx => absurd hph hx⟩
  · exact h

theorem Engine.Apart.markIf {e f : Engine} (h : e.Apart f) (p : Engine → Bool) : (e.markIf p).Apart (f.markIf p) := by
  rw [Engine.apart_iff] at *
  intro h1 h2
  rw [Engine.markIf_running] at h1 h2
  rw [Engine.markIf_compatible, Engine.markIf_raced, Engine.markIf_raced]
  rcases h h1 h2 with h | ⟨h, h'⟩
  · exact .inl h
  · exact .inr ⟨by simp [h], by simp [h']⟩

/-- A mark keeps the invariant. -/
theorem State.Inv.mark {s : State} (h : s.Inv) (p : Engine → Bool) : (s.mark p).Inv where
  params := h.params
  engineCount := by rw [State.mark_engines, List.length_map]; exact h.engineCount
  memWf := h.memWf
  memBelow := h.memBelow
  ok := by
    intro e he hl
    rw [State.mark_engines, List.mem_map] at he
    obtain ⟨f, hf, rfl⟩ := he
    rw [Engine.markIf_live] at hl
    exact (h.ok f hf hl).markIf p
  apart := by
    rw [State.mark_engines, List.pairwise_map]
    exact h.apart.imp fun hef => hef.markIf p
  contested := by
    intro c hc
    obtain ⟨e, he, h1, h2⟩ := h.contested c hc
    exact ⟨e.markIf p, by rw [State.mark_engines]; exact List.mem_map_of_mem he, by simpa using h1, by simpa using h2⟩

theorem State.Inv.engOk {s : State} (h : s.Inv) (hl : s.eng.live = true) : s.eng.Ok s.params :=
  h.ok s.eng s.eng_mem hl

theorem Engine.Ok.legalRun {p : Params} {e : Engine} (h : e.Ok p) (hr : e.phase = .run) : e.status = 1#32 :=
  legal_run h.legal hr

/-- Fault entry keeps the invariant, whatever a failed store has left in memory. -/
theorem inv_takeFault {s t : State} (h : s.Inv) (hlive : s.eng.live = true)
    {c : Cause} (hc : c.atCommand = false → s.eng.phase = .run)
    (he : t.eng = s.eng) (hp : t.params = s.params) (hb : t.before = s.before) (ha : t.after = s.after)
    (hw : t.mem.wf) (hl : t.mem.below s.params.space) : (takeFault c t).Inv := by
  have ok := h.engOk hlive
  obtain ⟨l1, l2⟩ := statusFault_legal ok.legal c
  have hph : (takeFault c t).eng.phase = .halt := by rw [takeFault_eng, he]; exact l2
  have hcmd : (takeFault c t).eng.cmd = s.eng.cmd := by simp [he]
  refine h.update (by simpa using hp) (by simpa using hb) (by simpa using ha) (by simpa using hw)
    (by simpa using hl) (fun _ => ?_) (fun f _ => ?_) (State.Inv.contested_settled _)
  · refine ⟨?_, ?_, ?_, ?_, ?_, ?_, ?_, ?_, ?_⟩
    · simpa [he] using ok.dst_lt
    · simpa [he] using ok.src_lt
    · simpa [he] using ok.count_lt
    · have := ok.idx_lt
      have := ok.count_lt
      simp only [takeFault_eng, he]
      split <;> omega
    · simpa [he] using l1
    · rw [hcmd]; exact ok.command
    · intro hr; rw [hph] at hr; simp at hr
    · intro _
      simp only [takeFault_eng, he, Engine.scalars]
      split
      · omega
      · rename_i hcf
        have := (ok.run (hc (by simpa using hcf))).inRange
        simpa [Engine.scalars] using this
    · intro _; exact ⟨rfl, rfl⟩
  · exact Engine.not_apart_of_not_running (by rw [Engine.running, hph]; simp)

/-- Every step of the sequencer keeps the invariant. -/
theorem inv_sequencerStep {s : State} (h : s.Inv) (hlive : s.eng.live = true) (hr : s.eng.phase = .run)
    {i : Instr} (hi : decode s.eng.cmd = .command i) : (sequencerStep (encode i) (groupOf i) s).Inv := by
  have ok := h.engOk hlive
  have run := ok.run hr
  have hst := ok.legalRun hr
  have hcnt := ok.count_lt
  have hin := run.inRange
  have hfits := Engine.rangesFit_iff.mp run.fits
  simp only [Engine.scalars] at hin
  have happart := (State.apart_iff.mp h.apart).2
  have hrun : s.eng.running = true := by simp [Engine.running, hlive, hr]
  have keep : ∀ (t : State) (n a : Nat) (bs : List Byte), StoreFrame s t a bs → a = s.eng.outAddr s.eng.idx →
      s.eng.idx + bs.length ≤ s.eng.scalars → n ≤ s.eng.scalars →
      (decode s.eng.cmd ≠ .command .convRef → n + 16 ≤ s.eng.scalars → n % 16 = 0) → (t.withIdx n).Inv := by
    intro t n a bs hf ha hbs hn hg
    rw [Engine.outAddr_eq] at ha
    simp only [Engine.scalars] at hn hbs
    have hte : (t.withIdx n).eng = { s.eng with idx := n } := by rw [State.withIdx_eng, hf.eng]
    refine h.update (by simpa using hf.params) (by simpa using hf.before) (by simpa using hf.after) hf.wf
      (hf.below (by simp only [Params.space]; omega) h.memBelow) (fun _ => ?_) (fun f hfm => ?_) (fun c hc => ?_)
    · rw [hte]
      refine ⟨ok.dst_lt, ok.src_lt, ok.count_lt, ?_, ok.legal, ok.command, fun _ => ?_, fun hh => ?_, fun hh => ?_⟩
      · show n < _
        omega
      · exact ⟨run.fits, run.disjoint, hn, run.alignedVa, hg⟩
      · change s.eng.phase = .halt at hh
        rw [hr] at hh
        simp at hh
      · exact absurd hr hh
    · rw [hte]
      exact happart f hfm
    · rcases hf.contested c hc with hc | hc
      · exact h.contested_of_keep (by simpa using hf.before) (by simpa using hf.after) (by rw [hte]; rfl)
          (fun _ => by rw [hte]; rfl) hc
      · refine ⟨_, State.eng_mem _, by rw [hte]; exact hrun, ?_⟩
        rw [hte, Engine.holds_iff]
        show _ ∨ (s.eng.dst ≤ c.1 ∧ c.1 < s.eng.dst + 2 * s.eng.count)
        omega
  rcases sequencerStep_cases (encode i) (groupOf i) s with
    ⟨hT, e⟩ | ⟨v, hne, hg, -, hw, e⟩ | ⟨vb, hgn, hg, -, hlen, hw, e⟩ | ⟨c, t, hc, e, ht⟩ | e
  · rw [e]
    have hph : (complete s).eng.phase = .idle := by
      show phaseOf (statusComplete s.eng.status) = .idle
      rw [hst]; decide
    refine h.update rfl rfl rfl h.memWf h.memBelow (fun _ => ?_) (fun f _ => ?_) (State.Inv.contested_settled _)
    · refine ⟨ok.dst_lt, ok.src_lt, ok.count_lt, ok.idx_lt, ?_, ok.command, ?_, ?_, fun _ => ⟨rfl, rfl⟩⟩
      · show statusLegal (statusComplete s.eng.status) = true
        rw [hst]; decide
      · intro hx; rw [hph] at hx; simp at hx
      · intro hx; rw [hph] at hx; simp at hx
    · exact Engine.not_apart_of_not_running (by rw [Engine.running, hph]; simp)
  · rw [e]
    have := run.inRange
    refine keep _ _ _ _ (State.storeFrame_stored h.memWf _ _) rfl (by simp; omega) (by omega) ?_
    intro hcr h16
    have hgi : groupOf i ≠ none := by
      intro hn
      cases i <;> simp_all [groupOf]
    have := hg hgi
    omega
  · rw [e]
    refine keep _ _ _ _ (State.storeFrame_storedGroup h.memWf _ _) rfl (by simp [hlen]; omega) hg ?_
    intro hcr h16
    have := run.groupAt hcr hg
    omega
  · rw [e]
    rcases ht with rfl | ⟨n, rfl⟩ | ⟨vb, hlen, -, rfl⟩
    · exact inv_takeFault h hlive (fun _ => hr) rfl rfl rfl rfl h.memWf h.memBelow
    · exact inv_takeFault h hlive (fun _ => hr) rfl rfl rfl rfl h.memWf h.memBelow
    · have f := State.storeFrame_storedPartly h.memWf s.eng.idx vb
      exact inv_takeFault h hlive (fun _ => hr) f.eng f.params f.before f.after f.wf
        (below_storePartly (s := s.drawn 16) h.memWf h.memBelow _ _ _)
  · rw [e]; exact h

/-- Acceptance of a command keeps the invariant. -/
theorem inv_accept {s t : State} (h : s.Inv) (hlive : s.eng.live = true) (hi : s.eng.phase = .idle)
    {i : Instr} (ht : accept (encode i) (groupOf i) s = .next t) : t.Inv := by
  have ok := h.engOk hlive
  rcases accept_cases ht with rfl | rfl | ⟨hf, hal, hd, rfl⟩
  · exact inv_takeFault h hlive (by simp [Cause.atCommand]) rfl rfl rfl rfl h.memWf h.memBelow
  · exact inv_takeFault h hlive (by simp [Cause.atCommand]) rfl rfl rfl rfl h.memWf h.memBelow
  · have hst : (accepted (encode i) s).eng.status = 1#32 := statusAccept_idle ok.legal hi
    have hph : (accepted (encode i) s).eng.phase = .run := by
      unfold Engine.phase; rw [hst]; decide
    have hcmd : decode (accepted (encode i) s).eng.cmd = .command i := decode_encode i
    have hcnt := ok.count_lt
    refine (h.mark fun f => !s.eng.compatible f).update rfl rfl rfl h.memWf h.memBelow (fun _ => ?_)
      (fun f hfm => Engine.apart_iff.mpr fun _ hfr => ?_) (fun c hc => ?_)
    · refine ⟨ok.dst_lt, ok.src_lt, ok.count_lt, ?_, ?_, ⟨i, hcmd⟩, fun _ => ?_, ?_, ?_⟩
      · show 0 < 2 * s.params.countRange
        omega
      · rw [hst]; decide
      · refine ⟨hf, hd, Nat.zero_le _, ?_, fun _ _ => rfl⟩
        intro hva
        rw [hcmd] at hva
        have hiva : i = .convVa := by simpa using hva
        subst hiva
        exact hal rfl
      · intro hx; rw [hph] at hx; simp at hx
      · intro hx; exact absurd hph hx
    · simp only [State.others, State.mark_before, State.mark_after, ← List.map_append, List.mem_map] at hfm
      obtain ⟨g, hg, rfl⟩ := hfm
      rw [Engine.markIf_running] at hfr
      have hcomp : ∀ p : Engine → Bool, (accepted (encode i) s).eng.compatible (g.markIf p) = s.eng.compatible g := by
        intro p
        unfold Engine.markIf
        split <;> rfl
      rw [hcomp, Engine.markIf_raced]
      by_cases hcg : s.eng.compatible g = true
      · exact .inl hcg
      · right
        have hcg' : s.eng.compatible g = false := by simpa using hcg
        refine ⟨?_, by simp [hfr, hcg']⟩
        show (!s.othersCompatible) = true
        simp only [State.othersCompatible, Bool.not_eq_true', List.all_eq_false]
        exact ⟨g, hg, by simp [hfr, hcg']⟩
    · obtain ⟨e, he, h1, h2⟩ := h.contested c hc
      rw [State.mem_engines] at he
      rcases he with rfl | he
      · exact absurd h1 (by simp [Engine.running, hi])
      · refine ⟨e.markIf fun f => !s.eng.compatible f, ?_, by simpa using h1, by simpa using h2⟩
        rw [State.mem_engines]
        right
        show _ ∈ s.before.map _ ++ s.after.map _
        rw [← List.map_append]
        exact List.mem_map_of_mem he

/-- A transition of a command that the engine holds, or of any command in IDLE, keeps the invariant. -/
theorem inv_exec {s t : State} (h : s.Inv) (hlive : s.eng.live = true) {i : Instr}
    (hi : s.eng.phase = .run → decode s.eng.cmd = .command i) (ht : exec i s = .next t) : t.Inv := by
  rcases hp : s.eng.phase with _ | _ | _
  · rw [exec_idle hp] at ht; exact inv_accept h hlive hp ht
  · rw [exec_run hp] at ht
    simp only [Host.Outcome.next.injEq] at ht
    exact ht ▸ inv_sequencerStep h hlive hp (hi hp)
  · rw [exec_halt hp] at ht
    simp only [Host.Outcome.next.injEq] at ht
    exact ht ▸ h

/-- The turn of the selected engine keeps the invariant. -/
theorem inv_engineTurn {s t : State} (h : s.Inv) (ht : engineTurn s = .next t) : t.Inv := by
  unfold engineTurn at ht
  split at ht
  · simp at ht
  · rename_i hl
    have hlive : s.eng.live = true := by simpa using hl
    split at ht
    · split at ht
      · rename_i i hd
        exact inv_exec h hlive (fun _ => hd) ht
      · simp at ht
    · simp only [Host.Outcome.next.injEq] at ht; exact ht ▸ h
    · simp only [Host.Outcome.next.injEq] at ht; exact ht ▸ h

/-- The invariant does not speak of the host's actions, of what it was told, of the platform or of the draws. -/
theorem State.Inv.congr {s t : State} (h : s.Inv) (hp : t.params = s.params) (hb : t.before = s.before)
    (he : t.eng = s.eng) (ha : t.after = s.after) (hm : t.mem = s.mem) (hc : t.contested = s.contested) : t.Inv := by
  obtain ⟨h1, h2, h3, h4, h5, h6, h7⟩ := h
  have hes : t.engines = s.engines := by simp [State.engines, hb, he, ha]
  exact ⟨hp ▸ h1, by rw [hes, hp]; exact h2, hm ▸ h3, by rw [hm, hp]; exact h4, by rw [hes, hp]; exact h5,
    by rw [hes]; exact h6, by rw [hes, hc]; exact h7⟩

/-- Memory after reset is in canonical form. -/
theorem State.resetWith_memWf (p : Params) : (State.resetWith p).mem.wf := Memory.wf_nil

/-- A sound engine after reset (10_state R35). -/
theorem Engine.reset_ok (p : Params) : Engine.reset.Ok p := by
  have h1 : 0 < p.space := by simp [Params.space]
  have h2 : 0 < p.countRange := by simp [Params.countRange]
  refine ⟨h1, h1, h2, ?_, by decide, ⟨.convRef, by decide⟩, ?_, fun _ => Nat.zero_le _, fun _ => ⟨rfl, rfl⟩⟩
  · show 0 < 2 * p.countRange
    omega
  · intro hx
    rw [show Engine.reset.phase = .idle by decide] at hx
    simp at hx

/-- What a reset in RUN writes to the first `n` output scalars (70_reset_and_hazards R242). -/
def State.abandonedBytes (s : State) (n : Nat) : List Byte :=
  (List.range n).map fun k => if s.eng.raced then s.raceRead s.reader s.engines (s.eng.outAddr k) else s.abandonedByte k

@[simp] theorem State.length_abandonedBytes (s : State) (n : Nat) : (s.abandonedBytes n).length = n := by
  simp [State.abandonedBytes]

theorem State.abandonedBytes_succ (s : State) (n : Nat) :
    s.abandonedBytes (n + 1) =
      s.abandonedBytes n ++ [if s.eng.raced then s.raceRead s.reader s.engines (s.eng.outAddr n) else s.abandonedByte n] := by
  simp [State.abandonedBytes, List.range_succ]

theorem storeFrame_abandonRaced {s : State} (h : s.mem.wf) (hr : s.eng.raced = true) (n : Nat) :
    StoreFrame s (s.abandonRaced n) s.eng.dst (s.abandonedBytes n) := by
  induction n with
  | zero => exact .refl h _ _
  | succ n ih =>
    rw [State.abandonedBytes_succ, hr, if_pos rfl]
    refine ih.snoc ?_
    rw [State.length_abandonedBytes, ← Engine.outAddr_eq]
    exact storeFrame_racedStore ih.wf _ _

theorem storeFrame_abandonOutput {s : State} (h : s.mem.wf) (hr : s.eng.raced = false) (n : Nat) :
    StoreFrame s (s.withMem (s.abandonOutput n)) s.eng.dst (s.abandonedBytes n) := by
  induction n with
  | zero => exact .refl h _ _
  | succ n ih =>
    rw [State.abandonedBytes_succ, hr, if_neg (by simp)]
    refine ih.snoc ?_
    rw [State.length_abandonedBytes, ← Engine.outAddr_eq]
    exact storeFrame_write (s := s.withMem (s.abandonOutput n)) ih.wf _ _

/-- A reset in RUN writes to the output buffer only (70_reset_and_hazards R242). -/
theorem storeFrame_abandoned {s : State} (h : s.mem.wf) :
    StoreFrame s s.abandoned s.eng.dst (s.abandonedBytes s.eng.scalars) := by
  unfold State.abandoned
  split
  · rename_i hr; exact storeFrame_abandonRaced h hr _
  · rename_i hr; exact storeFrame_abandonOutput h (by simpa using hr) _

/-- A reset in RUN leaves output scalar `k` of a command in no race as `abandonedByte` says (70_reset_and_hazards
R242). -/
theorem read_abandonOutput_inside {s : State} (h : s.mem.wf) (hr : s.eng.raced = false) {n k : Nat} (hk : k < n) :
    (s.abandonOutput n).read (s.eng.outAddr k) = s.abandonedByte k := by
  induction n with
  | zero => omega
  | succ n ih =>
    have hw : (s.abandonOutput n).wf := (storeFrame_abandonOutput h hr n).wf
    simp only [State.abandonOutput]
    by_cases hkn : k = n
    · subst hkn
      exact Memory.read_write_same hw _ _
    · rw [Memory.read_write_other hw, ih (by omega)]
      simp only [Engine.outAddr, Config.outScalarBytes]
      omega

/-- A race stays where a running engine has a buffer when the selected engine, which did not run, changes. -/
theorem State.Inv.contested_of_not_running {s t : State} (h : s.Inv) (hb : t.before = s.before) (ha : t.after = s.after)
    (hnr : s.eng.running = false) {c : Nat × Byte} (hc : c ∈ s.contested) :
    ∃ e ∈ t.engines, e.running = true ∧ e.holds c.1 = true := by
  obtain ⟨e, he, h1, h2⟩ := h.contested c hc
  rw [State.mem_engines] at he
  rcases he with rfl | he
  · rw [hnr] at h1; simp at h1
  · exact ⟨e, by rw [State.mem_engines, hb, ha]; exact .inr he, h1, h2⟩

/-- Reset keeps the invariant. -/
theorem inv_applyReset {s : State} (h : s.Inv) : (applyReset s).Inv := by
  have hok := Engine.reset_ok s.params
  have hnr : Engine.reset.running = false := by decide
  unfold applyReset
  split
  · rename_i hr
    have hlr : s.eng.live = true ∧ s.eng.phase = .run := by simpa [Engine.running] using hr
    have fits := Engine.rangesFit_iff.mp ((h.engOk hlr.1).run hlr.2).fits
    have f := storeFrame_abandoned h.memWf
    exact h.update f.params f.before f.after f.wf
      (f.below (by simp only [State.length_abandonedBytes, Engine.scalars, Params.space]; omega) h.memBelow)
      (fun _ => hok) (fun _ _ => Engine.not_apart_of_not_running hnr) (State.Inv.contested_settled _)
  · rename_i hr
    exact h.update rfl rfl rfl h.memWf h.memBelow (fun _ => hok) (fun _ _ => Engine.not_apart_of_not_running hnr)
      (fun c hc => h.contested_of_not_running (t := s.withEng Engine.reset) rfl rfl (by simpa using hr) hc)

/-- An operand write keeps the invariant. -/
theorem inv_writeOperand {s : State} (h : s.Inv) (hlive : s.eng.live = true) (reg v : Nat) :
    (writeOperand reg v s).Inv := by
  have ok := h.engOk hlive
  have hs : 0 < s.params.space := by simp [Params.space]
  have hc : 0 < s.params.countRange := by simp [Params.countRange]
  unfold writeOperand
  split
  · rename_i hi
    have hidle : ∀ e : Engine, e.status = s.eng.status → e.phase = .idle := fun e he => by
      unfold Engine.phase; rw [he]; exact hi
    have keep : ∀ e : Engine, e.status = s.eng.status → e.idx = s.eng.idx → e.cmd = s.eng.cmd →
        e.launch = s.eng.launch → e.raced = s.eng.raced → e.dst < s.params.space → e.src < s.params.space →
        e.count < s.params.countRange → (s.withEng e).Inv := by
      intro e hst hix hcm hla hra h1 h2 h3
      have hph := hidle e hst
      refine h.update rfl rfl rfl h.memWf h.memBelow (fun _ => ?_)
        (fun _ _ => Engine.not_apart_of_not_running (by rw [Engine.running, show (s.withEng e).eng.phase = .idle from hph]; simp))
        (fun c hc => h.contested_of_not_running (t := s.withEng e) rfl rfl (by rw [Engine.running, hi]; simp) hc)
      · refine ⟨h1, h2, h3, by show e.idx < _; rw [hix]; exact ok.idx_lt,
          by show statusLegal e.status = true; rw [hst]; exact ok.legal,
          by show ∃ i, decode e.cmd = _; rw [hcm]; exact ok.command, ?_, ?_, ?_⟩
        · intro hx; rw [show (s.withEng e).eng.phase = .idle from hph] at hx; simp at hx
        · intro hx; rw [show (s.withEng e).eng.phase = .idle from hph] at hx; simp at hx
        · intro _
          show e.launch = [] ∧ e.raced = false
          rw [hla, hra]; exact ok.retains (by simp [hi])
    split
    · exact keep _ rfl rfl rfl rfl rfl (Nat.mod_lt _ hs) ok.src_lt ok.count_lt
    · exact keep _ rfl rfl rfl rfl rfl ok.dst_lt (Nat.mod_lt _ hs) ok.count_lt
    · exact keep _ rfl rfl rfl rfl rfl ok.dst_lt ok.src_lt (Nat.mod_lt _ hc)
    · exact h
  · exact h

/-- A write to CMD keeps the invariant. -/
theorem inv_writeCmd {s t : State} (h : s.Inv) (hlive : s.eng.live = true) {w : Word}
    (ht : writeCmd w s = .next t) : t.Inv := by
  unfold writeCmd at ht
  split at ht
  · rename_i hi
    split at ht
    · exact inv_exec h hlive (fun hr => by rw [hi] at hr; simp at hr) ht
    · simp only [Host.Outcome.next.injEq] at ht
      exact ht ▸ inv_takeFault h hlive (by simp [Cause.atCommand]) rfl rfl rfl rfl h.memWf h.memBelow
  · simp only [Host.Outcome.next.injEq] at ht; exact ht ▸ h
  · simp only [Host.Outcome.next.injEq] at ht; exact ht ▸ h

/-- Selecting an engine only changes which one is selected (60_exceptions R232). -/
theorem engines_selectEngine (k : Nat) (s : State) : (selectEngine k s).engines = s.engines := by
  unfold selectEngine
  split
  · rename_i e rest he
    simp only [State.engines] at *
    rw [← he, List.take_append_drop]
  · rfl

theorem selectEngine_frame (k : Nat) (s : State) :
    (selectEngine k s).params = s.params ∧ (selectEngine k s).mem = s.mem ∧
      (selectEngine k s).platform = s.platform ∧ (selectEngine k s).inputs = s.inputs ∧
      (selectEngine k s).answers = s.answers ∧ (selectEngine k s).draws = s.draws ∧
      (selectEngine k s).contested = s.contested := by
  unfold selectEngine
  split <;> simp

/-- What another agent's write does: a store at `a`, and the running commands that have `a` in a buffer are in a race. -/
theorem agentWrite_eq {s : State} (h : s.mem.wf) (a : Nat) (b : Byte) :
    ∃ u, StoreFrame s u a [b] ∧ agentWrite a b s = u.mark fun e => e.holds a := by
  unfold agentWrite
  split
  · exact ⟨_, storeFrame_raceWrite h _ a b, rfl⟩
  · rename_i hn
    refine ⟨_, storeFrame_write h a b, ?_⟩
    rw [Bool.not_eq_true, List.any_eq_false] at hn
    exact (State.mark_of_not fun e he => by simpa only [Bool.not_eq_true] using hn e he).symm

/-- Another agent's write may mark the selected engine's command as being in a race; it changes nothing else of it. -/
theorem agentWrite_eng (a : Nat) (b : Byte) (s : State) : ∃ p, (agentWrite a b s).eng = s.eng.markIf p := by
  unfold agentWrite
  split
  · exact ⟨fun e => e.holds a, rfl⟩
  · exact ⟨fun _ => false, by simp [Engine.markIf]⟩

/-- What another agent's write leaves alone. -/
theorem agentWrite_frame (a : Nat) (b : Byte) (s : State) :
    (agentWrite a b s).params = s.params ∧ (agentWrite a b s).platform = s.platform ∧
      (agentWrite a b s).inputs = s.inputs ∧ (agentWrite a b s).answers = s.answers := by
  unfold agentWrite
  split <;> exact ⟨rfl, rfl, rfl, rfl⟩

/-- A mark is all that a mark changes of an engine. -/
theorem map_unmarked_markIf (p : Engine → Bool) (l : List Engine) :
    (l.map (Engine.markIf p)).map Engine.unmarked = l.map Engine.unmarked := by
  rw [List.map_map]
  refine List.map_congr_left fun e _ => ?_
  simp only [Function.comp, Engine.markIf]
  split <;> rfl

/-- Another agent's write keeps the invariant. -/
theorem inv_agentWrite {s : State} (h : s.Inv) {a : Nat} (ha : a < s.params.space) (b : Byte) :
    (agentWrite a b s).Inv := by
  have plain : (s.engines.any fun e => e.running && e.holds a) = false → (s.withMem (s.mem.write a b)).Inv := fun _ =>
    ⟨h.params, h.engineCount, Memory.wf_write h.memWf _ _, Memory.below_write h.memBelow ha _, h.ok, h.apart, h.contested⟩
  unfold agentWrite
  split
  · rename_i hr
    have f := storeFrame_raceWrite h.memWf (s.engines.any fun e => e.running && e.wrote a) a b
    refine State.Inv.mark (s := s.raceWrite _ a b)
      ⟨h.params, h.engineCount, f.wf, f.below (by simp; omega) h.memBelow, h.ok, h.apart, ?_⟩ _
    intro c hc
    rcases f.contested c hc with hc | hc
    · exact h.contested c hc
    · obtain ⟨e, he, hh⟩ := List.any_eq_true.mp hr
      simp only [Bool.and_eq_true] at hh
      have : c.1 = a := by simp at hc; omega
      exact ⟨e, he, hh.1, by rw [this]; exact hh.2⟩
  · rename_i hr
    exact plain (by simpa using hr)

/-- Another agent's read changes what the host has been told and the draws. -/
theorem agentRead_eq (a : Nat) (s : State) : ∃ x n, agentRead a s = (s.told x).drawn n := by
  unfold agentRead
  split
  · exact ⟨_, _, rfl⟩
  · exact ⟨_, 0, rfl⟩

/-! ### What one step of the machine can do -/

/-- What the turn of the selected engine can do (42_vector_commands R170). -/
theorem engineTurn_cases {s t : State} (ht : engineTurn s = .next t) :
    t = s ∨ (s.eng.live = true ∧ s.eng.phase = .run ∧ ∃ i, decode s.eng.cmd = .command i ∧
      t = sequencerStep (encode i) (groupOf i) s) := by
  unfold engineTurn at ht
  split at ht
  · simp at ht
  · rename_i hl
    split at ht
    · rename_i hp
      split at ht
      · rename_i i hd
        rw [exec_run hp] at ht
        simp only [Host.Outcome.next.injEq] at ht
        exact .inr ⟨by simpa using hl, hp, i, hd, ht.symm⟩
      · simp at ht
    · simp only [Host.Outcome.next.injEq] at ht; exact .inl ht.symm
    · simp only [Host.Outcome.next.injEq] at ht; exact .inl ht.symm

/-- What a write to CMD can do (43_command_port R193). -/
theorem writeCmd_cases {w : Word} {s t : State} (ht : writeCmd w s = .next t) :
    t = s ∨ (s.eng.phase = .idle ∧ ((∃ c, c.atCommand = true ∧ t = takeFault c s) ∨
      ∃ i, decode w = .command i ∧ accept (encode i) (groupOf i) s = .next t ∧ t = accepted (encode i) s)) := by
  unfold writeCmd at ht
  split at ht
  · rename_i hp
    split at ht
    · rename_i i hd
      rw [exec_idle hp] at ht
      rcases accept_cases ht with rfl | rfl | ⟨-, -, -, rfl⟩
      · exact .inr ⟨hp, .inl ⟨_, rfl, rfl⟩⟩
      · exact .inr ⟨hp, .inl ⟨_, rfl, rfl⟩⟩
      · exact .inr ⟨hp, .inr ⟨i, hd, ht, rfl⟩⟩
    · simp only [Host.Outcome.next.injEq] at ht
      exact .inr ⟨hp, .inl ⟨_, rfl, ht.symm⟩⟩
  · simp only [Host.Outcome.next.injEq] at ht; exact .inl ht.symm
  · simp only [Host.Outcome.next.injEq] at ht; exact .inl ht.symm

/-- Everything a step can do; `l` is what the host still has to do after it. -/
theorem step_cases {s t : State} (ht : step s = .next t) :
    ∃ l, (∃ x n, t = ((s.withInputs l).told x).drawn n) ∨
      (∃ ws, t = (s.withInputs l).withPlatform ws) ∨
      (t = s.withInputs l) ∨
      (∃ a b, s.inputs = .store a b :: l ∧ a < s.params.space ∧ t = agentWrite a b (s.withInputs l)) ∨
      (s.inputs = .reset :: l ∧ t = applyReset (s.withInputs l)) ∨
      (∃ k, s.inputs = .select k :: l ∧ t = selectEngine k (s.withInputs l)) ∨
      (s.eng.live = true ∧ s.eng.phase = .idle ∧ ∃ reg v, t = writeOperand reg v (s.withInputs l)) ∨
      (s.eng.live = true ∧ s.eng.phase = .idle ∧ ∃ c v, s.inputs = .write 0 v :: l ∧ c.atCommand = true ∧
        t = takeFault c (s.withInputs l)) ∨
      (s.eng.live = true ∧ s.eng.phase = .idle ∧ ∃ i v,
        s.inputs = .write 0 v :: l ∧ decode (BitVec.ofNat 32 v) = .command i ∧
        accept (encode i) (groupOf i) (s.withInputs l) = .next t ∧ t = accepted (encode i) (s.withInputs l)) ∨
      (s.eng.live = true ∧ s.eng.phase = .run ∧ ∃ i, decode s.eng.cmd = .command i ∧
        t = sequencerStep (encode i) (groupOf i) (s.withInputs l)) := by
  have hturn : ∀ l, engineTurn (s.withInputs l) = .next t → t = s.withInputs l ∨ (s.eng.live = true ∧
    s.eng.phase = .run ∧ ∃ i, decode s.eng.cmd = .command i ∧ t = sequencerStep (encode i) (groupOf i) (s.withInputs l)) :=
    fun l h => engineTurn_cases h
  unfold step at ht
  split at ht
  · rename_i hi
    have : s = s.withInputs [] := by cases s; simp_all [State.withInputs]
    rw [this] at ht
    refine ⟨[], ?_⟩
    rcases hturn _ ht with h | h
    · tauto
    · tauto
  · rename_i act rest hi
    cases act with
    | read reg =>
      simp only [hostAction, ifLive] at ht
      split at ht
      · simp only [Host.Outcome.next.injEq] at ht; exact ⟨rest, .inl ⟨_, 0, ht.symm⟩⟩
      · simp at ht
    | write reg v =>
      simp only [hostAction, ifLive] at ht
      split at ht
      · rename_i hl
        unfold writeReg at ht
        split at ht
        · rename_i hreg
          rcases writeCmd_cases ht with h | ⟨hp, ⟨c, hc, h⟩ | ⟨i, hd, ha, h⟩⟩
          · exact ⟨rest, by tauto⟩
          · subst hreg
            exact ⟨rest, .inr (.inr (.inr (.inr (.inr (.inr (.inr (.inl ⟨hl, hp, c, v, hi, hc, h⟩)))))))⟩
          · subst hreg
            exact ⟨rest, .inr (.inr (.inr (.inr (.inr (.inr (.inr (.inr (.inl ⟨hl, hp, i, v, hi, hd, ha, h⟩))))))))⟩
        · simp only [Host.Outcome.next.injEq] at ht
          by_cases hp : s.eng.phase = .idle
          · exact ⟨rest, .inr (.inr (.inr (.inr (.inr (.inr (.inl ⟨hl, hp, reg, v, ht.symm⟩))))))⟩
          · have : writeOperand reg v (s.withInputs rest) = s.withInputs rest := by
              unfold writeOperand; rw [if_neg (by simpa using hp)]
            exact ⟨rest, .inr (.inr (.inl (by rw [← ht, this])))⟩
      · simp at ht
    | wait =>
      simp only [hostAction, waitTurn] at ht
      split at ht
      · simp only [Host.Outcome.next.injEq] at ht; exact ⟨rest, .inl ⟨_, 0, ht.symm⟩⟩
      · refine ⟨.wait :: rest, ?_⟩
        rcases hturn _ ht with h | h
        · tauto
        · tauto
    | reset => 
      simp only [hostAction, Host.Outcome.next.injEq] at ht
      exact ⟨rest, .inr (.inr (.inr (.inr (.inl ⟨hi, ht.symm⟩))))⟩
    | tick => 
      refine ⟨rest, ?_⟩
      rcases hturn _ ht with h | h
      · tauto
      · tauto
    | select k =>
      simp only [hostAction, Host.Outcome.next.injEq] at ht
      exact ⟨rest, .inr (.inr (.inr (.inr (.inr (.inl ⟨k, hi, ht.symm⟩)))))⟩
    | load a =>
      simp only [hostAction, agentLoad] at ht
      split at ht
      · simp at ht
      · simp only [Host.Outcome.next.injEq] at ht
        obtain ⟨x, n, e⟩ := agentRead_eq a (s.withInputs rest)
        exact ⟨rest, .inl ⟨x, n, by rw [← ht, e]⟩⟩
    | store a b =>
      simp only [hostAction, agentStore] at ht
      split at ht
      · simp at ht
      · rename_i h1
        simp only [Host.Outcome.next.injEq] at ht
        exact ⟨rest, .inr (.inr (.inr (.inl ⟨a, b, hi, Nat.lt_of_not_le h1, ht.symm⟩)))⟩
    | remap ws => simp only [hostAction, Host.Outcome.next.injEq] at ht; exact ⟨rest, .inr (.inl ⟨ws, ht.symm⟩)⟩

end Sys2Proof.Machine
end

