-- ==== Sys2Proof/Laws/Convert.lean ====
section
/-!
SUPPORT. A running command on NaN-free input whose requests are all answered: what any number of its steps leave, in one
closed form, and that scalar steps and group steps leave the same (41_lane_processor R150, 42_vector_commands R176).
-/

namespace Sys2Proof.Machine

/-- A command is running, nothing can go wrong in it: no race, sound buffers, requests answered, no NaN. -/
structure State.Ready (s : State) : Prop where
  memWf : s.mem.wf
  running : s.eng.phase = .run
  unraced : s.eng.raced = false
  disjoint : s.eng.buffersDisjoint = true
  granted : s.granted
  nanFree : s.nanFree

/-- The `j` converted bytes of input scalars `i .. i + j - 1`. -/
def State.convertedBytes (s : State) (i j : Nat) : List Byte :=
  (List.range j).map fun k => byte ((fp2i8 none (s.inputWord (i + k))).getD 0)

/-- The state `j` scalars further on. -/
def State.advanced (s : State) (j : Nat) : State :=
  ((s.drawn j).withMem (s.mem.writeBytes (s.eng.outAddr s.eng.idx) (s.convertedBytes s.eng.idx j))).withIdx
    (s.eng.idx + j)

@[simp] theorem State.advanced_idx (s : State) (j : Nat) : (s.advanced j).eng.idx = s.eng.idx + j := rfl

@[simp] theorem State.advanced_scalars (s : State) (j : Nat) : (s.advanced j).eng.scalars = s.eng.scalars := rfl

@[simp] theorem State.length_convertedBytes (s : State) (i j : Nat) : (s.convertedBytes i j).length = j := by
  simp [State.convertedBytes]

theorem State.convertedBytes_add (s : State) (i j j' : Nat) :
    s.convertedBytes i (j + j') = s.convertedBytes i j ++ s.convertedBytes (i + j) j' := by
  simp only [State.convertedBytes, List.range_add, List.map_append, List.map_map]
  congr 1
  refine List.map_congr_left fun k _ => ?_
  simp only [Function.comp, Nat.add_assoc]

theorem Memory.writeBytes_append (m : Memory) (a : Nat) (bs cs : List Byte) :
    m.writeBytes a (bs ++ cs) = (m.writeBytes a bs).writeBytes (a + bs.length) cs := by
  induction bs generalizing m a with
  | nil => rfl
  | cons b bs ih =>
    simp only [List.cons_append, Memory.writeBytes, ih, List.length_cons]
    congr 1
    omega

/-- A number's conversion, whatever NaNResult is. -/
theorem fp2i8_getD {w : Word} (h : isNaN w = false) (nan : Option Int) :
    fp2i8 nan w = some ((fp2i8 none w).getD 0) := by
  obtain ⟨v, hv⟩ := fp2i8_isSome_of_not_nan h none
  rw [fp2i8_of_not_nan h nan none, hv]
  rfl

/-- The output of a sound command leaves its input as it is. -/
theorem inputWord_advanced {s : State} (h : s.Ready) {j k : Nat} (hj : s.eng.idx + j ≤ s.eng.scalars)
    (hk : k < s.eng.scalars) : (s.advanced j).inputWord k = s.inputWord k := by
  rw [State.inputWord_of_unraced (s := s.advanced j) h.unraced, State.inputWord_of_unraced h.unraced]
  refine scalarAt_congr fun b hb => ?_
  refine Memory.read_writeBytes_outside h.memWf _ ?_
  have hd := Engine.buffersDisjoint_iff.mp h.disjoint (s.eng.src + 4 * k + b)
  simp only [Engine.scalars] at hk hj
  rw [State.length_convertedBytes, Engine.outAddr_eq]
  show s.eng.src + 4 * k + b < _ ∨ _ ≤ s.eng.src + 4 * k + b
  omega

theorem State.Ready.advanced {s : State} (h : s.Ready) {j : Nat} (hj : s.eng.idx + j ≤ s.eng.scalars) :
    (s.advanced j).Ready where
  memWf := Memory.wf_writeBytes h.memWf _ _
  running := h.running
  unraced := h.unraced
  disjoint := h.disjoint
  granted := h.granted
  nanFree := fun k hk => by
    have := inputWord_advanced h hj hk
    rw [State.inputWord_of_unraced (s := s.advanced j) h.unraced, State.inputWord_of_unraced h.unraced] at this
    rw [this]
    exact h.nanFree k hk

theorem State.advanced_advanced {s : State} (h : s.Ready) {j j' : Nat} (hj : s.eng.idx + (j + j') ≤ s.eng.scalars) :
    (s.advanced j).advanced j' = s.advanced (j + j') := by
  have hb : (s.advanced j).convertedBytes (s.eng.idx + j) j' = s.convertedBytes (s.eng.idx + j) j' := by
    refine List.map_congr_left fun k hk => ?_
    simp only [List.mem_range] at hk
    rw [inputWord_advanced h (by omega) (by omega)]
  have hm : (s.advanced j).mem.writeBytes (s.eng.outAddr (s.eng.idx + j))
        ((s.advanced j).convertedBytes (s.eng.idx + j) j') =
      s.mem.writeBytes (s.eng.outAddr s.eng.idx) (s.convertedBytes s.eng.idx (j + j')) := by
    rw [hb, State.convertedBytes_add, Memory.writeBytes_append, State.length_convertedBytes, Engine.outAddr_eq,
      Engine.outAddr_eq, ← Nat.add_assoc, ← Engine.outAddr_eq s.eng s.eng.idx]
    rfl
  rw [State.advanced.eq_def s (j + j'), ← hm, ← Nat.add_assoc, State.advanced.eq_def (s.advanced j)]
  show State.withIdx (State.withMem (State.drawn _ _) _) _ = _
  simp only [State.advanced, State.withIdx, State.withMem, State.withEng, State.drawn, Nat.add_assoc]
  rfl

theorem State.readAnswer_of_granted {s : State} (h : s.granted) {a n : Nat} (h1 : s.eng.src ≤ a)
    (h2 : a + n ≤ s.eng.src + 8 * s.eng.count) : s.readAnswer a n = .done :=
  requestAnswer_eq_done.mpr fun j hj => h.1 _ (Engine.inInput_iff.mpr ⟨by omega, by omega⟩)

theorem State.writeAnswer_of_granted {s : State} (h : s.granted) {a n : Nat} (h1 : s.eng.dst ≤ a)
    (h2 : a + n ≤ s.eng.dst + 2 * s.eng.count) : s.writeAnswer a n = .done :=
  requestAnswer_eq_done.mpr fun j hj => h.2 _ (Engine.inOutput_iff.mpr ⟨by omega, by omega⟩)

/-- No scalar of the input is a NaN as the engine reads it. -/
theorem State.Ready.number {s : State} (h : s.Ready) {k : Nat} (hk : k < s.eng.scalars) : isNaN (s.inputWord k) = false := by
  rw [State.inputWord_of_unraced h.unraced]
  exact h.nanFree k hk

/-- A scalar step goes one scalar on. -/
theorem sstep_ready {w : Word} {s : State} (h : s.Ready) (hlt : s.eng.idx < s.eng.scalars) :
    finish s s.eng.idx 1 (sstep w s s.eng.idx) = s.advanced 1 := by
  have hT := hlt
  simp only [Engine.scalars] at hT
  have hr : s.readAnswer (s.eng.inAddr s.eng.idx) 4 = .done :=
    s.readAnswer_of_granted h.granted (by rw [Engine.inAddr_eq]; omega) (by rw [Engine.inAddr_eq]; omega)
  have hw : s.writeAnswer (s.eng.outAddr s.eng.idx) 1 = .done :=
    s.writeAnswer_of_granted h.granted (by rw [Engine.outAddr_eq]; omega) (by rw [Engine.outAddr_eq]; omega)
  rw [sstep_eq, hr]
  simp only [fp2i8_getD (h.number hlt) (nanResult s.params.nanPolicy (.scalarPath w) s.draws), hw, finish]
  have hb : s.convertedBytes s.eng.idx 1 = [byte ((fp2i8 none (s.inputWord s.eng.idx)).getD 0)] := rfl
  rw [State.advanced, hb, State.stored_of_unraced h.unraced]
  rfl

/-- A group step goes sixteen scalars on. -/
theorem gstep_ready {w : Word} {s : State} (g : Group) (h : s.Ready) (hlt : s.eng.idx + 16 ≤ s.eng.scalars) :
    finish s s.eng.idx 16 (gstep w g s s.eng.idx) = s.advanced 16 := by
  have hT := hlt
  simp only [Engine.scalars] at hT
  have hr : ∀ j < 4, s.readAnswer (s.eng.inAddr s.eng.idx + 16 * j) 16 = .done := fun j hj =>
    s.readAnswer_of_granted h.granted (by rw [Engine.inAddr_eq]; omega) (by rw [Engine.inAddr_eq]; omega)
  have hw : s.writeAnswer (s.eng.outAddr s.eng.idx) 16 = .done :=
    s.writeAnswer_of_granted h.granted (by rw [Engine.outAddr_eq]; omega) (by rw [Engine.outAddr_eq]; omega)
  have hv : laneProcessor s.params.nanPolicy (.laneProcessor w) s.draws (s.groupWords s.eng.idx) =
      some ((List.range 16).map fun k => (fp2i8 none (s.inputWord (s.eng.idx + k))).getD 0) := by
    refine laneProcessor_group (by simp) fun k hk => ?_
    rw [fp2i8_getD (h.number (by omega))]
    simp [hk]
  rw [gstep_of_done hr hv hw]
  rw [State.storedGroup_of_unraced h.unraced]
  simp only [finish, State.advanced, State.convertedBytes, List.map_map]
  rfl

/-- `n` steps of the sequencer in a row. -/
def sequencerSteps (w : Word) (g : Option Group) : Nat → State → State
  | 0, s => s
  | n + 1, s => sequencerSteps w g n (sequencerStep w g s)

theorem sequencerSteps_add (w : Word) (g : Option Group) (n k : Nat) (s : State) :
    sequencerSteps w g (n + k) s = sequencerSteps w g k (sequencerSteps w g n s) := by
  induction n generalizing s with
  | zero => simp [sequencerSteps]
  | succ n ih => rw [Nat.succ_add]; exact ih _

/-- Scalar steps, one after another. -/
theorem sequencerSteps_scalar {w : Word} {g : Option Group} {s : State} (h : s.Ready) {n : Nat}
    (hn : s.eng.idx + n ≤ s.eng.scalars) (hg : g ≠ none → s.eng.scalars < s.eng.idx + 16) :
    sequencerSteps w g n s = s.advanced n := by
  induction n generalizing s with
  | zero => simp [sequencerSteps, State.advanced, State.convertedBytes, Memory.writeBytes, State.withIdx, State.withMem,
      State.withEng, State.drawn]
  | succ n ih =>
    have hs : sequencerStep w g s = s.advanced 1 := by
      rw [sequencerStep_scalar (by omega) (fun hc => by have := hg hc.1; omega), sstep_ready h (by omega)]
    have he := s.advanced_idx 1
    have hc := s.advanced_scalars 1
    show sequencerSteps w g n (sequencerStep w g s) = _
    rw [hs, ih (h.advanced (by omega)) (by rw [he, hc]; omega) (fun hx => by have := hg hx; rw [he, hc]; omega),
      State.advanced_advanced h (by omega), Nat.add_comm]

/-- Group steps, one after another. -/
theorem sequencerSteps_group {w : Word} {a : Group} {s : State} (h : s.Ready) {n : Nat}
    (hn : s.eng.idx + 16 * n ≤ s.eng.scalars) : sequencerSteps w (some a) n s = s.advanced (16 * n) := by
  induction n generalizing s with
  | zero => simp [sequencerSteps, State.advanced, State.convertedBytes, Memory.writeBytes, State.withIdx, State.withMem,
      State.withEng, State.drawn]
  | succ n ih =>
    have hs : sequencerStep w (some a) s = s.advanced 16 := by
      rw [sequencerStep_group (by omega), gstep_ready a h (by omega)]
    have he := s.advanced_idx 16
    have hc := s.advanced_scalars 16
    show sequencerSteps w (some a) n (sequencerStep w (some a) s) = _
    rw [hs, ih (h.advanced (by omega)) (by rw [he, hc]; omega), State.advanced_advanced h (by omega)]
    congr 1
    omega

/-- How many scalars the first `n` steps of a command with `q` group steps convert. -/
def vectorScalars (n q : Nat) : Nat := if n ≤ q then 16 * n else 16 * q + (n - q)

/-- How many scalars the first `n` steps of a command convert, up to its completion step (42_vector_commands R178). -/
def scalarsAfter (i : Instr) (n count : Nat) : Nat :=
  match i with
  | .convRef => n
  | .convVu => vectorScalars n (2 * count / 16)
  | .convVa => vectorScalars n (2 * count / 16)

theorem vectorScalars_all (t : Nat) : vectorScalars (t / 16 + t % 16) (t / 16) = t := by
  unfold vectorScalars
  split <;> omega

theorem vectorScalars_le {n t : Nat} (hn : n ≤ t / 16 + t % 16) : vectorScalars n (t / 16) ≤ t := by
  unfold vectorScalars
  split <;> omega

theorem scalarsAfter_all (i : Instr) (count : Nat) : scalarsAfter i (stepsBeforeCompletion i count) count = 2 * count := by
  cases i
  · rfl
  · exact vectorScalars_all _
  · exact vectorScalars_all _

theorem scalarsAfter_le {i : Instr} {n count : Nat} (hn : n ≤ stepsBeforeCompletion i count) :
    scalarsAfter i n count ≤ 2 * count := by
  cases i
  · exact hn
  · exact vectorScalars_le hn
  · exact vectorScalars_le hn

/-- The first `n` steps of each of the three commands. -/
theorem sequencerSteps_command {i : Instr} {s : State} (h : s.Ready) (h0 : s.eng.idx = 0) {n : Nat}
    (hn : n ≤ stepsBeforeCompletion i s.eng.count) :
    sequencerSteps (encode i) (groupOf i) n s = s.advanced (scalarsAfter i n s.eng.count) := by
  have hT : s.eng.scalars = 2 * s.eng.count := rfl
  have vector : ∀ (w : Word) (a : Group), n ≤ 2 * s.eng.count / 16 + 2 * s.eng.count % 16 → sequencerSteps w (some a) n s =
      s.advanced (vectorScalars n (2 * s.eng.count / 16)) := by
    intro w a hn
    unfold vectorScalars
    split
    · exact sequencerSteps_group h (by omega)
    · have e1 := s.advanced_idx (16 * (2 * s.eng.count / 16))
      have e2 := s.advanced_scalars (16 * (2 * s.eng.count / 16))
      obtain ⟨r, rfl⟩ : ∃ r, n = 2 * s.eng.count / 16 + r := ⟨n - 2 * s.eng.count / 16, by omega⟩
      rw [sequencerSteps_add, sequencerSteps_group h (by omega),
        sequencerSteps_scalar (h.advanced (by omega)) (by omega) (fun _ => by omega),
        State.advanced_advanced h (by omega)]
      congr 1
      omega
  cases i with
  | convRef => exact sequencerSteps_scalar h (by simp only [stepsBeforeCompletion] at hn; omega) (by simp [groupOf])
  | convVu => exact vector _ _ hn
  | convVa => exact vector _ _ hn

theorem core_run_succ (M : Host.Core) {s t : M.State} {n : Nat} (h : M.step s = .next t) :
    M.run (n + 1) s = M.run n t := by
  rw [Host.Core.run, h]

theorem run_succ {s t : State} {n : Nat} (h : step s = .next t) :
    Host.Core.run Sys2Proof.core (n + 1) s = Host.Core.run Sys2Proof.core n t :=
  core_run_succ Sys2Proof.core h

/-- An engine left alone takes the steps of its command one after another, as long as it stays in RUN. -/
theorem run_sequencerSteps {i : Instr} {s : State} (hi : s.inputs = []) (hl : s.eng.live = true)
    (hd : decode s.eng.cmd = .command i) {n : Nat}
    (hr : ∀ k < n, (sequencerSteps (encode i) (groupOf i) k s).eng.phase = .run) :
    Host.Core.run Sys2Proof.core n s = .next (sequencerSteps (encode i) (groupOf i) n s) := by
  induction n generalizing s with
  | zero => rfl
  | succ n ih =>
    have hp : s.eng.phase = .run := hr 0 (by omega)
    have hstep : step s = .next (sequencerStep (encode i) (groupOf i) s) := by
      unfold step
      rw [hi]
      simp [engineTurn, hl, hp, hd, exec_run hp]
    obtain ⟨-, -, -, -, f5, -, f7, f8, -⟩ := sequencerStep_frame (encode i) (groupOf i) s
    rw [run_succ hstep]
    exact ih (by rw [f5, hi]) (by rw [f7, hl]) (by rw [f8, hd]) fun k hk => hr (k + 1) (by omega)

end Sys2Proof.Machine
end

