-- ==== Sys2Proof/Laws/PerInstr.lean ====
section
/-!
SUPPORT. What holds of every command as syntax (30_encoding R91, R92), one lemma per constructor.
-/

namespace Sys2Proof.Laws.Encoding

/-- The command is well formed; its word matches its row of the opcode map, has ZERO clear and one of the three defined
values of OP (30_encoding R91, R92). -/
def Statement (i : Instr) : Prop :=
  i.wellFormed = true ∧ encode i &&& opcodeMask i = opcodeMatch i ∧ zeroField (encode i) = 0 ∧ opField (encode i) < 3

theorem convRef : Statement .convRef := by
  unfold Statement
  decide

theorem convVu : Statement .convVu := by
  unfold Statement
  decide

theorem convVa : Statement .convVa := by
  unfold Statement
  decide

end Sys2Proof.Laws.Encoding
end

