-- ==== Sys2Proof/Laws/Progress.lean ====
section
/-!
SUPPORT. What a step leaves alone, that a running engine's progress is kept (60_exceptions R215, R218), and that a step
whose requests are answered makes progress (42_vector_commands R178).
-/

namespace Sys2Proof.Machine

/-- An operand write changes DST, SRC or COUNT of the selected engine at most (43_command_port R192). -/
theorem writeOperand_frame (reg v : Nat) (s : State) :
    ∃ e, writeOperand reg v s = s.withEng e ∧ e.live = s.eng.live ∧ e.cmd = s.eng.cmd ∧
      e.status = s.eng.status ∧ e.idx = s.eng.idx ∧ e.launch = s.eng.launch ∧ e.raced = s.eng.raced := by
  unfold writeOperand
  split
  · split <;> exact ⟨_, rfl, rfl, rfl, rfl, rfl, rfl, rfl⟩
  · exact ⟨_, rfl, rfl, rfl, rfl, rfl, rfl, rfl⟩

/-- Giving up a command changes nothing but memory, the values of racing bytes and the draws. -/
theorem State.abandoned_same (s : State) : ∃ m c d, s.abandoned = s.withStore m c d := by
  have raced : ∀ n, ∃ m c d, s.abandonRaced n = s.withStore m c d := by
    intro n
    induction n with
    | zero => exact ⟨_, _, _, rfl⟩
    | succ n ih =>
      obtain ⟨m, c, d, e⟩ := ih
      rw [State.abandonRaced, e]
      exact racedStore_same (s.withStore m c d) _ _
  unfold State.abandoned
  split
  · exact raced _
  · exact ⟨_, _, _, rfl⟩

/-- Reset concerns the selected engine and memory (70_reset_and_hazards R240). -/
theorem applyReset_frame (s : State) :
    (applyReset s).params = s.params ∧ (applyReset s).before = s.before ∧ (applyReset s).after = s.after ∧
      (applyReset s).platform = s.platform ∧ (applyReset s).inputs = s.inputs ∧
      (applyReset s).answers = s.answers ∧ (applyReset s).eng = Engine.reset := by
  unfold applyReset
  split
  · obtain ⟨m, c, d, e⟩ := s.abandoned_same
    rw [e]; simp
  · simp

/-- Runs, one after another. -/
theorem core_run_add (M : Host.Core) (n k : Nat) (s t : M.State) (h : M.run n s = .next t) :
    M.run (n + k) s = M.run k t := by
  induction n generalizing s with
  | zero => simp [Host.Core.run] at h; subst h; simp
  | succ n ih =>
    rw [Nat.succ_add]
    rw [Host.Core.run] at h ⊢
    rcases hs : M.step s with u | u | u
    · rw [hs] at h; exact ih _ h
    · rw [hs] at h; simp at h
    · rw [hs] at h; simp at h

/-! ### Progress -/

theorem Engine.running_iff {e : Engine} : e.running = true ↔ e.live = true ∧ e.phase = .run := by
  simp [Engine.running]

/-- Progress depends on the bytes of the engine's own buffers only. -/
theorem State.Progress.congr {s t : State} {e : Engine} (hen : t.params.endian = s.params.endian) (h : s.Progress e)
    (hidx : e.idx ≤ e.scalars)
    (hm : ∀ a, (e.inInput a = true ∨ e.inOutput a = true) → t.mem.read a = s.mem.read a) : t.Progress e := by
  have hs : ∀ k < e.idx, scalarAt t.params.endian t.mem (e.inAddr k) = scalarAt s.params.endian s.mem (e.inAddr k) := by
    intro k hk
    rw [hen]
    refine scalarAt_congr fun b hb => hm _ (.inl ?_)
    simp only [Engine.scalars] at hidx
    rw [Engine.inInput_iff, Engine.inAddr_eq]; omega
  have ho : ∀ k < e.scalars, t.mem.read (e.outAddr k) = s.mem.read (e.outAddr k) := by
    intro k hk
    refine hm _ (.inr ?_)
    simp only [Engine.scalars] at hk
    rw [Engine.inOutput_iff, Engine.outAddr_eq]; omega
  refine ⟨fun a ha => ?_, fun k hk => ?_, fun k h1 h2 => ?_⟩
  · rw [hm a (.inl ha)]; exact h.input a ha
  · rw [hs k hk, ho k (by omega)]; exact h.stored k hk
  · rw [ho k h2]; exact h.untouched k h1 h2

/-- A change of memory inside the output of an engine leaves the progress of a compatible one (20_memory R83). -/
theorem State.Progress.other {s t : State} {e f : Engine} (hen : t.params.endian = s.params.endian) (h : s.Progress f)
    (hidx : f.idx ≤ f.scalars) (hc : e.compatible f = true)
    (hm : ∀ a, ¬(e.dst ≤ a ∧ a < e.dst + 2 * e.count) → t.mem.read a = s.mem.read a) : t.Progress f := by
  refine State.Progress.congr hen h hidx fun a ha => hm a ?_
  simp only [Engine.compatible, Bool.and_eq_true, rangesDisjoint_iff] at hc
  rw [Engine.inInput_iff, Engine.inOutput_iff] at ha
  have h1 := hc.1.1 a
  have h2 := hc.1.2 a
  simp only [Engine.outEnd, Engine.inEnd] at h1 h2
  omega

/-- A step of the sequencer changes no byte outside the output buffer (20_memory R69). -/
theorem read_sequencerStep_outside {w : Word} {g : Option Group} {s : State} (hm : s.mem.wf)
    (hin : s.eng.idx ≤ s.eng.scalars) (a : Nat)
    (ha : ¬(s.eng.dst ≤ a ∧ a < s.eng.dst + 2 * s.eng.count)) : (sequencerStep w g s).mem.read a = s.mem.read a := by
  simp only [Engine.scalars] at hin
  rcases sequencerStep_cases w g s with ⟨h1, e⟩ | ⟨v, hv, -, -, -, e⟩ | ⟨vb, -, hv, -, hl, -, e⟩ | ⟨c, t, hc, e, ht⟩ | e
  · rw [e]; rfl
  · rw [e]
    simp only [Engine.scalars] at hv
    exact (State.storeFrame_stored hm _ _).outside a (by rw [Engine.outAddr_eq]; simp; omega)
  · rw [e]
    simp only [Engine.scalars] at hv
    exact (State.storeFrame_storedGroup hm _ _).outside a (by rw [Engine.outAddr_eq, List.length_map, hl]; omega)
  · rw [e]
    rcases ht with rfl | ⟨n, rfl⟩ | ⟨vb, hl, hv, rfl⟩
    · rfl
    · rfl
    · simp only [Engine.scalars] at hv
      exact (State.storeFrame_storedPartly hm _ _).outside a (by rw [Engine.outAddr_eq, List.length_map, hl]; omega)
  · rw [e]

/-- A step of the sequencer keeps the progress of its engine (60_exceptions R218). -/
theorem progress_sequencerStep {w : Word} {g : Option Group} {s : State} (hinv : s.Inv) (hl : s.eng.live = true)
    (hr : s.eng.phase = .run) (hu : s.eng.raced = false) (h : s.Progress s.eng)
    (hr' : (sequencerStep w g s).eng.phase = .run) : (sequencerStep w g s).Progress (sequencerStep w g s).eng := by
  have run := (hinv.engOk hl).run hr
  have hin := run.inRange
  have hd := Engine.buffersDisjoint_iff.mp run.disjoint
  have hframe : ∀ a, s.eng.inInput a = true → (sequencerStep w g s).mem.read a = s.mem.read a := fun a ha =>
    read_sequencerStep_outside hinv.memWf hin a (by rw [Engine.inInput_iff] at ha; have := hd a; omega)
  obtain ⟨fp, -, -, -, -, -, -, -, fd, fs, fc⟩ := sequencerStep_frame w g s
  have hout : ∀ k, (sequencerStep w g s).eng.outAddr k = s.eng.dst + k := fun k => by rw [Engine.outAddr_eq, fd]
  have hina : ∀ k, (sequencerStep w g s).eng.inAddr k = s.eng.src + 4 * k := fun k => by rw [Engine.inAddr_eq, fs]
  have hword : ∀ k < s.eng.scalars, scalarAt (sequencerStep w g s).params.endian (sequencerStep w g s).mem
    ((sequencerStep w g s).eng.inAddr k) = s.inputWord k := by
    intro k hk
    rw [fp, hina, State.inputWord_of_unraced hu]
    refine scalarAt_congr fun b hb => hframe _ ?_
    simp only [Engine.scalars] at hk
    rw [Engine.inInput_iff]; omega
  have hinp : ∀ a, (sequencerStep w g s).eng.inInput a = s.eng.inInput a := fun a => by
    unfold Engine.inInput Engine.inEnd; rw [fs, fc]
  have hsc : (sequencerStep w g s).eng.scalars = s.eng.scalars := by simp only [Engine.scalars, fc]
  have old : ∀ k < s.eng.idx, isNaN (s.inputWord k) = false → ∃ v, fp2i8 none (s.inputWord k) = some v ∧
    s.mem.read (s.eng.dst + k) = byte v := by
    intro k hk hn
    rw [State.inputWord_of_unraced hu] at hn ⊢
    have := h.stored k hk hn
    rw [Engine.outAddr_eq] at this
    exact this
  have olde : ∀ k, s.eng.idx ≤ k → k < s.eng.scalars → s.mem.read (s.eng.dst + k) = s.eng.launch.read (s.eng.dst + k) := by
    intro k h1 h2
    have := h.untouched k h1 h2
    rw [Engine.outAddr_eq] at this
    exact this
  have launch : (sequencerStep w g s).eng.launch = s.eng.launch := by
    rcases sequencerStep_cases w g s with ⟨h1, e⟩ | ⟨v, hv, -, -, -, e⟩ | ⟨vb, -, hv, -, hl, -, e⟩ | ⟨c, t, hc, e, ht⟩ | e
    · rw [e, phase_complete hr] at hr'; simp at hr'
    · rw [e, State.withIdx_eng, State.stored_eng]
    · rw [e, State.withIdx_eng, State.storedGroup_eng]
    · rw [e, phase_takeFault] at hr'; simp at hr'
    · rw [e]
  have new : (∀ k < (sequencerStep w g s).eng.idx, isNaN (s.inputWord k) = false →
    ∃ v, fp2i8 none (s.inputWord k) = some v ∧ (sequencerStep w g s).mem.read (s.eng.dst + k) = byte v) ∧
      (sequencerStep w g s).eng.idx ≤ s.eng.scalars ∧
      ∀ k, (sequencerStep w g s).eng.idx ≤ k → k < s.eng.scalars →
        (sequencerStep w g s).mem.read (s.eng.dst + k) = s.mem.read (s.eng.dst + k) ∧ s.eng.idx ≤ k := by
    rcases sequencerStep_cases w g s with ⟨h1, e⟩ | ⟨v, hv, -, hf, -, e⟩ | ⟨vb, -, hv, hf, hl, -, e⟩ | ⟨c, t, hc, e, ht⟩ | e
    · rw [e, phase_complete hr] at hr'; simp at hr'
    · rw [e]
      have he : ((s.stored s.eng.idx v).withIdx (s.eng.idx + 1)).eng.idx = s.eng.idx + 1 := by
        rw [State.withIdx_eng]
      have hmm : ((s.stored s.eng.idx v).withIdx (s.eng.idx + 1)).mem = s.mem.write (s.eng.outAddr s.eng.idx)
        (byte v) := by rw [State.withIdx_mem, State.stored_of_unraced hu]; rfl
      rw [he, hmm, Engine.outAddr_eq]
      refine ⟨fun k hk hn => ?_, by omega, fun k h1 h2 => ⟨?_, by omega⟩⟩
      · by_cases hk' : k = s.eng.idx
        · subst hk'
          rw [Memory.read_write_same hinv.memWf]
          exact ⟨v, by rw [← hf]; exact fp2i8_of_not_nan hn _ _, rfl⟩
        · rw [Memory.read_write_other hinv.memWf _ (by omega)]
          exact old k (by omega) hn
      · exact Memory.read_write_other hinv.memWf _ (by omega)
    · rw [e]
      have he : ((s.storedGroup s.eng.idx vb).withIdx (s.eng.idx + 16)).eng.idx = s.eng.idx + 16 := by
        rw [State.withIdx_eng]
      have hmm : ((s.storedGroup s.eng.idx vb).withIdx (s.eng.idx + 16)).mem = s.mem.writeBytes
        (s.eng.outAddr s.eng.idx) (vb.map byte) := by rw [State.withIdx_mem, State.storedGroup_of_unraced hu]; rfl
      rw [he, hmm, Engine.outAddr_eq]
      refine ⟨fun k hk hn => ?_, by omega, fun k h1 h2 => ⟨?_, by omega⟩⟩
      · by_cases hk' : k < s.eng.idx
        · rw [Memory.read_writeBytes_outside hinv.memWf _ (by omega)]
          exact old k (by omega) hn
        · obtain ⟨j, rfl⟩ : ∃ j, k = s.eng.idx + j := ⟨k - s.eng.idx, by omega⟩
          have hjl : j < (s.groupWords s.eng.idx).length := by simp; omega
          have := laneProcessor_lane hf hjl
          rw [State.getElem_groupWords, fp2i8_of_not_nan hn _ none] at this
          refine ⟨_, this, ?_⟩
          rw [← Nat.add_assoc, Memory.read_writeBytes_inside hinv.memWf (by simp [hl]; omega)]
          simp
      · exact Memory.read_writeBytes_outside hinv.memWf _ (by simp [hl]; omega)
    · rw [e, phase_takeFault] at hr'; simp at hr'
    · rw [e]; exact ⟨old, hin, fun k h1 _ => ⟨rfl, h1⟩⟩
  refine ⟨fun a ha => ?_, fun k hk => ?_, fun k h1 h2 => ?_⟩
  · rw [hinp] at ha; rw [hframe a ha, launch]; exact h.input a ha
  · rw [hword k (by have := new.2.1; omega), hout]; exact new.1 k hk
  · rw [hsc] at h2
    obtain ⟨e1, e2⟩ := new.2.2 k h1 h2
    rw [hout, launch, e1]; exact olde k e2 h2

/-! ### Every step gets on -/

/-- A request is answered when every address in it answers. -/
theorem requestAnswer_ne_silent {f : Nat →
    Answer} (h : ∀ a, f a ≠ .silent) (a n : Nat) : requestAnswer f a n ≠ .silent := by
  induction n generalizing a with
  | zero => simp [requestAnswer]
  | succ n ih =>
    simp only [requestAnswer]
    have h1 := h a
    have h2 := ih (a + 1)
    revert h1 h2
    generalize f a = x
    generalize requestAnswer f (a+1) n = y
    cases x <;> cases y <;> simp [Answer.worse]

theorem State.readAnswer_ne_silent {s : State} (h : ∀ w ∈ s.platform, w.onRead ≠ .silent ∧
    w.onWrite ≠ .silent) (a n : Nat) :
    s.readAnswer a n ≠ .silent := by
  refine requestAnswer_ne_silent (fun b => ?_) a n
  unfold readAnswerAt
  split
  · split
    · rename_i w hw; exact (h w (List.mem_filter.mp (List.mem_of_find?_eq_some hw)).1).1
    · simp
  · simp

theorem State.writeAnswer_ne_silent {s : State} (h : ∀ w ∈ s.platform, w.onRead ≠ .silent ∧
    w.onWrite ≠ .silent) (a n : Nat) :
    s.writeAnswer a n ≠ .silent := by
  refine requestAnswer_ne_silent (fun b => ?_) a n
  unfold writeAnswerAt
  split
  · split
    · rename_i w hw; exact (h w (List.mem_filter.mp (List.mem_of_find?_eq_some hw)).1).2
    · simp
  · simp

theorem loadVectors_ne_silent {s : State} (h : ∀ w ∈ s.platform, w.onRead ≠ .silent ∧ w.onWrite ≠ .silent) (a n : Nat) :
    loadVectors s a n ≠ .silent := by
  induction n generalizing a with
  | zero => simp [loadVectors]
  | succ n ih =>
    rw [loadVectors_succ]
    have := State.readAnswer_ne_silent h a 16
    split
    · simp
    · contradiction
    · have := ih (a+16)
      split <;> simp_all

/-- A step whose requests are answered raises IDX or leaves RUN (42_vector_commands R178). -/
theorem sequencerStep_progress {w : Word} {g : Option Group} {s : State} (h : ∀ w ∈ s.platform, w.onRead ≠ .silent ∧
    w.onWrite ≠ .silent)
   (hr : s.eng.phase = .run) : (sequencerStep w g s).eng.phase ≠ .run ∨ ((sequencerStep w g s).eng.idx > s.eng.idx ∧
     (sequencerStep w g s).eng.status = s.eng.status) := by
  by_cases hT : s.eng.idx = s.eng.scalars
  · left; simp only [sequencerStep, hT, if_true]; rw [phase_complete hr]; simp
  by_cases hG : g ≠ none ∧ s.eng.idx + 16 ≤ s.eng.scalars
  · obtain ⟨hn, hg⟩ := hG
    obtain ⟨a, rfl⟩ := Option.ne_none_iff_exists'.mp hn
    rw [sequencerStep_group hg, gstep_eq]
    have hl := loadVectors_ne_silent h (s.eng.inAddr s.eng.idx) 4
    split
    · left; simp only [finish]; rw [phase_takeFault]; simp
    · contradiction
    · split
      · left; simp only [finish]; rw [phase_takeFault]; simp
      · split
        · right
          simp only [finish, State.withIdx_eng, State.storedGroup_eng]
          exact ⟨by omega, trivial⟩
        · left; simp only [finish]; rw [phase_takeFault]; simp
        · rename_i hw; exact absurd hw (State.writeAnswer_ne_silent h _ _)
  · rw [sequencerStep_scalar hT hG, sstep_eq]
    have hl := State.readAnswer_ne_silent h (s.eng.inAddr s.eng.idx) 4
    split
    · left; simp only [finish]; rw [phase_takeFault]; simp
    · contradiction
    · split
      · left; simp only [finish]; rw [phase_takeFault]; simp
      · split
        · right
          simp only [finish, State.withIdx_eng, State.stored_eng]
          exact ⟨by omega, trivial⟩
        · left; simp only [finish]; rw [phase_takeFault]; simp
        · rename_i hw; exact absurd hw (State.writeAnswer_ne_silent h _ _)

end Sys2Proof.Machine
end

