-- ==== Sys2Proof/Laws/Requests.lean ====
section
/-!
SUPPORT. What the requests of a running engine's step look like, and that the step touches no other byte.
-/

namespace Sys2Proof.Machine

theorem commandRequests_run {i : Instr} {s : State} (h : s.eng.phase = .run) :
    commandRequests i s = stepRequests (encode i) (groupOf i) s := by
  unfold commandRequests; rw [h]; cases i <;> rfl

theorem mem_loadRequests {s : State} {a n : Nat} {r : Request} (h : r ∈ loadRequests s a n) :
    ∃ j < n, r = .read (a + 16 * j) 16 := by
  induction n generalizing a with
  | zero => simp [loadRequests] at h
  | succ n ih =>
    simp only [loadRequests, List.mem_cons] at h
    rcases h with h | h
    · exact ⟨0, by omega, by simpa using h⟩
    · split at h
      · obtain ⟨j, hj, e⟩ := ih h
        exact ⟨j + 1, by omega, by rw [e]; simp only [Config.vlenBytes]; congr 1; omega⟩
      · simp at h

/-- No read is asked for behind one that is not answered with the bytes. -/
theorem mem_loadRequests_until {s : State} {a n j : Nat} (hn : s.readAnswer (a + 16 * j) 16 ≠ .done) {r : Request}
    (h : r ∈ loadRequests s a n) : ∃ k ≤ j, r = .read (a + 16 * k) 16 := by
  induction n generalizing a j with
  | zero => simp [loadRequests] at h
  | succ n ih =>
    simp only [loadRequests, List.mem_cons] at h
    rcases h with h | h
    · exact ⟨0, by omega, by simpa using h⟩
    · split at h
      · rename_i hd
        cases j with
        | zero => exact absurd hd hn
        | succ j =>
          obtain ⟨k, hk, e⟩ := ih (a := a + 16) (j := j) (by rwa [show a + 16 + 16 * j = a + 16 * (j + 1) by omega]) h
          exact ⟨k + 1, by omega, by rw [e]; congr 1; omega⟩
      · simp at h

theorem loadRequests_all {s : State} {a n : Nat} (h : ∀ j < n, s.readAnswer (a + 16 * j) 16 = .done) {j : Nat} (hj : j < n) :
    .read (a + 16 * j) 16 ∈ loadRequests s a n := by
  induction n generalizing a j with
  | zero => omega
  | succ n ih =>
    have h0 := h 0 (by omega)
    rw [Nat.mul_zero, Nat.add_zero] at h0
    simp only [loadRequests, Config.vlenBytes, h0, if_true, List.mem_cons]
    cases j with
    | zero => left; simp
    | succ j =>
      right
      have := ih (a := a + 16) (j := j) (fun k hk => by
        have := h (k + 1) (by omega)
        rwa [show a + 16 + 16 * k = a + 16 * (k + 1) by omega]) (by omega)
      rwa [show a + 16 * (j + 1) = a + 16 + 16 * j by omega]

theorem covers_read {a n b : Nat} : (Request.read a n).covers b = true ↔ a ≤ b ∧ b < a + n := by simp [Request.covers]
theorem covers_write {a n b : Nat} : (Request.write a n).covers b = true ↔ a ≤ b ∧ b < a + n := by simp [Request.covers]

theorem read_writeLanded_congr {m m' : Memory} (h : m.wf) (h' : m'.wf) {sp : Nat} {l : Nat → Bool} {a k b : Nat} {bs : List Byte}
    (hb : m.read b = m'.read b) : (m.writeLanded sp l a k bs).read b = (m'.writeLanded sp l a k bs).read b := by
  induction bs generalizing m m' k with
  | nil => exact hb
  | cons c bs ih =>
    simp only [Memory.writeLanded]
    split
    · exact ih (Memory.wf_write h _ _) (Memory.wf_write h' _ _) (by rw [Memory.read_write h, Memory.read_write h', hb])
    · exact ih h h' hb

theorem read_writeBytes_congr {m m' : Memory} (h : m.wf) (h' : m'.wf) {a b : Nat} {bs : List Byte}
    (hb : m.read b = m'.read b) : (m.writeBytes a bs).read b = (m'.writeBytes a bs).read b := by
  induction bs generalizing m m' a with
  | nil => exact hb
  | cons c bs ih =>
    exact ih (Memory.wf_write h _ _) (Memory.wf_write h' _ _) (by rw [Memory.read_write h, Memory.read_write h', hb])

theorem wordSeen_congr {s : State} {m : Memory} (hu : s.eng.raced = false) {a : Nat}
    (h : ∀ b < 4, m.read (a + b) = s.mem.read (a + b)) : (s.withMem m).wordSeen a = s.wordSeen a := by
  have h0 := h 0 (by omega)
  rw [Nat.add_zero] at h0
  simp only [State.wordSeen, State.seen_of_unraced (s := s.withMem m) hu, State.seen_of_unraced hu, State.withMem_mem,
    State.withMem_params, h0, h 1 (by omega), h 2 (by omega), h 3 (by omega)]

theorem wordsAt_congr {s : State} {m : Memory} (hu : s.eng.raced = false) {a n : Nat}
    (h : ∀ b, a ≤ b → b < a + 4 * n → m.read b = s.mem.read b) : wordsAt (s.withMem m) a n = wordsAt s a n := by
  induction n generalizing a with
  | zero => rfl
  | succ n ih =>
    simp only [wordsAt]
    rw [ih (fun b h1 h2 => h b (by omega) (by omega)), wordSeen_congr hu (fun b hb => h (a + b) (by omega) (by omega))]

/-- Either every read of a group load is answered with the bytes, or there is a first one that is not. -/
theorem loadReads_total (s : State) (a n : Nat) :
    (∀ j < n, s.readAnswer (a + 16 * j) 16 = .done) ∨
      ∃ j < n, (∀ k < j, s.readAnswer (a + 16 * k) 16 = .done) ∧ s.readAnswer (a + 16 * j) 16 ≠ .done := by
  by_cases h : ∃ j, j < n ∧ s.readAnswer (a + 16 * j) 16 ≠ .done
  · right
    classical
    refine ⟨Nat.find h, (Nat.find_spec h).1, fun k hk => ?_, (Nat.find_spec h).2⟩
    have := Nat.find_min h hk
    by_contra hc
    exact this ⟨by have := (Nat.find_spec h).1; omega, hc⟩
  · left
    intro j hj
    by_contra hc
    exact h ⟨j, hj, hc⟩

theorem readAnswer_withMem (s : State) (m : Memory) (a n : Nat) : (s.withMem m).readAnswer a n =
    s.readAnswer a n := rfl
theorem writeAnswer_withMem (s : State) (m : Memory) (a n : Nat) : (s.withMem m).writeAnswer a n =
    s.writeAnswer a n := rfl

/-- `t` and `t'`, the outcomes of a step from `s` and from `s` with another memory, differ in no register, in no draw and in
no byte that a request of `rs` covers. -/
def Touch (rs : List Request) (t t' : State) : Prop :=
  t'.eng = t.eng ∧ t'.draws = t.draws ∧ ∀ r ∈ rs, ∀ a, r.covers a = true → t'.mem.read a = t.mem.read a

theorem Touch.same {rs : List Request} {s : State} {m : Memory} {t t' : State} (he : t'.eng = t.eng)
    (hd : t'.draws = t.draws) (hm : t.mem = s.mem) (hm' : t'.mem = m)
    (h : ∀ r ∈ rs, ∀ a, r.covers a = true → m.read a = s.mem.read a) : Touch rs t t' :=
  ⟨he, hd, by rw [hm, hm']; exact h⟩

/-- A scalar step of a command in no race depends on the bytes of its requests only. -/
theorem touch_scalar {w : Word} {s : State} {m : Memory} (hs : s.mem.wf) (hm : m.wf) (hu : s.eng.raced = false) (i : Nat)
    (h : ∀ r ∈ scalarRequests w s i, ∀ a, r.covers a = true → m.read a = s.mem.read a) :
    Touch (scalarRequests w s i) (finish s i 1 (sstep w s i)) (finish (s.withMem m) i 1 (sstep w (s.withMem m) i)) := by
  have hw : (s.withMem m).inputWord i = s.inputWord i := by
    rw [State.inputWord_eq, State.inputWord_eq]
    refine wordSeen_congr hu fun b hb => h (.read (s.eng.inAddr i) 4) (by simp [scalarRequests, Config.inScalarBytes]) _ ?_
    rw [covers_read, State.withMem_eng]
    omega
  rw [sstep_eq, sstep_eq, hw, readAnswer_withMem]
  simp only [State.withMem_eng, State.withMem_params, State.withMem_draws]
  rcases hr : s.readAnswer (s.eng.inAddr i) 4 with _ | _ | _
  · rcases hv : fp2i8 (nanResult s.params.nanPolicy (.scalarPath w) s.draws) (s.inputWord i) with _ | v
    · simp only
      exact .same rfl rfl rfl rfl h
    · simp only [writeAnswer_withMem]
      rcases hx : s.writeAnswer (s.eng.outAddr i) 1 with _ | _ | _
      · simp only [State.stored_of_unraced hu, State.stored_of_unraced (s := s.withMem m) hu]
        refine ⟨rfl, rfl, fun r hr' a ha => ?_⟩
        show (m.write _ _).read a = (s.mem.write _ _).read a
        rw [Memory.read_write hm, Memory.read_write hs, h r hr' a ha]; rfl
      · exact .same rfl rfl rfl rfl h
      · exact .same rfl rfl rfl rfl h
  · exact .same rfl rfl rfl rfl h
  · exact .same rfl rfl rfl rfl h

/-- A group step of a command in no race depends on the bytes of its requests only. -/
theorem touch_group {w : Word} {s : State} {m : Memory} (hs : s.mem.wf) (hm : m.wf) (hu : s.eng.raced = false) (g : Group)
    (i : Nat) (h : ∀ r ∈ groupRequests w g s i, ∀ a, r.covers a = true → m.read a = s.mem.read a) :
    Touch (groupRequests w g s i) (finish s i 16 (gstep w g s i))
      (finish (s.withMem m) i 16 (gstep w g (s.withMem m) i)) := by
  rcases loadReads_total s (s.eng.inAddr i) 4 with hall | ⟨j, hj, hb, hn⟩
  · have hall' : ∀ j < 4, (s.withMem m).readAnswer (s.eng.inAddr i + 16 * j) 16 = .done := hall
    have hw : wordsAt (s.withMem m) (s.eng.inAddr i) (4 * 4) = wordsAt s (s.eng.inAddr i) (4 * 4) := by
      refine wordsAt_congr hu fun b h1 h2 => ?_
      refine h (.read (s.eng.inAddr i + 16 * ((b - s.eng.inAddr i) / 16)) 16) ?_ b ?_
      · refine List.mem_append_left _ (loadRequests_all hall (by omega))
      · rw [covers_read]; omega
    have hl := loadVectors_of_done hall
    have hl' : loadVectors (s.withMem m) (s.eng.inAddr i) 4 = .got (wordsAt s (s.eng.inAddr i) (4 * 4)) := by
      rw [← hw]; exact loadVectors_of_done hall'
    rw [gstep_eq, gstep_eq]
    simp only [State.withMem_eng, State.withMem_params, State.withMem_draws, hl, hl']
    rcases hv : laneProcessor s.params.nanPolicy (.laneProcessor w) s.draws (wordsAt s (s.eng.inAddr i) (4 * 4)) with _ | vb
    · exact .same rfl rfl rfl rfl h
    · simp only [writeAnswer_withMem]
      rcases hx : s.writeAnswer (s.eng.outAddr i) vb.length with _ | _ | _
      · simp only [State.storedGroup_of_unraced hu, State.storedGroup_of_unraced (s := s.withMem m) hu]
        exact ⟨rfl, rfl, fun r hr' a ha => read_writeBytes_congr hm hs (h r hr' a ha)⟩
      · simp only [State.storedPartly_of_unraced hu, State.storedPartly_of_unraced (s := s.withMem m) hu]
        exact ⟨rfl, rfl, fun r hr' a ha => read_writeLanded_congr hm hs (h r hr' a ha)⟩
      · exact .same rfl rfl rfl rfl h
  · obtain ⟨e1, e2⟩ := loadVectors_of_first hj hb
    have hb' : ∀ k < j, (s.withMem m).readAnswer (s.eng.inAddr i + 16 * k) 16 = .done := hb
    obtain ⟨e1', e2'⟩ := loadVectors_of_first hj hb'
    rw [gstep_eq, gstep_eq]
    simp only [State.withMem_eng]
    rcases hx : s.readAnswer (s.eng.inAddr i + 16 * j) 16 with _ | _ | _
    · exact absurd hx hn
    · rw [e1 hx, e1' hx]; exact .same rfl rfl rfl rfl h
    · rw [e2 hx, e2' hx]; exact .same rfl rfl rfl rfl h

/-- A scalar step changes no byte but that of its write request. -/
theorem read_scalar_outside {w : Word} {s : State} (hs : s.mem.wf) (i a : Nat)
    (h : ∀ r ∈ scalarRequests w s i, r.isWrite = true → r.covers a = false) :
    (finish s i 1 (sstep w s i)).mem.read a = s.mem.read a := by
  rw [sstep_eq]
  rcases hr : s.readAnswer (s.eng.inAddr i) 4 with _ | _ | _
  · rcases hv : fp2i8 (nanResult s.params.nanPolicy (.scalarPath w) s.draws) (s.inputWord i) with _ | v
    · rfl
    · rcases hx : s.writeAnswer (s.eng.outAddr i) 1 with _ | _ | _
      · have := h (.write (s.eng.outAddr i) 1) (by simp [scalarRequests, sld_eq, hr, srnd_sclip, hv, Config.outScalarBytes]) rfl
        rw [← Bool.not_eq_true, covers_write] at this
        exact (State.storeFrame_stored hs i v).outside a (by simp; omega)
      · rfl
      · rfl
  · rfl
  · rfl

/-- A group step changes no byte but those of its write request. -/
theorem read_group_outside {w : Word} {s : State} (hs : s.mem.wf) (g : Group) (i a : Nat)
    (h : ∀ r ∈ groupRequests w g s i, r.isWrite = true → r.covers a = false) :
    (finish s i 16 (gstep w g s i)).mem.read a = s.mem.read a := by
  rw [gstep_eq]
  rcases hl : loadVectors s (s.eng.inAddr i) 4 with vin | _ | _
  · rcases hv : laneProcessor s.params.nanPolicy (.laneProcessor w) s.draws vin with _ | vb
    · simp only [hv]; rfl
    · have hlen := laneProcessor_length hv
      obtain ⟨e, -⟩ := loadVectors_got hl
      rw [e, length_wordsAt] at hlen
      have := h (.write (s.eng.outAddr i) 16) (List.mem_append_right _ (by rw [ldg_eq, hl]; simp [hv])) rfl
      rw [← Bool.not_eq_true, covers_write] at this
      simp only [hv]
      rcases hx : s.writeAnswer (s.eng.outAddr i) vb.length with _ | _ | _
      · exact (State.storeFrame_storedGroup hs i vb).outside a (by rw [List.length_map, hlen]; omega)
      · exact (State.storeFrame_storedPartly hs i vb).outside a (by rw [List.length_map, hlen]; omega)
      · rfl
  · rfl
  · rfl

/-- A request of a scalar step that is never answered leaves the engine in RUN as it was (42_vector_commands R178). -/
theorem scalar_unanswered {w : Word} {s : State} {i : Nat}
    (h : (∃ a n, Request.read a n ∈ scalarRequests w s i ∧ s.readAnswer a n = .silent) ∨
      ∃ a n, Request.write a n ∈ scalarRequests w s i ∧ s.writeAnswer a n = .silent) :
    finish s i 1 (sstep w s i) = s := by
  rw [sstep_eq]
  simp only [scalarRequests, sld_eq, Config.inScalarBytes, Config.outScalarBytes, List.mem_cons] at h
  rcases hr : s.readAnswer (s.eng.inAddr i) 4 with _ | _ | _
  · simp only [hr, srnd_sclip] at h
    rcases hv : fp2i8 (nanResult s.params.nanPolicy (.scalarPath w) s.draws) (s.inputWord i) with _ | v
    · simp [hv, hr] at h
    · simp only [hv] at h
      rcases h with ⟨a, n, h1, h2⟩ | ⟨a, n, h1, h2⟩
      · simp at h1
        rw [h1.1, h1.2, hr] at h2; simp at h2
      · simp at h1
        rw [h1.1, h1.2] at h2
        simp only [h2]; rfl
  · simp only [hr] at h
    rcases h with ⟨a, n, h1, h2⟩ | ⟨a, n, h1, h2⟩
    · simp at h1
      rw [h1.1, h1.2, hr] at h2; simp at h2
    · simp at h1
  · rfl

/-- A request of a group step that is never answered leaves the engine in RUN as it was (42_vector_commands R178). -/
theorem group_unanswered {w : Word} {g : Group} {s : State} {i : Nat}
    (h : (∃ a n, Request.read a n ∈ groupRequests w g s i ∧ s.readAnswer a n = .silent) ∨
      ∃ a n, Request.write a n ∈ groupRequests w g s i ∧ s.writeAnswer a n = .silent) :
    finish s i 16 (gstep w g s i) = s := by
  rw [gstep_eq]
  rcases loadReads_total s (s.eng.inAddr i) 4 with hall | ⟨j, hj, hb, hn⟩
  · have hl := loadVectors_of_done hall
    rw [hl]
    simp only [groupRequests, ldg_eq, hl, List.mem_append] at h
    have hread : ∀ a n, Request.read a n ∈ loadRequests s (s.eng.inAddr i) Config.loadsPerGroup →
        s.readAnswer a n = .done := by
      intro a n hm
      obtain ⟨j, hj, e⟩ := mem_loadRequests hm
      simp only [Request.read.injEq] at e
      rw [e.1, e.2]; exact hall j hj
    have hnw : ∀ a n, Request.write a n ∉ loadRequests s (s.eng.inAddr i) Config.loadsPerGroup := by
      intro a n hm
      obtain ⟨j, hj, e⟩ := mem_loadRequests hm
      simp at e
    rcases hv : laneProcessor s.params.nanPolicy (.laneProcessor w) s.draws (wordsAt s (s.eng.inAddr i) (4 * 4)) with _ | vb
    · simp only [hv] at h
      rcases h with ⟨a, n, h1 | h1, h2⟩ | ⟨a, n, h1 | h1, h2⟩
      · rw [hread a n h1] at h2; simp at h2
      · simp at h1
      · exact absurd h1 (hnw a n)
      · simp at h1
    · have hlen := laneProcessor_length hv
      rw [length_wordsAt] at hlen
      simp only [hv] at h
      rcases h with ⟨a, n, h1 | h1, h2⟩ | ⟨a, n, h1 | h1, h2⟩
      · rw [hread a n h1] at h2; simp at h2
      · simp at h1
      · exact absurd h1 (hnw a n)
      · simp at h1
        rw [h1.1, h1.2] at h2
        simp only [hv, hlen, h2]; rfl
  · obtain ⟨e1, e2⟩ := loadVectors_of_first hj hb
    have hpos : ∀ r, r ∈ groupRequests w g s i → ∃ k ≤ j, r = .read (s.eng.inAddr i + 16 * k) 16 := by
      intro r hr
      have hg : groupRequests w g s i = loadRequests s (s.eng.inAddr i) 4 := by
        simp only [groupRequests, ldg_eq]
        rcases hx : s.readAnswer (s.eng.inAddr i + 16 * j) 16 with _ | _ | _
        · exact absurd hx hn
        · rw [e1 hx]; simp
        · rw [e2 hx]; simp
      rw [hg] at hr
      exact mem_loadRequests_until hn hr
    rcases h with ⟨a, n, h1, h2⟩ | ⟨a, n, h1, h2⟩
    · obtain ⟨k, hk, e⟩ := hpos _ h1
      simp only [Request.read.injEq] at e
      rw [e.1, e.2] at h2
      have : k = j := by
        by_contra hkj
        rw [hb k (by omega)] at h2
        simp at h2
      subst this
      rw [e2 h2]; rfl
    · obtain ⟨k, hk, e⟩ := hpos _ h1
      simp at e

theorem stepRequests_scalar {w : Word} {g : Option Group} {s : State} (hT : s.eng.idx ≠ s.eng.scalars)
    (hG : ¬(g ≠ none ∧ s.eng.idx + 16 ≤ s.eng.scalars)) : stepRequests w g s = scalarRequests w s s.eng.idx := by
  rcases g with _ | a
  · simp [stepRequests, hT]
  · have : ¬ s.eng.idx + 16 ≤ s.eng.scalars := fun h => hG ⟨by simp, h⟩
    simp [stepRequests, hT, Config.groupScalars, this]

theorem stepRequests_group {w : Word} {a : Group} {s : State} (hg : s.eng.idx + 16 ≤ s.eng.scalars) :
    stepRequests w (some a) s = groupRequests w a s s.eng.idx := by
  have : s.eng.idx ≠ s.eng.scalars := by omega
  simp [stepRequests, this, Config.groupScalars, hg]

theorem shape_scalar {w : Word} {s : State} {i : Nat} {r : Request} (h : r ∈ scalarRequests w s i) :
    r = .read (s.eng.inAddr i) 4 ∨ r = .write (s.eng.outAddr i) 1 := by
  simp only [scalarRequests, List.mem_cons] at h
  rcases h with h | h
  · exact .inl h
  · split at h
    · split at h
      · right; simpa using h
      · simp at h
    · simp at h
    · simp at h

theorem shape_group {w : Word} {g : Group} {s : State} {i : Nat} {r : Request} (h : r ∈ groupRequests w g s i) :
    (∃ j < 4, r = .read (s.eng.inAddr i + 16 * j) 16) ∨ r = .write (s.eng.outAddr i) 16 := by
  simp only [groupRequests, List.mem_append] at h
  rcases h with h | h
  · exact .inl (mem_loadRequests h)
  · split at h
    · split at h
      · right; simpa using h
      · simp at h
    · simp at h
    · simp at h

end Sys2Proof.Machine
end

