-- ==== Sys2Proof/Tests/Slice0.lean ====
section
/-!
SUPPORT. Tests, with expected results from spec/95_test_vectors.md and from the rules by hand, and one witness for the
hypotheses of each obligation.
-/

namespace Sys2Proof.Tests

open Sys2Proof.Machine

/-! ### Helpers -/

/-- The next state of an outcome. -/
def nextOf (o : Host.Outcome State Fault Refusal) : Option State :=
  match o with
  | .next s => some s
  | .fault _ => none
  | .refused _ => none

/-- The reason of a fault. -/
def faultOf (o : Host.Outcome State Fault Refusal) : Option Fault :=
  match o with
  | .next _ => none
  | .fault f => some f
  | .refused _ => none

/-- The reason of a refusal. -/
def refusalOf (o : Host.Outcome State Fault Refusal) : Option Refusal :=
  match o with
  | .next _ => none
  | .fault _ => none
  | .refused r => some r

/-- STATUS, IDX and CMD of the next state. -/
def portOf (o : Host.Outcome State Fault Refusal) : Option (Word × Nat × Word) :=
  (nextOf o).map fun t => (t.eng.status, t.eng.idx, t.eng.cmd)

/-- `n` bytes of the next state's memory from `a` up. -/
def bytesOf (o : Host.Outcome State Fault Refusal) (a n : Nat) : Option (List Byte) :=
  (nextOf o).map fun t => t.mem.readBytes a n

/-- An engine with operands. -/
def ops (dst src count : Nat) : Engine := { Engine.reset with dst := dst, src := src, count := count }

/-- After reset, with operands and memory contents. -/
def idle (e : Engine) (m : Memory) : State := { State.reset with eng := e, mem := m }

/-- Command `i` running with IDX = `n`. -/
def running (i : Instr) (e : Engine) (n : Nat) (m : Memory) : State :=
  { State.reset with eng := { e with cmd := encode i, status := 1#32, idx := n, launch := m }, mem := m }

/-- Halted with STATUS = `st`. -/
def halted (e : Engine) (st : Word) : State := { State.reset with eng := { e with status := st } }

/-- Bytes from an address up. -/
def bytesAt (a : Nat) (bs : List Nat) : Memory := Memory.writeBytes [] a (bs.map (BitVec.ofNat 8))

/-- The input of program P1 at 0x1000. -/
def inputP1 : Memory :=
  bytesAt 0x1000 [0x66, 0x66, 0x02, 0x43, 0x00, 0x00, 0x48, 0xC3, 0x00, 0x00, 0xB0, 0x40, 0x33, 0x33, 0xFF, 0x42]

/-- The scalars of program P2 as bytes. -/
def scalarsP2 : List Nat :=
  [0x00, 0x00, 0x00, 0x3F, 0x00, 0x00, 0xC0, 0x3F, 0x00, 0x00, 0x20, 0x40, 0x00, 0x00, 0x00, 0xBF] ++
  [0x00, 0x00, 0xC0, 0xBF, 0x00, 0x00, 0x20, 0xC0, 0x00, 0x00, 0xFD, 0x42, 0x00, 0x00, 0xFF, 0x42] ++
  [0x00, 0x00, 0xFF, 0xC2, 0x00, 0x80, 0x00, 0xC3, 0x00, 0x00, 0x96, 0x43, 0x00, 0x00, 0x96, 0xC3] ++
  [0x00, 0x00, 0x80, 0x7F, 0x00, 0x00, 0x80, 0xFF, 0x00, 0x00, 0x00, 0x80, 0x01, 0x00, 0x00, 0x00] ++
  [0x00, 0x00, 0xB0, 0x40, 0x00, 0x00, 0x20, 0xC0]

/-- The input of program P2 at 0x1001. -/
def inputP2 : Memory := bytesAt 0x1001 scalarsP2

/-! ### Well-formedness: an ill-formed term for each check -/

theorem test_wf_default_params : Params.default.wellFormed = true := by decide

theorem test_wf_too_few_address_bits : { Params.default with addrBits := 3 }.wellFormed = false := by decide

theorem test_wf_no_engine : { Params.default with numEngines := 0 }.wellFormed = false := by decide

theorem test_wf_write_too_wide :
    HostAction.wellFormed Params.default (.write 4 (2 ^ 32)) = false ∧
      HostAction.wellFormed Params.default (.write 2 (2 ^ 64)) = false ∧
      HostAction.wellFormed Params.default (.write 0 (2 ^ 32)) = false ∧
      HostAction.wellFormed Params.default (.write 9 (2 ^ 70)) = true := by decide

theorem test_wf_no_such_address :
    HostAction.wellFormed Params.default (.load (2 ^ 64)) = false ∧
      HostAction.wellFormed Params.default (.store (2 ^ 64) 0#8) = false := by decide

theorem test_wf_no_such_engine : HostAction.wellFormed Params.default (.select 1) = false := by decide

/-! ### Decoding (30_encoding R91, R92, R97): words written bit by bit, bits 31:2 and bits 1:0 -/

theorem test_decode_convRef : decode 0b000000000000000000000000000000_00#32 = .command .convRef := by decide

theorem test_decode_convVu : decode 0b000000000000000000000000000000_01#32 = .command .convVu := by decide

theorem test_decode_convVa : decode 0b000000000000000000000000000000_10#32 = .command .convVa := by decide

theorem test_decode_reserved_op : decode 0b000000000000000000000000000000_11#32 = .illegal .reservedOp := by decide

theorem test_decode_zero_bit :
    decode 0b000000000000000000000000000001_00#32 = .illegal .zeroBitSet ∧
      decode 0x80000001#32 = .illegal .zeroBitSet := by decide

theorem test_decodeTableWord :
    decodeTableWord 32 0 = some .convRef ∧ decodeTableWord 32 1 = some .convVu ∧
      decodeTableWord 32 2 = some .convVa ∧ decodeTableWord 32 3 = none ∧ decodeTableWord 8 2 = some .convVa := by decide

theorem test_withFetchWord :
    nextOf (step (State.reset.withFetchWord 32 0)) = nextOf (execConvRef State.reset) ∧
      nextOf (step (State.reset.withFetchWord 32 1)) = nextOf (execConvVu State.reset) ∧
      nextOf (step (State.reset.withFetchWord 32 2)) = nextOf (execConvVa State.reset) := by decide

/-! ### FP2I8 (95_test_vectors section 2): the definition and the bit-level form -/

/-- Both forms of the conversion give the result, and it has the byte. -/
def gives (w : Word) (v : Int) (b : Byte) : Bool :=
  decide (fp2i8 none w = some v) && decide (fp2i8Bits w = some v) && decide (byte v = b)

theorem test_fp2i8_ties_small :
    (gives 0x3F000000#32 0 0x00#8 && gives 0xBF000000#32 0 0x00#8 && gives 0x3EFFFFFF#32 0 0x00#8 &&
      gives 0x3F000001#32 1 0x01#8 && gives 0xBF000001#32 (-1) 0xFF#8 && gives 0x3FC00000#32 2 0x02#8 &&
      gives 0x3FBFFFFF#32 1 0x01#8 && gives 0x3FC00001#32 2 0x02#8 && gives 0xBFC00000#32 (-2) 0xFE#8 &&
      gives 0x40200000#32 2 0x02#8 && gives 0xC0200000#32 (-2) 0xFE#8 && gives 0x40600000#32 4 0x04#8) = true := by decide

theorem test_fp2i8_ties_large :
    (gives 0x40900000#32 4 0x04#8 && gives 0xC0600000#32 (-4) 0xFC#8 && gives 0xC0900000#32 (-4) 0xFC#8 &&
      gives 0x40B00000#32 6 0x06#8 && gives 0x40D00000#32 6 0x06#8 && gives 0x40F00000#32 8 0x08#8 &&
      gives 0x427E0000#32 64 0x40#8 && gives 0x42810000#32 64 0x40#8 && gives 0xC27E0000#32 (-64) 0xC0#8 &&
      gives 0xC2810000#32 (-64) 0xC0#8 && gives 0x3F400000#32 1 0x01#8 && gives 0xBF400000#32 (-1) 0xFF#8) = true := by
  decide

theorem test_fp2i8_upper_bound :
    (gives 0x42FC0000#32 126 0x7E#8 && gives 0x42FD0000#32 126 0x7E#8 && gives 0x42FD0001#32 127 0x7F#8 &&
      gives 0x42FDFFFF#32 127 0x7F#8 && gives 0x42FE0000#32 127 0x7F#8 && gives 0x42FE0001#32 127 0x7F#8 &&
      gives 0x42FEFFFF#32 127 0x7F#8 && gives 0x42FF0000#32 127 0x7F#8 && gives 0x43000000#32 127 0x7F#8 &&
      gives 0x43960000#32 127 0x7F#8 && gives 0x501502F9#32 127 0x7F#8 && gives 0x7F7FFFFF#32 127 0x7F#8 &&
      gives 0x7F800000#32 127 0x7F#8) = true := by decide

theorem test_fp2i8_lower_bound :
    (gives 0xC2FE0000#32 (-127) 0x81#8 && gives 0xC2FEFFFF#32 (-127) 0x81#8 && gives 0xC2FF0000#32 (-128) 0x80#8 &&
      gives 0xC2FF0001#32 (-128) 0x80#8 && gives 0xC3000000#32 (-128) 0x80#8 && gives 0xC3000001#32 (-128) 0x80#8 &&
      gives 0xC3008000#32 (-128) 0x80#8 && gives 0xC3010000#32 (-128) 0x80#8 && gives 0xC3960000#32 (-128) 0x80#8 &&
      gives 0xD01502F9#32 (-128) 0x80#8 && gives 0xFF7FFFFF#32 (-128) 0x80#8 &&
      gives 0xFF800000#32 (-128) 0x80#8) = true := by decide

theorem test_fp2i8_zeros_and_plain :
    (gives 0x00000000#32 0 0x00#8 && gives 0x80000000#32 0 0x00#8 && gives 0x00000001#32 0 0x00#8 &&
      gives 0x80000001#32 0 0x00#8 && gives 0x007FFFFF#32 0 0x00#8 && gives 0x3F800000#32 1 0x01#8 &&
      gives 0xBF800000#32 (-1) 0xFF#8 && gives 0x42C80000#32 100 0x64#8 && gives 0xC2C80000#32 (-100) 0x9C#8 &&
      gives 0x43026666#32 127 0x7F#8 && gives 0xC3480000#32 (-128) 0x80#8 && gives 0x42FF3333#32 127 0x7F#8) = true := by
  decide

theorem test_nan_words :
    (isNaN 0x7FC00000#32 && isNaN 0xFFC00000#32 && isNaN 0x7F800001#32 && isNaN 0x7FFFFFFF#32 &&
      !isNaN 0x7F800000#32 && !isNaN 0xFF800000#32) = true := by decide

theorem test_nan_policies :
    fp2i8 (nanResult (.fixed 0#8) (.observer .agent 0) 0) 0x7F800001#32 = some 0 ∧
      fp2i8 (nanResult (.fixed 0x80#8) (.reset 0) 0) 0xFFC00000#32 = some (-128) ∧
      fp2i8 (nanResult .fault (.scalarPath 0#32) 0) 0x7FC00000#32 = none := by decide

theorem test_sat8 :
    [0, 6, 127, 128, 300, 32768, -1, -128, -129, -2147483648].map sat8 =
      [0, 6, 127, 127, 127, 127, -1, -128, -128, -128] := by decide

theorem test_byte_order :
    word32 .little 0x66#8 0x66#8 0x02#8 0x43#8 = 0x43026666#32 ∧
      word32 .big 0x43#8 0x02#8 0x66#8 0x66#8 = 0x43026666#32 := by decide

/-! ### Steps (95_test_vectors sections 3.2, 3.3, 5) -/

/-- SSTEP(2) of program P1: 5.5 at 0x1008 becomes 06 at 0x2002. -/
theorem test_convRef_scalar_step :
    bytesOf (execConvRef (running .convRef (ops 0x2000 0x1000 2) 2 inputP1)) 0x2001 3 = some [0x00#8, 0x06#8, 0x00#8] ∧
      portOf (execConvRef (running .convRef (ops 0x2000 0x1000 2) 2 inputP1)) = some (1#32, 3, 0#32) := by decide

theorem test_convRef_completes :
    portOf (execConvRef (running .convRef (ops 0x2000 0x1000 2) 4 inputP1)) = some (2#32, 4, 0#32) := by decide

/-- Vector G1: one group step at odd addresses. -/
theorem test_convVu_group_step :
    bytesOf (execConvVu (running .convVu (ops 0x2003 0x1001 9) 0 inputP2)) 0x2002 18 =
        some ([0x00, 0x00, 0x02, 0x02, 0x00, 0xFE, 0xFE, 0x7E, 0x7F, 0x80, 0x80, 0x7F, 0x80, 0x7F, 0x80, 0x00, 0x00,
          0x00].map (BitVec.ofNat 8)) ∧
      portOf (execConvVu (running .convVu (ops 0x2003 0x1001 9) 0 inputP2)) = some (1#32, 16, 1#32) := by decide

/-- SSTEP(17) of program P2: -2.5 at 0x1045 becomes FE at 0x2014. -/
theorem test_convVu_tail_step :
    bytesOf (execConvVu (running .convVu (ops 0x2003 0x1001 9) 17 inputP2)) 0x2013 3 = some [0x00#8, 0xFE#8, 0x00#8] ∧
      portOf (execConvVu (running .convVu (ops 0x2003 0x1001 9) 17 inputP2)) = some (1#32, 18, 1#32) := by decide

/-- Program P6: the group step of CONV.VA on the same scalars. -/
theorem test_convVa_group_step :
    bytesOf (execConvVa (running .convVa (ops 0x5000 0x3000 9) 0 (bytesAt 0x3000 scalarsP2))) 0x5000 17 =
      some ([0x00, 0x02, 0x02, 0x00, 0xFE, 0xFE, 0x7E, 0x7F, 0x80, 0x80, 0x7F, 0x80, 0x7F, 0x80, 0x00, 0x00,
        0x00].map (BitVec.ofNat 8)) := by decide

/-- The first row with `ENDIAN = big` of section 3.3. -/
theorem test_big_endian_step :
    bytesOf (execConvRef { running .convRef (ops 0x2000 0x1000 1) 0 (bytesAt 0x1000 [0x43, 0x02, 0x66, 0x66]) with
      params := { Params.default with endian := .big } }) 0x2000 1 = some [0x7F#8] := by decide

/-- Program P5: the platform grants 12 input scalars. -/
def shortInput (i : Instr) (n : Nat) : State :=
  { running i (ops 0x2000 0x1000 9) n [] with platform := [⟨none, 0x1000, 0x30, .done, .error⟩,
    ⟨none, 0x2000, 0x12, .error, .done⟩, ⟨none, 0, 2 ^ 64, .error, .error⟩] }

theorem test_short_input_reference :
    portOf (execConvRef (shortInput .convRef 11)) = some (1#32, 12, 0#32) ∧
      portOf (execConvRef (shortInput .convRef 12)) = some (0x44#32, 12, 0#32) := by decide

theorem test_short_input_vector : portOf (execConvVu (shortInput .convVu 0)) = some (0x44#32, 0, 1#32) := by decide

/-- Under `NAN_POLICY = fault` a NaN in lane 1 stops the group step and nothing is stored; the draws count on. -/
theorem test_nan_fault :
    (nextOf (execConvVu { running .convVu (ops 0x2000 0x1000 8) 0 (bytesAt 0x1004 [0x00, 0x00, 0xC0, 0x7F]) with
      params := { Params.default with nanPolicy := .fault } })).map (·.draws) = some 16 ∧
    portOf (execConvVu { running .convVu (ops 0x2000 0x1000 8) 0 (bytesAt 0x1004 [0x00, 0x00, 0xC0, 0x7F]) with
      params := { Params.default with nanPolicy := .fault } }) = some (0x64#32, 0, 1#32) := by decide

/-! ### The command port (95_test_vectors section 4) -/

/-- The machine with one action of the host to come. -/
def withAction (s : State) (act : HostAction) : State := s.withInputs [act]

/-- A1, A14, A15: reads after reset, a register that does not exist. -/
theorem test_A1_A15_reads :
    (nextOf (step (withAction State.reset (.read 1)))).map (·.answers) = some [.reg 1 0] ∧
      (nextOf (step (withAction State.reset (.read 6)))).map (·.answers) = some [.reg 6 0] := by decide

theorem test_A2_empty_command :
    portOf (step (withAction State.reset (.write 0 0))) = some (1#32, 0, 0#32) ∧
      portOf (execConvRef (running .convRef (ops 0 0 0) 0 [])) = some (2#32, 0, 0#32) := by decide

theorem test_A3_A4_A5_illegal_words :
    portOf (step (withAction State.reset (.write 0 3))) = some (0x14#32, 0, 0#32) ∧
      portOf (step (withAction State.reset (.write 0 4))) = some (0x14#32, 0, 0#32) ∧
      portOf (step (withAction State.reset (.write 0 0x80000001))) = some (0x14#32, 0, 0#32) := by decide

theorem test_A6_range_before_alignment :
    portOf (execConvVa (idle (ops 0xFFFFFFFFFFFFFFF8 0x4004 8) [])) = some (0x24#32, 0, 0#32) := by decide

theorem test_A7_top_of_memory :
    portOf (execConvVa (idle (ops 0xFFFFFFFFFFFFFFF0 0x4000 8) [])) = some (1#32, 0, 2#32) := by decide

theorem test_A8_A9_A10_alignment :
    portOf (execConvVa (idle (ops 0x8000 0x4004 8) [])) = some (0x34#32, 0, 0#32) ∧
      portOf (execConvVu (idle (ops 0x8000 0x4004 8) [])) = some (1#32, 0, 1#32) ∧
      portOf (execConvVa (idle (ops 0x8001 0x4000 0) [])) = some (0x34#32, 0, 0#32) := by decide

theorem test_A11_writes_while_running :
    portOf (step (withAction (running .convRef (ops 0x2000 0x1000 2) 1 []) (.write 0 3))) = some (1#32, 1, 0#32) ∧
      (nextOf (step (withAction (running .convRef (ops 0x2000 0x1000 2) 1 []) (.write 4 5)))).map (·.eng.count) =
        some 2 := by decide

theorem test_A12_A13_halted :
    portOf (step (withAction (halted (ops 0x8000 0x4004 8) 0x34#32) (.write 0 0))) = some (0x34#32, 0, 0#32) ∧
      (nextOf (step (withAction (halted (ops 0x8000 0x4004 8) 0x34#32) .reset))).map (·.eng) = some Engine.reset := by
  decide

theorem test_A14_A16_operand_writes :
    (nextOf (step (withAction (idle { ops 1 2 2 with status := 2#32, idx := 4 } []) (.write 4 1)))).map (·.eng) =
        some { ops 1 2 1 with status := 2#32, idx := 4 } ∧
      (nextOf (step (withAction State.reset (.write 1 0xFFFFFFFF)))).map (·.eng) = some Engine.reset ∧
      (nextOf (step (withAction State.reset (.write 5 7)))).map (·.eng) = some Engine.reset := by decide

theorem test_A17_next_command :
    portOf (execConvRef (idle { ops 0x2000 0x1000 1 with status := 2#32, idx := 4 } [])) = some (1#32, 0, 0#32) := by decide

theorem test_step_counts :
    [0, 1, 7, 8, 9, 15, 16, 1000, 1003].map (stepsBeforeCompletion .convRef) =
        [0, 2, 14, 16, 18, 30, 32, 2000, 2006] ∧
      [0, 1, 7, 8, 9, 15, 16, 1000, 1003].map (stepsBeforeCompletion .convVu) =
        [0, 2, 14, 1, 3, 15, 2, 125, 131] := by decide

/-- The encoding of program P2 (30_encoding R99). -/
theorem test_assembler_P2 :
    AsmLine.expansions (.conv .convVu 0x2003 0x1001 9) =
      [[.write 2 0x2003, .write 3 0x1001, .write 4 9, .write 0 1]] := by decide

/-! ### Witnesses: for every obligation with hypotheses, states and operands that meet them -/

/-- The three commands. -/
def commands : List Instr := [.convRef, .convVu, .convVa]

/-- The vector commands. -/
def vectors : List Instr := [.convVu, .convVa]

/-- Program P1's operands and input, command `i` running with IDX = `n`. -/
def runP1 (i : Instr) (n : Nat) : State := running i (ops 0x2000 0x1000 2) n inputP1

/-- Nine samples at aligned addresses, command `i` running with IDX = `n`. -/
def runP6 (i : Instr) (n : Nat) : State := running i (ops 0x5000 0x3000 9) n (bytesAt 0x3000 scalarsP2)

/-- Eight samples, exactly one group. -/
def runGroup (i : Instr) : State := running i (ops 0x5000 0x3000 8) 0 (bytesAt 0x3000 scalarsP2)

theorem test_witness_DecodeEncodeAgree :
    (∀ i ∈ commands, i.wellFormed = true) ∧ decode 2#32 = .command .convVa := by decide

theorem test_witness_CommandWriteRunsDecodedCommand :
    ∀ i ∈ commands,
      (withAction State.reset (.write 0 (encode i).toNat)).inputs = [.write 0 (encode i).toNat] ∧
      (withAction State.reset (.write 0 (encode i).toNat)).eng.live = true ∧
      (withAction State.reset (.write 0 (encode i).toNat)).eng.phase = .idle ∧
      decode (BitVec.ofNat 32 (encode i).toNat) = .command i ∧ i.wellFormed = true := by decide

theorem test_witness_RunningEngineStepsLatchedCommand :
    ∀ i ∈ commands,
      (runP1 i 0).eng.live = true ∧ (runP1 i 0).eng.phase = .run ∧ decode (runP1 i 0).eng.cmd = .command i ∧
      i.wellFormed = true ∧ (runP1 i 0).inputs = [] ∧ (withAction (runP1 i 0) .tick).inputs = [.tick] := by decide

theorem test_witness_IllegalCommandWordFaults :
    (∀ w ∈ [3#32, 4#32, 0x80000001#32], w.extractLsb' 0 2 = 3#2 ∨ w.extractLsb' 2 30 ≠ 0#30) ∧
    (∀ w ∈ [0#32, 1#32, 2#32], ¬(w.extractLsb' 0 2 = 3#2 ∨ w.extractLsb' 2 30 ≠ 0#30)) ∧
    (∀ w : Word, (withAction State.reset (.write 0 w.toNat)).inputs = [.write 0 w.toNat]) ∧
    State.reset.eng.live = true ∧ statusLegal State.reset.eng.status = true ∧ State.reset.eng.phase = .idle :=
  ⟨by simp, by simp, fun _ => rfl, by decide, by decide, by decide⟩

theorem test_witness_CommandWriteIgnoredOutsideIdle :
    ∀ s ∈ [runP1 .convRef 1, halted (ops 0 0 0) 0x34#32],
      (withAction s (.write 0 1)).inputs = [.write 0 1] ∧ (withAction s (.write 0 1)).eng.live = true ∧
      (withAction s (.write 0 1)).eng.phase ≠ .idle := by decide

theorem test_witness_OperandWritesOnlyInIdle :
    ∀ s ∈ [State.reset, runP1 .convRef 1, halted (ops 0 0 0) 0x34#32],
      ∀ r ∈ [(1, 2 ^ 32 - 1), (2, 2 ^ 64 - 1), (3, 2 ^ 64 - 1), (4, 2 ^ 32 - 1), (5, 7), (6, 2 ^ 70)],
        (withAction s (.write r.1 r.2)).inputs = [.write r.1 r.2] ∧ (withAction s (.write r.1 r.2)).eng.live = true ∧
        r.1 ≠ 0 ∧ HostAction.wellFormed s.params (.write r.1 r.2) = true := by decide +kernel

theorem test_witness_RegisterReadsHaveNoSideEffect :
    ∀ s ∈ [State.reset, runP1 .convRef 1, halted (ops 0 0 0) 0x34#32], ∀ r ∈ [0, 1, 2, 3, 4, 5, 6],
      (withAction s (.read r)).inputs = [.read r] ∧ (withAction s (.read r)).eng.live = true := by decide +kernel

theorem test_witness_WaitEndsOnDoneOrErr :
    (∀ s ∈ [halted (ops 0 0 0) 0x2#32, halted (ops 0 0 0) 0x14#32],
      (withAction s .wait).inputs = [.wait] ∧ (withAction s .wait).eng.live = true ∧
      (statusDone s.eng.status = true ∨ statusErr s.eng.status = true)) ∧
    ∀ s ∈ [State.reset, runP1 .convRef 1],
      (withAction s .wait).inputs = [.wait] ∧ (withAction s .wait).eng.live = true ∧
      ¬(statusDone s.eng.status = true ∨ statusErr s.eng.status = true) := by decide

/-- The running engine of `runP1` reads 0x1000 to 0x100F and writes 0x2000 to 0x2003. -/
theorem test_witness_AgentAccessesRaceInBusyBuffers_load :
    (runP1 .convRef 1).mem.wf ∧ (runP1 .convRef 1).params.space ≤ 2 ^ 64 ∧
    (∀ a ∈ [0x2000, 0x2003], a < (runP1 .convRef 1).params.space ∧ (withAction (runP1 .convRef 1) (.load a)).inputs = [.load a] ∧
      ∃ e ∈ (runP1 .convRef 1).engines, e.running = true ∧ e.dst ≤ a ∧ a < e.dst + 2 * e.count) ∧
    (0x1000, 0x66#8) ∈ ((runP1 .convRef 1).withContested [(0x1000, 0x66#8), (0x1000, 5#8)]).contested ∧
    ∀ a ∈ [0x1000, 0x1FFF, 0x2004, 2 ^ 64 - 1], a < (runP1 .convRef 1).params.space ∧ (runP1 .convRef 1).contested = [] ∧
      ∀ e ∈ (runP1 .convRef 1).engines, e.running = true → ¬(e.dst ≤ a ∧ a < e.dst + 2 * e.count) := by decide

theorem test_witness_AgentAccessesRaceInBusyBuffers_store :
    (∀ a ∈ [0x1000, 0x100F, 0x2000, 0x2003], a < (runP1 .convRef 1).params.space ∧
      (withAction (runP1 .convRef 1) (.store a 5#8)).inputs = [.store a 5#8] ∧
      ∃ e ∈ (runP1 .convRef 1).engines, e.running = true ∧
        ((e.src ≤ a ∧ a < e.src + 8 * e.count) ∨ (e.dst ≤ a ∧ a < e.dst + 2 * e.count))) ∧
    ∀ a ∈ [0xFFF, 0x1010, 0x1FFF, 0x2004], a < (runP1 .convRef 1).params.space ∧
      ∀ e ∈ (runP1 .convRef 1).engines, e.running = true →
        ¬((e.src ≤ a ∧ a < e.src + 8 * e.count) ∨ (e.dst ≤ a ∧ a < e.dst + 2 * e.count)) := by decide

/-- R80: a byte written to a BUSY engine's input puts its command in a race, in which both values of that byte may be read;
a reader of its output finds the value from before the command, what memory holds, or the converted value. -/
theorem test_race :
    (nextOf (step (withAction (runP1 .convRef 1) (.store 0x1000 5#8)))).map
        (fun t => (t.mem.read 0x1000, t.contested, t.eng.raced)) =
      some (5#8, [(0x1000, 0x66#8), (0x1000, 5#8)], true) ∧
    (runP1 .convRef 3).candidates .agent (runP1 .convRef 3).engines 0x2003 = [0x00#8, 0x00#8, 0x7F#8] ∧
    (runP1 .convRef 3).candidates (.engine 0) [] 0x1003 = [0x43#8] := by decide

/-- An engine before its first reset. -/
def powerUp : State := { State.reset with eng := { Engine.reset with live := false, status := 0x1#32 } }

theorem test_witness_NoRuleBeforeFirstReset :
    powerUp.eng.live = false ∧ powerUp.inputs = [] ∧ (withAction powerUp (.read 1)).inputs = [.read 1] ∧
    (withAction powerUp (.write 0 0)).inputs = [.write 0 0] ∧ (withAction powerUp .tick).inputs = [.tick] ∧
    (withAction powerUp .wait).inputs = [.wait] ∧ (withAction powerUp .reset).inputs = [.reset] := by decide

theorem test_witness_ResetOutsideRunChangesNoMemory :
    ∀ s ∈ [State.reset, halted (ops 1 2 3) 0x44#32, halted (ops 1 2 3) 0x2#32],
      (withAction s .reset).inputs = [.reset] ∧ (withAction s .reset).eng.phase ≠ .run := by decide

/-- Program P1's engine in RUN meets the invariant. -/
theorem inv_runP1 : ∀ i ∈ [(Instr.convRef, 0), (.convRef, 3), (.convVu, 3), (.convVa, 3), (.convRef, 4)], (runP1 i.1 i.2).Inv := by
  intro i hi
  refine ⟨show Params.default.wellFormed = true by decide, rfl, ?_, ?_, ?_,
    by simp [State.engines, runP1, running, State.reset, State.resetWith, Params.default],
    fun _ hc => absurd hc List.not_mem_nil⟩
  · show inputP1.wf; decide
  · show inputP1.below (2 ^ 64); decide
  · intro e he _
    have he : e = (runP1 i.1 i.2).eng := by
      simpa [State.engines, runP1, running, State.reset, State.resetWith, Params.default] using he
    subst he
    fin_cases hi <;>
      exact ⟨by decide, by decide, by decide, by decide, by decide, ⟨_, rfl⟩,
        fun _ => ⟨by decide, by decide, by decide, by decide, by decide⟩, by decide, by decide⟩

/-- Just accepted, nothing has been converted yet. -/
theorem progress_runP1 : (runP1 .convRef 0).Progress (runP1 .convRef 0).eng :=
  ⟨fun _ _ => rfl, fun _ hk => absurd hk (Nat.not_lt_zero _), fun _ _ _ => rfl⟩

/-- A command in no race, one that has done what it should so far, and one in a race. -/
theorem test_witness_ResetInRunLeavesOldOrConverted :
    ((withAction (runP1 .convRef 3) .reset).Inv ∧ (withAction (runP1 .convRef 3) .reset).inputs = [.reset] ∧
      (withAction (runP1 .convRef 3) .reset).eng.live = true ∧ (withAction (runP1 .convRef 3) .reset).eng.phase = .run ∧
      (withAction (runP1 .convRef 3) .reset).eng.raced = false ∧
      ∀ k < 4, isNaN (scalarAt .little inputP1 (0x1000 + 4 * k)) = false) ∧
    ((withAction (runP1 .convRef 0) .reset).Inv ∧
      (withAction (runP1 .convRef 0) .reset).Progress (withAction (runP1 .convRef 0) .reset).eng) ∧
    (withAction ((runP1 .convRef 3).mark fun _ => true) .reset).Inv ∧
    (withAction ((runP1 .convRef 3).mark fun _ => true) .reset).eng.raced = true :=
  ⟨⟨(inv_runP1 (.convRef, 3) (by decide)).congr rfl rfl rfl rfl rfl rfl, by decide, by decide, by decide, by decide,
      by decide⟩,
    ⟨(inv_runP1 (.convRef, 0) (by decide)).congr rfl rfl rfl rfl rfl rfl,
      ⟨progress_runP1.input, progress_runP1.stored, progress_runP1.untouched⟩⟩,
    ((inv_runP1 (.convRef, 3) (by decide)).mark fun _ => true).congr rfl rfl rfl rfl rfl rfl, by decide⟩

theorem test_witness_FaultEntry :
    ∀ s ∈ [State.reset, runP1 .convRef 1], statusLegal s.eng.status = true ∧ s.eng.live = true ∧ s.inputs = [] := by decide

theorem test_witness_AddressRangeFaultAtCommand :
    ∀ s ∈ [idle (ops 0 (2 ^ 64 - 15) 2) [], idle (ops (2 ^ 64 - 3) 0 2) [], idle (ops 0xFFFFFFFFFFFFFFF8 0x4004 8) []],
      s.eng.phase = .idle ∧ statusLegal s.eng.status = true ∧
      (s.eng.src + 8 * s.eng.count > 2 ^ s.params.addrBits ∨ s.eng.dst + 2 * s.eng.count > 2 ^ s.params.addrBits) := by
  decide

theorem test_witness_MisalignedFaultAtConvVa :
    ∀ s ∈ [idle (ops 0x8000 (2 ^ 64 - 24) 3) [], idle (ops (2 ^ 64 - 6) 0x4000 3) [], idle (ops 0x8001 0x4000 0) []],
      s.eng.phase = .idle ∧ statusLegal s.eng.status = true ∧
      s.eng.src + 8 * s.eng.count ≤ 2 ^ s.params.addrBits ∧ s.eng.dst + 2 * s.eng.count ≤ 2 ^ s.params.addrBits ∧
      (s.eng.src % 16 ≠ 0 ∨ s.eng.dst % 16 ≠ 0) := by decide

/-- Two engines, the second running program P1 while the first has the given operands. -/
def two (e : Engine) : State :=
  { runP1 .convRef 1 with
    eng := e, after := [(runP1 .convRef 1).eng], params := { Params.default with numEngines := 2 } }

/-- Two engines that run program P1's buffers and the given ones at once, with a race between them. -/
def clashing (i : Instr) (e : Engine) (n : Nat) : State :=
  { runP1 i n with
    eng := { (runP1 i n).eng with raced := true }
    after := [{ e with status := 1#32, raced := true }]
    params := { Params.default with numEngines := 2 } }

/-- Overlapping buffers, a clash with a running engine, and an input shared with one. -/
theorem test_witness_OverlapRefusedClashRaces :
    (∀ s ∈ [idle (ops 0x1000 0x1000 1) [], idle (ops 0x1010 0x1000 3) []],
      s.eng.phase = .idle ∧ statusLegal s.eng.status = true ∧ s.eng.src + 8 * s.eng.count ≤ 2 ^ s.params.addrBits ∧
      s.eng.dst + 2 * s.eng.count ≤ 2 ^ s.params.addrBits ∧ s.eng.src % 16 = 0 ∧ s.eng.dst % 16 = 0 ∧
      s.eng.src ≤ s.eng.dst ∧ s.eng.dst < s.eng.src + 8 * s.eng.count ∧ s.eng.dst < s.eng.dst + 2 * s.eng.count) ∧
    (∀ s ∈ [two (ops 0x1000 0x4000 1), two (ops 0x8000 0x2000 1), two (ops 0x4000 0x1000 2)],
      s.eng.phase = .idle ∧ statusLegal s.eng.status = true ∧ s.eng.src + 8 * s.eng.count ≤ 2 ^ s.params.addrBits ∧
      s.eng.dst + 2 * s.eng.count ≤ 2 ^ s.params.addrBits ∧ s.eng.src % 16 = 0 ∧ s.eng.dst % 16 = 0 ∧
      s.eng.buffersDisjoint = true) ∧
    (∀ s ∈ [two (ops 0x1000 0x4000 1), two (ops 0x8000 0x2000 1)], ∃ f ∈ s.before ++ s.after,
      f.running = true ∧ s.eng.compatible f = false) ∧
    ∀ f ∈ (two (ops 0x4000 0x1000 2)).before ++ (two (ops 0x4000 0x1000 2)).after,
      f.running = true ∧ f.src = 0x1000 ∧ (two (ops 0x4000 0x1000 2)).eng.compatible f = true := by decide

/-- R83: two engines may share an input buffer; a launch whose output lies in the input of a running command puts both in a
race. -/
theorem test_two_engines :
    (∀ i ∈ commands, (nextOf (exec i (two (ops 0x4000 0x1000 2)))).map (fun t => t.engines.map fun e =>
        (e.running, e.src, e.raced)) = some [(true, 0x1000, false), (true, 0x1000, false)]) ∧
    ∀ i ∈ commands, (nextOf (exec i (two (ops 0x1000 0x4000 1)))).map (fun t => t.engines.map fun e =>
        (e.running, e.src, e.raced)) = some [(true, 0x4000, true), (true, 0x1000, true)] := by decide

/-- R232: a window of engine 1's port says nothing of engine 0's. -/
theorem test_window_of_a_port :
    ((two (ops 0 0 0)).withPlatform [⟨some 1, 0, 2 ^ 64, .error, .error⟩]).readAnswer 0x1000 16 = .done ∧
    (selectEngine 1 ((two (ops 0 0 0)).withPlatform [⟨some 1, 0, 2 ^ 64, .error, .error⟩])).readAnswer 0x1000 16 =
      .error := by decide

theorem test_witness_ScalarLoadFault :
    ∀ i ∈ commands, (shortInput i 12).eng.phase = .run ∧ statusLegal (shortInput i 12).eng.status = true ∧
      (shortInput i 12).eng.idx < 2 * (shortInput i 12).eng.count ∧
      2 * (shortInput i 12).eng.count < (shortInput i 12).eng.idx + 16 ∧
      (shortInput i 12).readAnswer ((shortInput i 12).eng.src + 4 * (shortInput i 12).eng.idx) 4 = .error := by decide

theorem test_witness_GroupLoadFault :
    ∀ i ∈ vectors, i ≠ .convRef ∧ (shortInput i 0).eng.phase = .run ∧ statusLegal (shortInput i 0).eng.status = true ∧
      (shortInput i 0).eng.idx + 16 ≤ 2 * (shortInput i 0).eng.count ∧
      (∀ j < 3, (shortInput i 0).readAnswer (0x1000 + 4 * 0 + 16 * j) 16 = .done) ∧
      (shortInput i 0).readAnswer (0x1000 + 4 * 0 + 16 * 3) 16 = .error := by decide

/-- The platform answers every write with `x` and every read with done. -/
def badOutput (s : State) (x : Answer) : State := { s with platform := [⟨none, 0, 2 ^ 64, .done, x⟩] }

/-- The platform answers every read with `x`. -/
def badInput (s : State) (x : Answer) : State := { s with platform := [⟨none, 0, 2 ^ 64, x, .done⟩] }

theorem test_witness_ScalarStoreFault :
    ∀ i ∈ commands, ∀ s ∈ [badOutput (runP1 i 2) .error], s.eng.phase = .run ∧ statusLegal s.eng.status = true ∧
      s.eng.idx < 2 * s.eng.count ∧ 2 * s.eng.count < s.eng.idx + 16 ∧
      s.readAnswer (s.eng.src + 4 * s.eng.idx) 4 = .done ∧
      fp2i8 (nanResult s.params.nanPolicy (.scalarPath (encode i)) s.draws) (s.inputWord s.eng.idx) = some 6 ∧
      s.writeAnswer (s.eng.dst + s.eng.idx) 1 = .error := by decide

/-- The integers of vector G1. -/
def valuesG1 : List Int := [0, 2, 2, 0, -2, -2, 126, 127, -128, -128, 127, -128, 127, -128, 0, 0]

theorem test_witness_GroupStoreFault :
    ∀ i ∈ vectors, ∀ s ∈ [badOutput (runGroup i) .error], i ≠ .convRef ∧ s.mem.wf ∧ s.eng.phase = .run ∧
      statusLegal s.eng.status = true ∧ s.eng.idx + 16 ≤ 2 * s.eng.count ∧
      (∀ j < 4, s.readAnswer (s.eng.src + 4 * s.eng.idx + 16 * j) 16 = .done) ∧ valuesG1.length = 16 ∧
      (∀ k < 16, fp2i8 (nanResult s.params.nanPolicy (.laneProcessor (encode i)) (s.draws + k))
        (s.inputWord (s.eng.idx + k)) = valuesG1[k]?) ∧
      s.writeAnswer (s.eng.dst + s.eng.idx) 16 = .error := by decide

/-- A NaN as scalar 1 of eight samples, under `NAN_POLICY = fault`. -/
def nanRun (i : Instr) (n : Nat) (pol : NanPolicy) : State :=
  { running i (ops 0x2000 0x1000 8) n (bytesAt 0x1004 [0x00, 0x00, 0xC0, 0x7F]) with
    params := { Params.default with nanPolicy := pol } }

theorem test_witness_NaNInputFaultStoresNothing :
    (∀ i ∈ commands, ∀ s ∈ [nanRun i 1 .fault], s.eng.phase = .run ∧ statusLegal s.eng.status = true ∧
      s.params.nanPolicy = .fault ∧ s.eng.idx < 2 * s.eng.count ∧ (i = .convRef ∨ 2 * s.eng.count < s.eng.idx + 16) ∧
      s.readAnswer (s.eng.src + 4 * s.eng.idx) 4 = .done ∧ isNaN (s.inputWord s.eng.idx) = true) ∧
    ∀ i ∈ vectors, ∀ s ∈ [nanRun i 0 .fault], s.eng.phase = .run ∧ statusLegal s.eng.status = true ∧
      s.params.nanPolicy = .fault ∧ i ≠ .convRef ∧ s.eng.idx + 16 ≤ 2 * s.eng.count ∧
      (∀ j < 4, s.readAnswer (s.eng.src + 4 * s.eng.idx + 16 * j) 16 = .done) ∧
      ∃ k < 16, isNaN (s.inputWord (s.eng.idx + k)) = true := by decide

theorem test_witness_UnansweredRequestLeavesRun :
    (∀ i ∈ commands, (runP1 i 2).eng.phase = .run ∧ (runP1 i 2).eng.idx < 2 * (runP1 i 2).eng.count ∧
      2 * (runP1 i 2).eng.count < (runP1 i 2).eng.idx + 16 ∧
      (badInput (runP1 i 2) .silent).readAnswer (0x1000 + 4 * 2) 4 = .silent ∧
      (badOutput (runP1 i 2) .silent).readAnswer (0x1000 + 4 * 2) 4 = .done ∧
      isNaN ((badOutput (runP1 i 2) .silent).inputWord 2) = false ∧
      (badOutput (runP1 i 2) .silent).writeAnswer (0x2000 + 2) 1 = .silent ∧
      .write (0x2000 + 2) 1 ∈ commandRequests i (badOutput (runP1 i 2) .silent)) ∧
    (∀ i ∈ vectors, (badInput (runGroup i) .silent).eng.phase = .run ∧
      (badInput (runGroup i) .silent).eng.idx + 16 ≤ 2 * (badInput (runGroup i) .silent).eng.count ∧
      (badInput (runGroup i) .silent).readAnswer (0x3000 + 4 * 0 + 16 * 0) 16 = .silent ∧
      (∀ j < 4, (badOutput (runGroup i) .silent).readAnswer (0x3000 + 4 * 0 + 16 * j) 16 = .done) ∧
      (badOutput (runGroup i) .silent).writeAnswer (0x5000 + 0) 16 = .silent) ∧
    ∀ i ∈ vectors, ∀ pol ∈ [.draw, .fixed 5#8],
      isNaN ((badOutput (nanRun i 0 pol) .silent).inputWord 1) = true ∧ (nanRun i 0 pol).params.nanPolicy ≠ .fault ∧
      (badOutput (nanRun i 0 pol) .silent).readAnswer 0x1000 16 = .done ∧
      (badOutput (nanRun i 0 pol) .silent).writeAnswer 0x2000 16 = .silent ∧
      .write 0x2000 16 ∈ commandRequests i (badOutput (nanRun i 0 pol) .silent) := by decide

/-- Ranges at both ends of the address space, an empty command, and an input shared with a running engine. -/
theorem test_witness_AcceptanceStartsCommand :
    ∀ i ∈ commands, ∀ s ∈ [idle (ops 0x2000 0x1000 2) [], idle (ops 0x1000 (2 ^ 64 - 16) 2) [],
        idle (ops (2 ^ 64 - 16) 0x1000 8) [], idle (ops 0 0 0) [], two (ops 0x4000 0x1000 2)],
      s.eng.phase = .idle ∧ statusLegal s.eng.status = true ∧
      s.eng.src + 8 * s.eng.count ≤ 2 ^ s.params.addrBits ∧ s.eng.dst + 2 * s.eng.count ≤ 2 ^ s.params.addrBits ∧
      (i = .convVa → s.eng.src % 16 = 0 ∧ s.eng.dst % 16 = 0) ∧
      (∀ a, ¬(s.eng.src ≤ a ∧ a < s.eng.src + 8 * s.eng.count ∧ s.eng.dst ≤ a ∧ a < s.eng.dst + 2 * s.eng.count)) ∧
      ∀ f ∈ s.before ++ s.after, f.running = true → ∀ a,
        (s.eng.dst ≤ a ∧ a < s.eng.dst + 2 * s.eng.count →
          ¬((f.src ≤ a ∧ a < f.src + 8 * f.count) ∨ (f.dst ≤ a ∧ a < f.dst + 2 * f.count))) ∧
        (f.dst ≤ a ∧ a < f.dst + 2 * f.count → ¬(s.eng.src ≤ a ∧ a < s.eng.src + 8 * s.eng.count)) := by
  intro i _ s hs
  have hd : s.eng.buffersDisjoint = true := by revert s; decide
  have hc : ∀ f ∈ s.before ++ s.after, s.eng.compatible f = true := by revert s; decide
  refine ⟨by revert s; decide, by revert s; decide, by revert s; decide, by revert s; decide,
    fun _ => by revert s; decide, Engine.buffersDisjoint_iff.mp hd, fun f hf _ a => ?_⟩
  have := Engine.compatible_iff.mp (hc f hf) a
  omega

/-- A number, a NaN, and a command in a race with another engine for its output. -/
theorem test_witness_ConvRefScalarStep :
    (∀ p ∈ [(runP1 .convRef 2, 6), (nanRun .convRef 1 (.fixed 5#8), 5)], p.1.mem.wf ∧ p.1.eng.phase = .run ∧
      p.1.eng.idx < 2 * p.1.eng.count ∧ p.1.readAnswer (p.1.eng.src + 4 * p.1.eng.idx) 4 = .done ∧
      p.1.writeAnswer (p.1.eng.dst + p.1.eng.idx) 1 = .done ∧ p.1.eng.raced = false ∧
      fp2i8 (nanResult p.1.params.nanPolicy (.scalarPath (encode .convRef)) p.1.draws)
        (scalarAt p.1.params.endian p.1.mem (p.1.eng.src + 4 * p.1.eng.idx)) = some p.2) ∧
    ∀ s ∈ [clashing .convRef (ops 0x2002 0x4000 1) 2], s.mem.wf ∧ s.eng.phase = .run ∧ s.eng.idx < 2 * s.eng.count ∧
      s.readAnswer (s.eng.src + 4 * s.eng.idx) 4 = .done ∧ s.writeAnswer (s.eng.dst + s.eng.idx) 1 = .done ∧
      s.eng.raced = true ∧
      fp2i8 (nanResult s.params.nanPolicy (.scalarPath (encode .convRef)) s.draws) (s.inputWord s.eng.idx) = some 6 := by
  decide

theorem test_witness_VectorCommandTailStep :
    (∀ i ∈ vectors, ∀ s ∈ [runP6 i 17], i ≠ .convRef ∧ s.mem.wf ∧ s.eng.phase = .run ∧ s.eng.idx < 2 * s.eng.count ∧
      2 * s.eng.count < s.eng.idx + 16 ∧ s.readAnswer (s.eng.src + 4 * s.eng.idx) 4 = .done ∧
      s.writeAnswer (s.eng.dst + s.eng.idx) 1 = .done ∧ s.eng.raced = false ∧
      fp2i8 (nanResult s.params.nanPolicy (.scalarPath (encode i)) s.draws)
        (scalarAt s.params.endian s.mem (s.eng.src + 4 * s.eng.idx)) = some (-2)) ∧
    ∀ i ∈ vectors, ∀ s ∈ [clashing i (ops 0x2002 0x4000 1) 2], s.mem.wf ∧ s.eng.phase = .run ∧
      s.eng.idx < 2 * s.eng.count ∧ 2 * s.eng.count < s.eng.idx + 16 ∧
      s.readAnswer (s.eng.src + 4 * s.eng.idx) 4 = .done ∧ s.writeAnswer (s.eng.dst + s.eng.idx) 1 = .done ∧
      s.eng.raced = true ∧
      fp2i8 (nanResult s.params.nanPolicy (.scalarPath (encode i)) s.draws) (s.inputWord s.eng.idx) = some 6 := by decide

theorem test_witness_VectorCommandGroupStep :
    (∀ i ∈ vectors, ∀ s ∈ [runP6 i 0, runGroup i], i ≠ .convRef ∧ s.mem.wf ∧ s.eng.phase = .run ∧
      s.eng.idx + 16 ≤ 2 * s.eng.count ∧
      (∀ j < 4, s.readAnswer (s.eng.src + 4 * s.eng.idx + 16 * j) 16 = .done) ∧
      s.writeAnswer (s.eng.dst + s.eng.idx) 16 = .done ∧ valuesG1.length = 16 ∧ s.eng.raced = false ∧
      ∀ k < 16, fp2i8 (nanResult s.params.nanPolicy (.laneProcessor (encode i)) (s.draws + k))
        (scalarAt s.params.endian s.mem (s.eng.src + 4 * (s.eng.idx + k))) = valuesG1[k]?) ∧
    ∀ i ∈ vectors, ∀ s ∈ [(runGroup i).mark fun _ => true], s.mem.wf ∧ s.eng.phase = .run ∧
      s.eng.idx + 16 ≤ 2 * s.eng.count ∧
      (∀ j < 4, s.readAnswer (s.eng.src + 4 * s.eng.idx + 16 * j) 16 = .done) ∧
      s.writeAnswer (s.eng.dst + s.eng.idx) 16 = .done ∧ s.eng.raced = true ∧
      ∀ k < 16, fp2i8 (nanResult s.params.nanPolicy (.laneProcessor (encode i)) (s.draws + k))
        (s.inputWord (s.eng.idx + k)) = valuesG1[k]? := by decide

theorem test_witness_CompletionStep :
    ∀ i ∈ commands, ∀ s ∈ [runP1 i 4, running i (ops 0 0 0) 0 []], s.eng.phase = .run ∧
      statusLegal s.eng.status = true ∧ s.eng.idx = 2 * s.eng.count := by decide

theorem test_witness_NoStepOutsideRun :
    (halted (ops 1 2 3) 0x54#32).eng.phase = .halt ∧
    ∀ s ∈ [State.reset, halted (ops 1 2 3) 0x54#32], s.eng.live = true ∧ s.eng.phase ≠ .run ∧ s.inputs = [] := by decide

theorem test_witness_RunningCommandFrame :
    (∀ i ∈ commands, ∀ n ∈ [3, 4], (runP1 i n).mem.wf ∧ (runP1 i n).eng.phase = .run ∧
      (nextOf (exec i (runP1 i n))).isSome = true) ∧
    ∀ i ∈ vectors, (runGroup i).mem.wf ∧ (runGroup i).eng.phase = .run ∧ i ≠ .convRef ∧
      (runGroup i).eng.idx + 16 ≤ 2 * (runGroup i).eng.count ∧ (nextOf (exec i (runGroup i))).isSome = true := by decide

theorem test_witness_CommandWriteFrame :
    ∀ i ∈ commands, ∀ s ∈ [idle (ops 0x2000 0x1000 2) inputP1, idle (ops (2 ^ 64 - 3) 0 2) []],
      s.eng.phase = .idle ∧ (nextOf (exec i s)).isSome = true := by decide

theorem test_witness_OtherEnginesUnchanged :
    (two (ops 0 0 0)).engines.length = 2 ∧ (nextOf (step (two (ops 0 0 0)))).isSome = true ∧
    (nextOf (step (withAction (two (ops 0 0 0)) (.select 1)))).map (·.eng) = some (runP1 .convRef 1).eng ∧
    (nextOf (step (withAction (two (ops 0 0 0)) (.select 2)))).map (·.eng) = some (ops 0 0 0) := by decide

theorem test_witness_OperandsFixedWhileRunning :
    ∀ act ∈ [HostAction.write 2 7, .write 0 1, .tick, .wait, .read 1, .load 0, .store 0 1#8],
      (nextOf (step (withAction (runP1 .convRef 1) act))).isSome = true ∧
      (withAction (runP1 .convRef 1) act).eng.phase = .run := by decide

theorem test_witness_HaltIsLeftByResetOnly :
    ∀ act ∈ [HostAction.write 2 7, .write 0 1, .tick, .wait, .read 1, .load 0, .store 0 1#8],
      (nextOf (step (withAction (halted (ops 1 2 3) 0x64#32) act))).isSome = true ∧
      (withAction (halted (ops 1 2 3) 0x64#32) act).eng.phase = .halt := by decide

/-- The engine after reset with operands meets the invariant. -/
theorem inv_idle : ∀ d ∈ [(0x2000, 2), (2 ^ 64 - 3, 2)], (idle (ops d.1 0x1000 d.2) []).Inv := by
  intro d hd
  refine ⟨show Params.default.wellFormed = true by decide, rfl, Memory.wf_nil, by simp [idle, Memory.below], ?_,
    by simp [State.engines, idle, State.reset, State.resetWith, Params.default],
    fun _ hc => absurd hc List.not_mem_nil⟩
  intro e he _
  have he : e = ops d.1 0x1000 d.2 := by
    simpa [State.engines, idle, State.reset, State.resetWith, Params.default] using he
  subst he
  fin_cases hd <;>
    exact ⟨by decide, by decide, by decide, by decide, by decide, ⟨.convRef, rfl⟩,
      fun h => absurd h (by decide), by decide, by decide⟩

/-- Each transition: IDLE to RUN, IDLE to HALT, RUN to IDLE, RUN to HALT, RUN to RUN, and reset. -/
theorem test_witness_EngineStateTransitions :
    ((withAction (idle (ops 0x2000 0x1000 2) []) (.write 0 0)).Inv ∧
      (withAction (idle (ops (2 ^ 64 - 3) 0x1000 2) []) (.write 0 0)).Inv ∧
      (runP1 .convRef 4).Inv ∧ (badInput (runP1 .convRef 3) .error).Inv ∧ (withAction (runP1 .convRef 3) .reset).Inv) ∧
    portOf (step (withAction (idle (ops 0x2000 0x1000 2) []) (.write 0 0))) = some (1#32, 0, 0#32) ∧
    portOf (step (withAction (idle (ops (2 ^ 64 - 3) 0x1000 2) []) (.write 0 0))) = some (0x24#32, 0, 0#32) ∧
    portOf (step (runP1 .convRef 4)) = some (2#32, 4, 0#32) ∧
    portOf (step (badInput (runP1 .convRef 3) .error)) = some (0x44#32, 3, 0#32) ∧
    (runP1 .convRef 3).eng.live = true :=
  ⟨⟨(inv_idle (0x2000, 2) (by decide)).congr rfl rfl rfl rfl rfl rfl,
      (inv_idle (2 ^ 64 - 3, 2) (by decide)).congr rfl rfl rfl rfl rfl rfl,
      inv_runP1 (.convRef, 4) (by decide), (inv_runP1 (.convRef, 3) (by decide)).congr rfl rfl rfl rfl rfl rfl,
      (inv_runP1 (.convRef, 3) (by decide)).congr rfl rfl rfl rfl rfl rfl⟩,
    by decide, by decide, by decide, by decide, by decide⟩

theorem test_witness_IdxRisesUpToT :
    (runP1 .convRef 3).Inv ∧ (runP1 .convRef 3).eng.live = true ∧ (runP1 .convRef 3).eng.phase = .run ∧
    portOf (step (runP1 .convRef 3)) = some (1#32, 4, 0#32) ∧ (runP1 .convRef 3).inputs = [] :=
  ⟨inv_runP1 (.convRef, 3) (by decide), by decide, by decide, by decide, by decide⟩

theorem test_witness_WordDenotesBinary32 :
    ([0x00000001#32, 0x80000000#32].map fun w => (w.extractLsb' 23 8).toNat) = [0, 0] ∧
    ([0x00800000#32, 0xFF7FFFFF#32].map fun w => (w.extractLsb' 23 8).toNat) = [1, 254] ∧
    ([0x7F800000#32, 0xFF800001#32].map fun w => ((w.extractLsb' 23 8).toNat, (w.extractLsb' 0 23).toNat)) =
      [(255, 0), (255, 1)] := by decide

theorem test_witness_ClipFormula : clip (f32 0x42FE0001#32) = some (127 * unit) := by decide

theorem test_witness_RoundsToNearestTiesToEven :
    ∀ c ∈ [-128 * unit, 0, unit / 2, 127 * unit], -128 * unit ≤ c ∧ c ≤ 127 * unit := by decide

theorem test_witness_OutputScalarsInRange :
    fp2i8 (nanResult .draw (.scalarPath 0#32) 0) 0xC3000001#32 = some (-128) ∧
      fp2i8 (nanResult (.fixed 127#8) (.scalarPath 0#32) 0) 0x7FC00000#32 = some 127 := by
  decide

theorem test_witness_SaturationAndRangeFidelity :
    f32 0x7F800000#32 = .posInf ∧ f32 0xFF800000#32 = .negInf ∧ f32 0x42FF0000#32 = .real (255 * (unit / 2)) ∧
    255 * (unit / 2) > 127 * unit ∧ f32 0xC3008000#32 = .real (-257 * (unit / 2)) ∧ -257 * (unit / 2) < -128 * unit ∧
    f32 0x42FE0000#32 = .real (127 * unit) ∧ f32 0xC3000000#32 = .real (-128 * unit) := by decide

theorem test_witness_WhichValuesGiveZeroAndTheBounds :
    f32 0x3F000000#32 = .real (unit / 2) ∧ f32 0x42FD0000#32 = .real (253 * (unit / 2)) ∧
    f32 0xC2FF0000#32 = .real (-255 * (unit / 2)) := by decide

theorem test_witness_ConversionIsMonotone :
    f32 0x42FE0000#32 = .real (127 * unit) ∧ f32 0xC2FE0000#32 = .real (-(127 * unit)) ∧
    fp2i8 none 0x42FE0000#32 = some 127 ∧ fp2i8 none 0xC2FE0000#32 = some (-127) ∧
    -127 * unit ≤ 127 * unit ∧ -(127 * unit) ≤ 127 * unit := by decide

theorem test_witness_BitLevelFormAgrees : isNaN 0xC2FF0000#32 = false ∧ isNaN 0x7FC00000#32 = true := by decide

theorem test_witness_NaNResultFollowsPolicy : isNaN 0xFFC00000#32 = true := by decide

/-- 32768 through a 16-bit stage, and the two bounds. -/
theorem test_witness_NarrowingSaturates :
    (128 : Int) > 127 ∧ (-129 : Int) < -128 ∧ (7 : Nat) ≤ 15 ∧
      sat8 (max (min 32768 (2 ^ 15 - 1)) (-(2 ^ 15))) = 127 := by decide

theorem test_witness_AssemblerLinesExpand :
    AsmLine.expansions (.convert 0x8000 0x4004 8) =
      [convActions .convRef 0x8000 0x4004 8, convActions .convVu 0x8000 0x4004 8] := by decide

/-- Without platform windows every request inside the address space is answered. -/
theorem granted_of_fits {s : State} (hw : s.platform = []) (h : s.eng.rangesFit s.params = true) : s.granted := by
  rw [Engine.rangesFit_iff] at h
  constructor
  · intro a ha
    rw [Engine.inInput_iff] at ha
    have hlt : a < s.params.space := by simp only [Params.space]; omega
    simp [readAnswerAt, State.windows, hw, hlt]
  · intro a ha
    rw [Engine.inOutput_iff] at ha
    have hlt : a < s.params.space := by simp only [Params.space]; omega
    simp [writeAnswerAt, State.windows, hw, hlt]

theorem test_witness_GroupStepEqualsSixteenScalarSteps :
    ∀ i ∈ vectors, i ≠ .convRef ∧ (runGroup i).mem.wf ∧ (runGroup i).eng.phase = .run ∧
      ¬(runGroup i).eng.Overlap ∧ (runGroup i).eng.raced = false ∧ (runGroup i).granted ∧ (runGroup i).nanFree ∧
      (runGroup i).eng.idx + 16 ≤ 2 * (runGroup i).eng.count := by
  intro i hi
  refine ⟨?_, ?_, by decide +revert, Engine.not_overlap_iff.mpr (by decide +revert), rfl,
    granted_of_fits rfl (by decide +revert), ?_, by decide +revert⟩
  · revert i; decide
  · show (bytesAt 0x3000 scalarsP2).wf; decide
  · show ∀ k < 16, isNaN (scalarAt .little (bytesAt 0x3000 scalarsP2) (0x3000 + 4 * k)) = false
    decide

/-- A machine with a second engine that runs on the same input buffer, and the launch that is in contract beside it. -/
def beside : State :=
  { idle (ops 0x5000 0x3000 9) (bytesAt 0x3000 scalarsP2) with
    after := [{ ops 0x6000 0x3000 9 with status := 1#32, launch := bytesAt 0x3000 scalarsP2 }]
    params := { Params.default with numEngines := 2 } }

theorem test_witness_CommandsConvertTheBufferAlike :
    ∀ i ∈ commands, ∀ s ∈ [idle (ops 0x5000 0x3000 9) (bytesAt 0x3000 scalarsP2), beside],
      s.InContract i ∧ s.mem.wf ∧ statusLegal s.eng.status = true := by
  have hwf : (bytesAt 0x3000 scalarsP2).wf := by decide
  have hn : ∀ k < 18, isNaN (scalarAt .little (bytesAt 0x3000 scalarsP2) (0x3000 + 4 * k)) = false := by decide
  intro i _ s hs
  obtain ⟨hm, ho, hsrc, ht, hen, hp, hl, hi, hf, ha, hd, hst⟩ : s.mem = bytesAt 0x3000 scalarsP2 ∧
      (∀ f ∈ s.others, s.eng.compatible f = true) ∧ s.eng.src = 0x3000 ∧ s.eng.scalars = 18 ∧
      s.params.endian = .little ∧ s.platform = [] ∧ s.eng.live = true ∧ s.eng.phase = .idle ∧
      s.eng.rangesFit s.params = true ∧ s.eng.aligned = true ∧ s.eng.buffersDisjoint = true ∧
      statusLegal s.eng.status = true := by revert s; decide
  refine ⟨⟨hl, hi, hf, fun _ => ha, granted_of_fits hp hf, Engine.not_overlap_iff.mpr hd,
    fun f hf _ => Engine.not_clash_iff.mpr (ho f hf), fun k hk => ?_⟩, hm ▸ hwf, hst⟩
  rw [Engine.inAddr_eq, hm, hsrc, hen]
  exact hn k (ht ▸ hk)

theorem test_witness_EveryStepKeepsTheInvariant :
    (runP1 .convVu 3).Inv ∧ portOf (step (runP1 .convVu 3)) = some (1#32, 4, 1#32) :=
  ⟨inv_runP1 (.convVu, 3) (by decide), by decide⟩

theorem test_witness_ResetMeetsTheInvariant :
    Params.wellFormed ⟨4, 1, .big, .fault, 3⟩ = true ∧ Params.wellFormed Params.default = true := by decide

/-- The first group of program P2's input asks for four reads and one write; a read answered with an error ends the
list. -/
theorem test_commandRequests :
    (∀ i ∈ vectors, commandRequests i (running i (ops 0x2003 0x1001 9) 0 inputP2) =
        [.read 0x1001 16, .read 0x1011 16, .read 0x1021 16, .read 0x1031 16, .write 0x2003 16] ∧
      commandRequests i (badInput (runGroup i) .error) = [.read 0x3000 16]) ∧
    commandRequests .convRef (running .convRef (ops 0x2003 0x1001 9) 0 inputP2) = [.read 0x1001 4, .write 0x2003 1] ∧
    (∀ i ∈ commands, commandRequests i (runP1 i 4) = [] ∧ commandRequests i (halted (ops 0 0 2) 0x34#32) = []) := by decide

theorem test_witness_StepsTouchOnlyRequestedBytes :
    (∀ i ∈ commands, ∀ n ∈ [0, 3, 4], (runP1 i n).mem.wf ∧ (runP1 i n).eng.phase = .run ∧
      (runP1 i n).eng.idx ≤ 2 * (runP1 i n).eng.count ∧ (runP1 i n).eng.raced = false ∧
      ((runP1 i n).mem.write 0x2003 7#8).wf ∧
      ((runP1 i 0).mem.write 0x2003 7#8).read 0x2003 ≠ (runP1 i 0).mem.read 0x2003 ∧
      ∀ r ∈ commandRequests i (runP1 i 0), r.covers 0x2003 = false) ∧
    ∀ i ∈ vectors, (runGroup i).mem.wf ∧ (runGroup i).eng.phase = .run ∧
      (runGroup i).eng.idx + 16 ≤ 2 * (runGroup i).eng.count ∧
      commandRequests i (runGroup i) =
        [.read 0x3000 16, .read 0x3010 16, .read 0x3020 16, .read 0x3030 16, .write 0x5000 16] ∧
      ∀ r ∈ commandRequests i (runGroup i), r.covers 0x4FFF = false ∧ r.covers 0x5010 = false ∧
        r.covers 0x3040 = false := by decide

theorem test_witness_RunningEnginesHaveConvertedUpToIdx :
    (runP1 .convRef 0).Inv ∧
    (∀ e ∈ (runP1 .convRef 0).engines, e.running = true → e.raced = false → (runP1 .convRef 0).Progress e) ∧
    portOf (step (runP1 .convRef 0)) = some (1#32, 1, 0#32) := by
  refine ⟨inv_runP1 (.convRef, 0) (by decide), ?_, by decide⟩
  intro e he _ _
  have he : e = (runP1 .convRef 0).eng := by
    simpa [State.engines, runP1, running, State.reset, State.resetWith, Params.default] using he
  subst he
  exact progress_runP1

theorem test_witness_EveryCommandEnds :
    (runP1 .convVa 3).Inv ∧ (runP1 .convVa 3).eng.live = true ∧ (runP1 .convVa 3).eng.phase = .run ∧
    (runP1 .convVa 3).inputs = [] ∧ ∀ w ∈ (runP1 .convVa 3).platform, w.onRead ≠ .silent ∧ w.onWrite ≠ .silent :=
  ⟨inv_runP1 (.convVa, 3) (by decide), by decide, by decide, by decide, by decide⟩

theorem test_witness_ParametersNeverChange :
    (nextOf (step (withAction State.reset (.read 1)))).map (fun t => (t.params, t.answers)) =
      some (Params.default, [.reg 1 0]) := by decide

end Sys2Proof.Tests
end

/-!
PROOFS. The engine states and the transitions between them (10_state R28): what a step can do to STATUS is said once, as
`StatusStep`, and every transition is read off it.
-/

namespace Sys2Proof.Machine

/-! ### STATUS and the engine states -/

/-- BUSY and ERR are never both set (10_state R23). -/
theorem not_busy_of_err {w : Word} (h : statusLegal w = true) (he : statusErr w = true) : statusBusy w = false := by
  revert he
  rcases statusLegal_cases h with rfl | rfl | rfl | rfl | rfl | rfl | rfl | rfl | rfl <;> decide

/-- The three engine states as 10_state R28 reads them off BUSY and ERR. -/
theorem phase_iff_status {e : Engine} (h : statusLegal e.status = true) :
    (e.phase = .idle ↔ statusBusy e.status = false ∧ statusErr e.status = false) ∧
      (e.phase = .run ↔ statusBusy e.status = true ∧ statusErr e.status = false) ∧
      (e.phase = .halt ↔ statusBusy e.status = false ∧ statusErr e.status = true) :=
  ⟨phaseOf_eq_idle.trans and_comm, phaseOf_eq_run.trans and_comm,
    phaseOf_eq_halt.trans ⟨fun he => ⟨not_busy_of_err h he, he⟩, And.right⟩⟩

theorem Engine.phase_of_status {e : Engine} {w : Word} (h : e.status = w) : e.phase = phaseOf w := congrArg phaseOf h

/-- What fault entry shows in STATUS (60_exceptions R214). -/
theorem Engine.halt_of_statusFault {e : Engine} {w : Word} {c : Cause} (hw : statusLegal w = true)
    (h : e.status = statusFault w c) : e.phase = .halt ∧ statusCause e.status = c.code :=
  ⟨(Engine.phase_of_status h).trans (statusFault_legal hw c).2, by rw [h, statusCause_statusFault hw]⟩

theorem code_of_atCommand {c : Cause} (h : c.atCommand = true) : c.code ∈ [1, 2, 3] := by
  revert h
  cases c <;> decide

theorem code_of_inStep {c : Cause} (h : c.atCommand = false) : c.code ∈ [4, 5, 6] := by
  revert h
  cases c <;> decide

/-! ### What a step can do to STATUS -/

/-- How a step from `s` to `t`, other than a reset and a change of the selected engine, treats STATUS. -/
inductive StatusStep (s t : State) : Prop where
  | kept (status : t.eng.status = s.eng.status)
  /-- 43_command_port R193, step 4 -/
  | accepted (i : Instr) (v : Nat) (rest : List HostAction) (idle : s.eng.phase = .idle)
      (write : s.inputs = .write 0 v :: rest) (word : decode (BitVec.ofNat 32 v) = .command i)
      (status : t.eng.status = statusAccept s.eng.status) (idx : t.eng.idx = 0) (cmd : t.eng.cmd = encode i)
  /-- 43_command_port R193, checks 1 to 3 -/
  | faultAtCommand (c : Cause) (v : Nat) (rest : List HostAction) (idle : s.eng.phase = .idle)
      (write : s.inputs = .write 0 v :: rest) (cause : c.atCommand = true)
      (status : t.eng.status = statusFault s.eng.status c)
  /-- 42_vector_commands R174 -/
  | completed (run : s.eng.phase = .run) (last : s.eng.idx = s.eng.scalars)
      (status : t.eng.status = statusComplete s.eng.status)
  /-- 60_exceptions R214, inside a step -/
  | faultInStep (c : Cause) (run : s.eng.phase = .run) (remain : s.eng.idx ≠ s.eng.scalars)
      (cause : c.atCommand = false) (status : t.eng.status = statusFault s.eng.status c)

/-- What a step of the sequencer does to STATUS: the completion step is taken at `IDX = T` and only there, so a fault
inside a step finds scalars left (42_vector_commands R170). -/
theorem sequencerStep_status (w : Word) (g : Option Group) (s : State) :
    (sequencerStep w g s).eng.status = s.eng.status ∨
      (s.eng.idx = s.eng.scalars ∧ (sequencerStep w g s).eng.status = statusComplete s.eng.status) ∨
      (s.eng.idx ≠ s.eng.scalars ∧ ∃ c, c.atCommand = false ∧
        (sequencerStep w g s).eng.status = statusFault s.eng.status c) := by
  by_cases hT : s.eng.idx = s.eng.scalars
  · exact .inr (.inl ⟨hT, by simp [sequencerStep, hT]⟩)
  rcases sequencerStep_cases w g s with ⟨h, -⟩ | ⟨v, -, -, -, -, e⟩ | ⟨vb, -, -, -, -, -, e⟩ | ⟨c, u, hc, e, hu⟩ | e
  · exact absurd h hT
  · exact .inl (by simp [e])
  · exact .inl (by simp [e])
  · have hue : u.eng = s.eng := by
      rcases hu with rfl | ⟨n, rfl⟩ | ⟨vb, -, -, rfl⟩ <;> simp
    exact .inr (.inr ⟨hT, c, hc, by simp [e, hue]⟩)
  · exact .inl (by rw [e])

/-- Every step but a reset and a change of the selected engine treats STATUS as `StatusStep` says. -/
theorem statusStep_of_step {s t : State} (ht : step s = .next t) (hsel : ∀ k rest, s.inputs ≠ .select k :: rest)
    (hres : ∀ rest, s.inputs ≠ .reset :: rest) : StatusStep s t := by
  obtain ⟨l, ⟨x, n, rfl⟩ | ⟨ws, rfl⟩ | rfl | ⟨a, b, -, -, rfl⟩ | ⟨hi, -⟩ | ⟨k, hi, -⟩ | ⟨-, -, reg, v, rfl⟩ |
    ⟨-, hp, c, v, hi, hc, rfl⟩ | ⟨-, hp, i, v, hi, hd, -, rfl⟩ | ⟨-, hp, i, -, rfl⟩⟩ := step_cases ht
  · exact .kept rfl
  · exact .kept rfl
  · exact .kept rfl
  · obtain ⟨p, e⟩ := agentWrite_eng a b (s.withInputs l)
    exact .kept (by simp [e])
  · exact absurd hi (hres l)
  · exact absurd hi (hsel k l)
  · obtain ⟨e, he, -, -, hst, -⟩ := writeOperand_frame reg v (s.withInputs l)
    exact .kept (by simp [he, hst])
  · exact .faultAtCommand c v l hp hi hc (by simp)
  · exact .accepted i v l hp hi hd rfl rfl rfl
  · rcases sequencerStep_status (encode i) (groupOf i) (s.withInputs l) with e | ⟨hT, e⟩ | ⟨hT, c, hc, e⟩
    · exact .kept e
    · exact .completed hp hT e
    · exact .faultInStep c hp hT hc e

/-! ### The transitions -/

/-- Reset takes the selected engine to IDLE from any state (70_reset_and_hazards R240). -/
theorem phase_of_reset {s t : State} {rest : List HostAction} (ht : step s = .next t) (hi : s.inputs = .reset :: rest) :
    t.eng.phase = .idle := by
  simp only [step, hi, hostAction, Host.Outcome.next.injEq] at ht
  obtain ⟨-, -, -, -, -, -, he⟩ := applyReset_frame (s.withInputs rest)
  rw [← ht, he]
  decide

/-- Settles O38: each way a step can treat STATUS is one transition of 10_state R28, or none. -/
theorem engineStateTransitions : Obligations.EngineStateTransitions := by
  unfold Obligations.EngineStateTransitions
  intro s hinv hlive
  have ok := hinv.engOk hlive
  refine ⟨phase_iff_status ok.legal, fun t ht hsel => ⟨fun rest hi => phase_of_reset ht hi, fun hres => ?_⟩⟩
  cases statusStep_of_step ht hsel hres with
  | kept hst =>
    have hph : t.eng.phase = s.eng.phase := Engine.phase_of_status hst
    rw [hph]
    exact ⟨absurd, fun h h' => by simp [h] at h', fun h h' => by simp [h] at h', id⟩
  | accepted i v rest hp hi hd hst hidx hcmd =>
    have hph : t.eng.phase = .run := (Engine.phase_of_status hst).trans (phaseOf_statusAccept hp)
    rw [hp, hph]
    exact ⟨fun _ _ => ⟨v, rest, hi, .inl ⟨rfl, hidx, i, hd, hcmd⟩⟩, nofun, nofun, nofun⟩
  | faultAtCommand c v rest hp hi hc hst =>
    obtain ⟨hph, hcause⟩ := Engine.halt_of_statusFault ok.legal hst
    rw [hp, hph, hcause]
    exact ⟨fun _ _ => ⟨v, rest, hi, .inr ⟨rfl, code_of_atCommand hc⟩⟩, nofun, nofun, nofun⟩
  | completed hp hT hst =>
    have h2 : t.eng.status = 2#32 := hst.trans (statusComplete_run ok.legal hp)
    have hph : t.eng.phase = .idle := (Engine.phase_of_status h2).trans (by decide)
    rw [hp, hph]
    exact ⟨nofun, fun _ _ => ⟨hT, h2⟩, nofun, nofun⟩
  | faultInStep c hp hT hc hst =>
    obtain ⟨hph, hcause⟩ := Engine.halt_of_statusFault ok.legal hst
    rw [hp, hph, hcause]
    exact ⟨nofun, nofun, fun _ _ => ⟨lt_of_le_of_ne (ok.run hp).inRange hT, code_of_inStep hc⟩, nofun⟩

end Sys2Proof.Machine

/-!
PROOFS. The command word (30_encoding R91 to R97): which words the decoder takes for which command, which it takes for
illegal, and what the write of an illegal one to CMD does (43_command_port R193, check 1).
-/

namespace Sys2Proof.Machine

/-! ### Which words decode -/

theorem toNat_eq_fields (w : Word) : w.toNat = 4 * zeroField w + opField w := (Nat.div_add_mod _ _).symm

theorem opField_eq (w : Word) : opField w = (w.extractLsb' 0 2).toNat := by
  simp [opField, BitVec.extractLsb'_toNat]

theorem zeroField_eq (w : Word) : zeroField w = (w.extractLsb' 2 30).toNat := by
  have hlt : zeroField w < 2 ^ 30 := Nat.div_lt_of_lt_mul w.isLt
  rw [BitVec.extractLsb'_toNat, Nat.shiftRight_eq_div_pow]
  exact (Nat.mod_eq_of_lt hlt).symm

/-- The decoder takes a word for a command exactly when it is the command's own word (30_encoding R92). -/
theorem decode_eq_command_iff {w : Word} {i : Instr} : decode w = .command i ↔ w = encode i := by
  refine ⟨fun h => BitVec.eq_of_toNat_eq ?_, fun h => h ▸ decode_encode i⟩
  rw [toNat_eq_fields w]
  unfold decode at h
  split at h
  · split at h <;> cases h <;> simp [*, encode]
  · cases h

/-- The decoder is total: a word is illegal exactly when it is no command (30_encoding R97). -/
theorem decode_illegal_iff_not_command {w : Word} :
    (∃ why, decode w = .illegal why) ↔ ∀ i, decode w ≠ .command i := by
  cases decode w <;> simp

/-- The illegal words by their fields: `OP = 0b11`, or a bit of ZERO set (30_encoding R97). -/
theorem decode_illegal_iff_fields {w : Word} :
    (∃ why, decode w = .illegal why) ↔ opField w = 3 ∨ zeroField w ≠ 0 := by
  have hlt : opField w < 4 := Nat.mod_lt _ (by decide)
  by_cases hz : zeroField w = 0
  · have hop : opField w = 0 ∨ opField w = 1 ∨ opField w = 2 ∨ opField w = 3 := by omega
    rcases hop with h | h | h | h <;> simp [decode, hz, h]
  · simp [decode, hz]

/-- All bits of the mask are set, so only the command's own word matches its row (30_encoding R92). -/
theorem matches_row_iff (w : Word) (i : Instr) : w &&& opcodeMask i = opcodeMatch i ↔ w = encode i := by
  have hmask : opcodeMask i = BitVec.allOnes 32 := by cases i <;> decide
  have hmatch : opcodeMatch i = encode i := by cases i <;> rfl
  rw [hmask, hmatch, BitVec.and_allOnes]

/-- Settles O1: the decoder and the opcode map both take a word for a command exactly when it is the command's own. -/
theorem wordIsCommandOfItsRow : Obligations.WordIsCommandOfItsRow := by
  unfold Obligations.WordIsCommandOfItsRow
  intro w
  refine ⟨fun i => decode_eq_command_iff.trans (matches_row_iff w i).symm, decode_eq_command_iff,
    decode_eq_command_iff, decode_eq_command_iff, decode_illegal_iff_not_command.trans ⟨fun h => ?_, fun h i => ?_⟩⟩
  · simp only [ne_eq, decode_eq_command_iff] at h
    exact ⟨h .convRef, h .convVu, h .convVa⟩
  · rw [ne_eq, decode_eq_command_iff]
    obtain ⟨hRef, hVu, hVa⟩ := h
    cases i with
    | convRef => exact hRef
    | convVu => exact hVu
    | convVa => exact hVa

/-! ### The write of an illegal word to CMD -/

/-- The host's write to register 0 is the write of a command word, and the step does nothing around it (43_command_port
R193). -/
theorem step_write_cmd {s : State} {rest : List HostAction} {v : Nat} (hi : s.inputs = .write 0 v :: rest)
    (hl : s.eng.live = true) : step s = writeCmd (BitVec.ofNat 32 v) (s.withInputs rest) := by
  simp [step, hi, hostAction, ifLive, hl, writeReg]

theorem writeCmd_illegal {w : Word} {why : IllegalWord} {s : State} (hp : s.eng.phase = .idle)
    (hd : decode w = .illegal why) : writeCmd w s = .next (takeFault .illegalCommand s) := by
  rw [writeCmd, hp, hd]

/-- Fault entry at a write to CMD: STATUS, IDX and the model's own records change, nothing else (60_exceptions R214). -/
theorem takeFault_write {s : State} (h : statusLegal s.eng.status = true) {c : Cause} (hc : c.atCommand = true) :
    takeFault c s =
      (s.withEng { s.eng with
        status := 0x4#32 ||| (BitVec.ofNat 32 c.code <<< 4), idx := 0, launch := [], raced := false }).settled := by
  simp [takeFault, statusFault_eq h, hc]

/-- Settles O7: the decoder refuses a word by its fields alone, and the write of a refused word is fault entry with cause
1. -/
theorem illegalCommandWordFaults : Obligations.IllegalCommandWordFaults := by
  unfold Obligations.IllegalCommandWordFaults
  intro w
  have hfields : (∃ why, decode w = .illegal why) ↔ w.extractLsb' 0 2 = 3#2 ∨ w.extractLsb' 2 30 ≠ 0#30 := by
    rw [decode_illegal_iff_fields, opField_eq, zeroField_eq, ← BitVec.toNat_inj, ne_eq, ne_eq, ← BitVec.toNat_inj]
    rfl
  rw [← hfields]
  refine ⟨fun h => by simpa [decode_illegal_iff_not_command] using h,
    fun hill => ⟨hill, fun s rest hi hl hst hp => ?_⟩⟩
  obtain ⟨why, hd⟩ := hill
  have hstep : step s = .next (takeFault .illegalCommand (s.withInputs rest)) := by
    rw [step_write_cmd hi hl, BitVec.ofNat_toNat, BitVec.setWidth_eq]
    exact writeCmd_illegal hp hd
  rw [hstep, takeFault_write (s := s.withInputs rest) hst rfl]
  exact ⟨[], false, _, rfl⟩

end Sys2Proof.Machine

/-!
PROOFS. The two numeric stages of the reference kernel: CLIP stays within binary32 (40_reference_kernel R112), and RND is
the nearest integer, ties to even (40_reference_kernel R113).
-/

namespace Sys2Proof.Machine

/-! ### CLIP -/

/-- The upper bound is a binary32 value (40_reference_kernel R112). -/
theorem f32_clipMaxWord : f32 Config.clipMaxWord = .real (127 * unit) := by decide

/-- The lower bound is a binary32 value (40_reference_kernel R112). -/
theorem f32_clipMinWord : f32 Config.clipMinWord = .real (-128 * unit) := by decide

/-- CLIP of a real keeps it or gives one of the two bounds. -/
theorem clipReal_cases (k : Int) : clipReal k = 127 * unit ∨ clipReal k = -128 * unit ∨ clipReal k = k := by
  unfold clipReal
  split
  · exact .inl rfl
  · split
    · exact .inr (.inl rfl)
    · exact .inr (.inr rfl)

/-- CLIP gives one of the two bounds or a real it was given. -/
theorem clip_cases {x : F32} {c : Int} (h : clip x = some c) : c = 127 * unit ∨ c = -128 * unit ∨ x = .real c := by
  cases x with
  | nan => cases h
  | posInf => exact .inl (Option.some.inj h).symm
  | negInf => exact .inr (.inl (Option.some.inj h).symm)
  | real k =>
    have hc : clipReal k = c := Option.some.inj h
    rcases clipReal_cases k with hk | hk | hk
    · exact .inl (hc.symm.trans hk)
    · exact .inr (.inl (hc.symm.trans hk))
    · exact .inr (.inr (congrArg F32.real (hk.symm.trans hc)))

/-- Settles O42: CLIP gives one of its bounds, which are binary32 values, or the binary32 value it was given. -/
theorem clipFormula : Obligations.ClipFormula := by
  unfold Obligations.ClipFormula
  refine ⟨rfl, rfl, rfl, fun k => congrArg some (clipReal_eq k), fun w c h => ?_, f32_clipMaxWord, f32_clipMinWord⟩
  rcases clip_cases h with rfl | rfl | hw
  · exact ⟨_, f32_clipMaxWord⟩
  · exact ⟨_, f32_clipMinWord⟩
  · exact ⟨w, hw⟩

/-! ### RND -/

/-- Settles O43: a distance of at most one half, with an even result at one half, is a distance below one half or a tie
that the even integer wins. -/
theorem roundsToNearestTiesToEven : Obligations.RoundsToNearestTiesToEven := by
  unfold Obligations.RoundsToNearestTiesToEven
  refine fun c => ⟨fun n => rnd_iff.trans ?_, rnd_bounds⟩
  have hu := unit_pos
  generalize 2 * (c - n * unit) = d
  constructor
  · rintro ⟨hle, hge, heven⟩
    by_cases htie : d = unit ∨ d = -unit
    · exact .inr ⟨htie, heven htie⟩
    · exact .inl (by omega)
  · rintro (⟨hgt, hlt⟩ | ⟨htie, heven⟩)
    · exact ⟨hlt.le, hgt.le, by omega⟩
    · exact ⟨by omega, by omega, fun _ => heven⟩

end Sys2Proof.Machine

/-!
PROOFS. The operand registers (43_command_port R192): a written value of the register's width is taken whole in IDLE, and
every other write leaves the state as it was.
-/

namespace Sys2Proof.Machine

/-- The host's write to a register other than CMD is an operand write, and the step does nothing around it
(43_command_port R192). -/
theorem step_write_operand {s : State} {rest : List HostAction} {reg v : Nat} (hi : s.inputs = .write reg v :: rest)
    (hl : s.eng.live = true) (hr : reg ≠ 0) : step s = .next (writeOperand reg v (s.withInputs rest)) := by
  simp [step, hi, hostAction, ifLive, hl, writeReg, hr]

/-- Writes are ignored in RUN and HALT (43_command_port R192). -/
theorem writeOperand_of_not_idle {s : State} (hp : s.eng.phase ≠ .idle) (reg v : Nat) : writeOperand reg v s = s :=
  if_neg hp

/-- A well-formed write to a register there is has a value of the register's width (43_command_port R190). -/
theorem lt_registerRange_of_wellFormed {p : Params} {reg v : Nat}
    (hw : HostAction.wellFormed p (.write reg v) = true) (hr : reg ≤ 5) : v < p.registerRange reg := by
  simpa [HostAction.wellFormed, hr.not_gt] using hw

/-- In IDLE an operand register takes the value of a well-formed write, and a write to another register changes nothing
(43_command_port R192). -/
theorem writeOperand_idle_of_wellFormed {s : State} (hp : s.eng.phase = .idle) {reg v : Nat}
    (hw : HostAction.wellFormed s.params (.write reg v) = true) :
    writeOperand reg v s =
      if reg = 2 then s.withEng { s.eng with dst := v }
      else if reg = 3 then s.withEng { s.eng with src := v }
      else if reg = 4 then s.withEng { s.eng with count := v }
      else s := by
  rw [writeOperand_idle hp]
  match reg with
  | 2 =>
    have hv : v < s.params.space := lt_registerRange_of_wellFormed hw (by decide)
    simp [Nat.mod_eq_of_lt hv]
  | 3 =>
    have hv : v < s.params.space := lt_registerRange_of_wellFormed hw (by decide)
    simp [Nat.mod_eq_of_lt hv]
  | 4 =>
    have hv : v < s.params.countRange := lt_registerRange_of_wellFormed hw (by decide)
    simp [Nat.mod_eq_of_lt hv]
  | 0 | 1 | _ + 5 => rfl

/-- Settles O9: outside IDLE nothing is written, and in IDLE a value of the register's width is not cut. -/
theorem operandWritesOnlyInIdle : Obligations.OperandWritesOnlyInIdle := by
  unfold Obligations.OperandWritesOnlyInIdle
  intro s rest reg v hi hl hr hw
  rw [step_write_operand hi hl hr]
  by_cases hp : s.eng.phase = .idle
  · rw [writeOperand_idle_of_wellFormed (s := s.withInputs rest) hp hw]
    simp [hp]
  · rw [writeOperand_of_not_idle (s := s.withInputs rest) hp]
    simp [hp]

end Sys2Proof.Machine

/-!
PROOFS. Fault entry (60_exceptions R214): what it sets, clears and leaves for each of the six causes, and that the engine is
then at a standstill.
-/

namespace Sys2Proof.Machine

/-- The causes that are raised at a write to CMD (60_exceptions R211, codes 1 to 3). -/
theorem Cause.atCommand_iff {c : Cause} :
    c.atCommand = true ↔ c = .illegalCommand ∨ c = .addressRange ∨ c = .misaligned := by
  cases c <;> decide

theorem statusDone_setDone (w : Word) (b : Bool) : statusDone (setDone w b) = b :=
  (getLsbD_setBit w 1 b (by decide) 1).trans (if_pos rfl)

/-- The flags and the cause that STATUS shows after a fault (60_exceptions R214). -/
theorem statusFault_fields {w : Word} (h : statusLegal w = true) (c : Cause) :
    statusErr (statusFault w c) = true ∧ statusCause (statusFault w c) = c.code ∧
      statusBusy (statusFault w c) = false ∧ statusDone (statusFault w c) = false :=
  ⟨phaseOf_eq_halt.mp (statusFault_legal h c).2, statusCause_statusFault h c, by simp [statusFault],
    statusDone_setDone _ _⟩

/-- The whole state after fault entry: besides STATUS, IDX and the model's own records, nothing changes (60_exceptions
R214). -/
theorem takeFault_eq {s : State} (h : statusLegal s.eng.status = true) (c : Cause) :
    ∃ x, takeFault c s = (s.withEng { s.eng with
      status := 0x4#32 ||| (BitVec.ofNat 32 c.code <<< 4)
      idx := if c = .illegalCommand ∨ c = .addressRange ∨ c = .misaligned then 0 else s.eng.idx
      launch := []
      raced := false }).withContested x := by
  simp only [takeFault, statusFault_eq h, Cause.atCommand_iff]
  exact State.settled_same _

/-- With the host silent, a step of a halted engine changes nothing (42_vector_commands R170). -/
theorem step_of_halt {s : State} (hl : s.eng.live = true) (hp : s.eng.phase = .halt) (hi : s.inputs = []) :
    step s = .next s := by
  simp [step, hi, engineTurn, hl, hp]

/-- Settles O17: the state after fault entry is written out, and it is one in HALT, from which neither a command nor the
machine with the host silent makes a step. -/
theorem faultEntry : Obligations.FaultEntry := by
  unfold Obligations.FaultEntry
  intro c s hlegal
  have hhalt : (takeFault c s).eng.phase = .halt := phase_takeFault c s
  exact ⟨⟨[], false, takeFault_eq hlegal c⟩, hhalt, statusFault_fields hlegal c, fun _ => exec_halt hhalt,
    fun hlive hinputs => step_of_halt hlive hhalt hinputs⟩

end Sys2Proof.Machine

/-!
PROOFS. Decoding and encoding agree (30_encoding R91, R92), and why a word is illegal (30_encoding R97).
-/

namespace Sys2Proof.Machine

/-- Settles O3: the decoder takes a word for a command exactly when it is the command's own, read both ways. -/
theorem decodeEncodeAgree : Obligations.DecodeEncodeAgree := by
  unfold Obligations.DecodeEncodeAgree
  exact ⟨fun i _ => decode_encode i, fun _ _ h => (decode_eq_command_iff.mp h).symm⟩

/-- The first reason for an illegal word is a bit of ZERO (30_encoding R97). -/
theorem decode_zeroBitSet_iff {w : Word} : decode w = .illegal .zeroBitSet ↔ zeroField w ≠ 0 := by
  by_cases hz : zeroField w = 0
  · simp only [decode, hz, if_true, ne_eq, not_true_eq_false, iff_false]
    split <;> simp
  · simp [decode, hz]

/-- The second reason is the reserved OP, ZERO being clear (30_encoding R97). -/
theorem decode_reservedOp_iff {w : Word} : decode w = .illegal .reservedOp ↔ zeroField w = 0 ∧ opField w = 3 := by
  have hlt : opField w < 4 := Nat.mod_lt _ (by decide)
  by_cases hz : zeroField w = 0
  · have hop : opField w = 0 ∨ opField w = 1 ∨ opField w = 2 ∨ opField w = 3 := by omega
    rcases hop with h | h | h | h <;> simp [decode, hz, h]
  · simp [decode, hz]

/-- The command words are the numbers below 3 (30_encoding R92). -/
theorem decode_isCommand_iff {w : Word} : (∃ i, decode w = .command i) ↔ w.toNat < 3 := by
  have hlt : opField w < 4 := Nat.mod_lt _ (by decide)
  have hw := toNat_eq_fields w
  have hcommand : (∃ i, decode w = .command i) ↔ ¬∃ why, decode w = .illegal why := by
    cases decode w <;> simp
  rw [hcommand, decode_illegal_iff_fields]
  omega

/-- Settles O2: the three outcomes of the decoder by its two fields, which are the quotient and the remainder of the
word by 4. -/
theorem illegalWordsAreTheRest : Obligations.IllegalWordsAreTheRest := by
  unfold Obligations.IllegalWordsAreTheRest
  intro w
  have hlt : opField w < 4 := Nat.mod_lt _ (by decide)
  have hw := toNat_eq_fields w
  refine ⟨decode_zeroBitSet_iff.trans ?_, decode_reservedOp_iff.trans ?_, decode_isCommand_iff⟩
  · omega
  · omega

/-- Settles O4: the decoder is run on the six words. -/
theorem writtenWordsDecode : Obligations.WrittenWordsDecode := by
  unfold Obligations.WrittenWordsDecode
  decide

end Sys2Proof.Machine

/-!
PROOFS. Every step keeps the invariant of the machine, which reset meets (10_state R23, R27, R34, 20_memory R75, R83).
-/

namespace Sys2Proof.Machine

/-- The invariant speaks of the engines, not of which one is selected (60_exceptions R232). -/
theorem inv_selectEngine {s : State} (h : s.Inv) (k : Nat) : (selectEngine k s).Inv := by
  have hes := engines_selectEngine k s
  obtain ⟨hp, hm, -, -, -, -, hc⟩ := selectEngine_frame k s
  obtain ⟨params, engineCount, memWf, memBelow, ok, apart, contested⟩ := h
  exact ⟨by rwa [hp], by rwa [hes, hp], by rwa [hm], by rwa [hm, hp], by rwa [hes, hp], by rwa [hes], by rwa [hes, hc]⟩

/-- Settles O56: each of the ten things a step can do keeps the invariant. -/
theorem everyStepKeepsTheInvariant : Obligations.EveryStepKeepsTheInvariant := by
  unfold Obligations.EveryStepKeepsTheInvariant
  intro s t h ht
  have hl : ∀ l, (s.withInputs l).Inv := fun l => h.congr rfl rfl rfl rfl rfl rfl
  obtain ⟨l, ⟨x, n, rfl⟩ | ⟨ws, rfl⟩ | rfl | ⟨a, b, -, ha, rfl⟩ | ⟨-, rfl⟩ | ⟨k, -, rfl⟩ | ⟨hlive, -, reg, v, rfl⟩ |
    ⟨hlive, -, c, v, -, hc, rfl⟩ | ⟨hlive, hp, i, v, -, -, hacc, -⟩ | ⟨hlive, hp, i, hd, rfl⟩⟩ := step_cases ht
  · exact h.congr rfl rfl rfl rfl rfl rfl
  · exact h.congr rfl rfl rfl rfl rfl rfl
  · exact hl l
  · exact inv_agentWrite (hl l) ha b
  · exact inv_applyReset (hl l)
  · exact inv_selectEngine (hl l) k
  · exact inv_writeOperand (hl l) hlive reg v
  · exact inv_takeFault (hl l) hlive (by simp [hc]) rfl rfl rfl rfl h.memWf h.memBelow
  · exact inv_accept (hl l) hlive hp hacc
  · exact inv_sequencerStep (hl l) hlive hp hd

/-- Every engine of a machine right after reset is one after reset. -/
theorem mem_engines_resetWith {p : Params} {e : Engine} (he : e ∈ (State.resetWith p).engines) : e = Engine.reset := by
  simp only [State.engines, State.resetWith, List.nil_append, List.mem_cons, List.mem_replicate] at he
  rcases he with rfl | ⟨-, rfl⟩ <;> rfl

/-- The machine after reset meets the invariant: every engine is sound and none runs (10_state R35). -/
theorem inv_resetWith {p : Params} (hp : p.wellFormed = true) : (State.resetWith p).Inv where
  params := hp
  engineCount := by
    have hn : 1 ≤ p.numEngines := by
      simp only [Params.wellFormed, Bool.and_eq_true, decide_eq_true_eq] at hp
      exact hp.2
    simp [State.engines, State.resetWith, Nat.sub_add_cancel hn]
  memWf := State.resetWith_memWf p
  memBelow := by simp [State.resetWith]
  ok := fun e he _ => mem_engines_resetWith he ▸ Engine.reset_ok p
  apart := List.pairwise_of_forall_mem_list fun e he _ _ =>
    Engine.not_apart_of_not_running (mem_engines_resetWith he ▸ by decide)
  contested := by simp [State.resetWith]

/-- Settles O57: the machine after reset is one whose engines are all sound and at rest. -/
theorem resetMeetsTheInvariant : Obligations.ResetMeetsTheInvariant := by
  unfold Obligations.ResetMeetsTheInvariant
  exact ⟨fun _ hp => inv_resetWith hp, inv_resetWith (by decide)⟩

end Sys2Proof.Machine

/-!
PROOFS. The progress of the running engines (60_exceptions R215, R218): every step keeps it, since what one engine or
another agent writes either misses the buffers of a running command or puts that command in a race.
-/

namespace Sys2Proof.Machine

/-- Every engine that runs a command in no race has done what it should so far (60_exceptions R215, R218). -/
def State.AllProgress (s : State) : Prop := ∀ e ∈ s.engines, e.running = true → e.raced = false → s.Progress e

/-- Progress is read off the engine, memory and the byte order. -/
theorem State.Progress.of_mem_eq {s t : State} {e : Engine} (h : s.Progress e) (hp : t.params = s.params)
    (hm : t.mem = s.mem) : t.Progress e := by
  obtain ⟨input, stored, untouched⟩ := h
  exact ⟨by rwa [hm], by rwa [hm, hp], by rwa [hm]⟩

/-- A step that changes no engine and no byte keeps the progress of all. -/
theorem State.AllProgress.congr {s t : State} (h : s.AllProgress) (hes : t.engines = s.engines)
    (hp : t.params = s.params) (hm : t.mem = s.mem) : t.AllProgress := fun e he hr hu =>
  (h e (hes ▸ he) hr hu).of_mem_eq hp hm

/-- A step that leaves the other engines alone keeps the progress of all when it keeps theirs and the selected
engine's. -/
theorem State.AllProgress.of_eng {s t : State} (hb : t.before = s.before) (ha : t.after = s.after)
    (ho : ∀ f ∈ s.others, f.running = true → f.raced = false → t.Progress f)
    (he : t.eng.running = true → t.eng.raced = false → t.Progress t.eng) : t.AllProgress := by
  intro e hmem hr hu
  rcases State.mem_engines.mp hmem with rfl | hmem
  · exact he hr hu
  · rw [hb, ha] at hmem
    exact ho e hmem hr hu

/-- A step in which the selected engine does not run afterwards and that changes no byte keeps the progress of all. -/
theorem State.AllProgress.of_stopped {s t : State} (h : s.AllProgress) (hb : t.before = s.before)
    (ha : t.after = s.after) (hp : t.params = s.params) (hm : t.mem = s.mem) (hstop : t.eng.running = false) :
    t.AllProgress :=
  .of_eng hb ha (fun f hf hr hu => (h f (State.mem_engines.mpr (.inr hf)) hr hu).of_mem_eq hp hm)
    fun hr => by simp [hstop] at hr

/-- The engines other than a running one keep their progress when only its output changes: it clashes with none of
them that is in no race (20_memory R83). -/
theorem State.AllProgress.others {s t : State} (h : s.AllProgress) (hinv : s.Inv) (hrun : s.eng.running = true)
    (hp : t.params = s.params)
    (hm : ∀ a, ¬(s.eng.dst ≤ a ∧ a < s.eng.dst + 2 * s.eng.count) → t.mem.read a = s.mem.read a) :
    ∀ f ∈ s.others, f.running = true → f.raced = false → t.Progress f := by
  intro f hf hr hu
  have hmem : f ∈ s.engines := State.mem_engines.mpr (.inr hf)
  have hcompatible : s.eng.compatible f = true := by
    rcases Engine.apart_iff.mp ((State.apart_iff.mp hinv.apart).2 f hf) hrun hr with hc | ⟨-, hraced⟩
    · exact hc
    · simp [hu] at hraced
  obtain ⟨hlive, hphase⟩ := Engine.running_iff.mp hr
  exact (h f hmem hr hu).other (by rw [hp]) ((hinv.ok f hmem hlive).run hphase).inRange hcompatible hm

/-- The progress of the machine survives a mark: a command in no race after it was in none before. -/
theorem State.AllProgress.of_mark {s t : State} {p : Engine → Bool} (hes : t.engines = s.engines.map (Engine.markIf p))
    (h : ∀ e ∈ s.engines, e.running = true → e.raced = false → p e = false → t.Progress e) : t.AllProgress := by
  intro e he hr hu
  rw [hes, List.mem_map] at he
  obtain ⟨f, hf, rfl⟩ := he
  rw [Engine.markIf_running] at hr
  simp only [Engine.markIf_raced, hr, Bool.true_and, Bool.or_eq_false_iff] at hu
  rw [Engine.markIf_of_not (by simp [hu.2])]
  exact h f hf hr hu.1 hu.2

/-- Another agent's write misses the buffers of every running command that is in no race afterwards (20_memory R80).
-/
theorem allProgress_agentWrite {s : State} (h : s.AllProgress) (hinv : s.Inv) (a : Nat) (b : Byte) :
    (agentWrite a b s).AllProgress := by
  obtain ⟨u, hframe, hu⟩ := agentWrite_eq hinv.memWf a b
  rw [hu]
  refine .of_mark (s := s) (by rw [State.mark_engines, hframe.engines]) fun e he hr hraced hmiss => ?_
  obtain ⟨hlive, hphase⟩ := Engine.running_iff.mp hr
  refine (h e he hr hraced).congr (by simp [hframe.params]) ((hinv.ok e he hlive).run hphase).inRange fun x hx => ?_
  have hholds : e.holds x = true := by rwa [Engine.holds, Bool.or_eq_true]
  have hne : x ≠ a := by
    rintro rfl
    cases hholds.symm.trans hmiss
  exact hframe.outside x (by simp only [List.length_singleton]; omega)

/-- A reset in RUN writes to the output of the engine it stops only (70_reset_and_hazards R242). -/
theorem allProgress_applyReset {s : State} (h : s.AllProgress) (hinv : s.Inv) : (applyReset s).AllProgress := by
  obtain ⟨hp, hb, ha, -, -, -, he⟩ := applyReset_frame s
  have hstop : (applyReset s).eng.running = false := by rw [he]; decide
  by_cases hr : s.eng.running = true
  · have hm : (applyReset s).mem = s.abandoned.mem := by simp [applyReset, hr]
    have hframe := storeFrame_abandoned hinv.memWf
    refine .of_eng hb ha (h.others hinv hr hp fun a ha => ?_) fun hx => by simp [hstop] at hx
    rw [hm]
    exact hframe.outside a (by simp only [State.length_abandonedBytes, Engine.scalars]; omega)
  · exact h.of_stopped hb ha hp (by simp [applyReset, hr]) hstop

/-- The command that acceptance starts has nothing behind it yet (43_command_port R193). -/
theorem progress_accepted (w : Word) (s : State) : (accepted w s).Progress (accepted w s).eng where
  input := fun _ _ => rfl
  stored := fun k hk => absurd hk (Nat.not_lt_zero k)
  untouched := fun _ _ _ => rfl

/-- Acceptance changes no byte, and of the other engines only the marks (43_command_port R193). -/
theorem allProgress_accepted {s : State} (h : s.AllProgress) (w : Word) : (accepted w s).AllProgress := by
  have hmarked : (s.mark fun f => !s.eng.compatible f).AllProgress :=
    .of_mark (s := s) (State.mark_engines s _) fun e he hr hu _ => (h e he hr hu).of_mem_eq rfl rfl
  exact .of_eng (s := s.mark fun f => !s.eng.compatible f) rfl rfl
    (fun f hf hr hu => (hmarked f (State.mem_engines.mpr (.inr hf)) hr hu).of_mem_eq rfl rfl)
    fun _ _ => progress_accepted w s

/-- A step of the sequencer after which the engine runs leaves STATUS and the mark of a race as they were. -/
theorem sequencerStep_of_run {w : Word} {g : Option Group} {s : State} (hr : s.eng.phase = .run)
    (hr' : (sequencerStep w g s).eng.phase = .run) :
    (sequencerStep w g s).eng.status = s.eng.status ∧ (sequencerStep w g s).eng.raced = s.eng.raced := by
  rcases sequencerStep_cases w g s with ⟨-, e⟩ | ⟨v, -, -, -, -, e⟩ | ⟨vb, -, -, -, -, -, e⟩ | ⟨c, t, -, e, -⟩ | e
  · rw [e, phase_complete hr] at hr'; cases hr'
  · rw [e, State.withIdx_eng, State.stored_eng]; exact ⟨rfl, rfl⟩
  · rw [e, State.withIdx_eng, State.storedGroup_eng]; exact ⟨rfl, rfl⟩
  · rw [e, phase_takeFault] at hr'; cases hr'
  · rw [e]; exact ⟨rfl, rfl⟩

/-- A step of the sequencer keeps the progress of its own engine and writes to its output only. -/
theorem allProgress_sequencerStep {s : State} (h : s.AllProgress) (hinv : s.Inv) (hlive : s.eng.live = true)
    (hr : s.eng.phase = .run) (w : Word) (g : Option Group) : (sequencerStep w g s).AllProgress := by
  obtain ⟨hp, hb, ha, -⟩ := sequencerStep_frame w g s
  have hrun := Engine.running_iff.mpr ⟨hlive, hr⟩
  have hin := ((hinv.engOk hlive).run hr).inRange
  refine .of_eng hb ha (h.others hinv hrun hp (read_sequencerStep_outside hinv.memWf hin)) fun hrun' hu => ?_
  have hr' := (Engine.running_iff.mp hrun').2
  rw [(sequencerStep_of_run hr hr').2] at hu
  exact progress_sequencerStep hinv hlive hr hu (h s.eng s.eng_mem hrun hu) hr'

/-- Settles O58: each of the ten things a step can do keeps the progress of all running engines. -/
theorem runningEnginesHaveConvertedUpToIdx : Obligations.RunningEnginesHaveConvertedUpToIdx := by
  unfold Obligations.RunningEnginesHaveConvertedUpToIdx
  intro s t hinv (h : s.AllProgress) ht
  change t.AllProgress
  have hl : ∀ l, (s.withInputs l).AllProgress := fun l => h.congr rfl rfl rfl
  have hinvl : ∀ l, (s.withInputs l).Inv := fun l => hinv.congr rfl rfl rfl rfl rfl rfl
  obtain ⟨l, ⟨x, n, rfl⟩ | ⟨ws, rfl⟩ | rfl | ⟨a, b, -, -, rfl⟩ | ⟨-, rfl⟩ | ⟨k, -, rfl⟩ | ⟨-, hp, reg, v, rfl⟩ |
    ⟨-, -, c, v, -, -, rfl⟩ | ⟨-, -, i, v, -, -, -, rfl⟩ | ⟨hlive, hp, i, -, rfl⟩⟩ := step_cases ht
  · exact h.congr rfl rfl rfl
  · exact h.congr rfl rfl rfl
  · exact hl l
  · exact allProgress_agentWrite (hl l) (hinvl l) a b
  · exact allProgress_applyReset (hl l) (hinvl l)
  · obtain ⟨hpar, hm, -⟩ := selectEngine_frame k (s.withInputs l)
    exact (hl l).congr (engines_selectEngine k _) hpar hm
  · obtain ⟨e, he, -, -, hst, -⟩ := writeOperand_frame reg v (s.withInputs l)
    rw [he]
    have hidle : e.phase = .idle := (Engine.phase_of_status hst).trans hp
    exact (hl l).of_stopped rfl rfl rfl rfl (by simp [Engine.running, hidle])
  · exact (hl l).of_stopped rfl rfl rfl rfl (by rw [Engine.running, phase_takeFault]; simp)
  · exact allProgress_accepted (hl l) (encode i)
  · exact allProgress_sequencerStep (hl l) (hinvl l) hlive hp (encode i) (groupOf i)

end Sys2Proof.Machine

/-!
PROOFS. The command port (43_command_port R190 to R193, R243) and what a step does around it: which transaction or
turn a step is, said once, and each statement about one of them read off that.
-/

namespace Sys2Proof.Machine

/-! ### Which transaction or turn a step is -/

theorem step_silent {s : State} (hi : s.inputs = []) : step s = engineTurn s := by
  simp only [step, hi]

theorem step_action {s : State} {act : HostAction} {rest : List HostAction} (hi : s.inputs = act :: rest) :
    step s = hostAction act (s.withInputs rest) := by
  simp only [step, hi]

theorem State.withInputs_self {s : State} {l : List HostAction} (h : s.inputs = l) : s.withInputs l = s := by
  subst h; rfl

/-- The turn of an engine in RUN is one transition of the latched command (42_vector_commands R170). -/
theorem engineTurn_run {s : State} {i : Instr} (hl : s.eng.live = true) (hp : s.eng.phase = .run)
    (hd : decode s.eng.cmd = .command i) : engineTurn s = exec i s := by
  simp [engineTurn, hl, hp, hd]

/-- An engine in IDLE or HALT has nothing to do in its turn (42_vector_commands R170). -/
theorem engineTurn_of_not_run {s : State} (hl : s.eng.live = true) (hp : s.eng.phase ≠ .run) :
    engineTurn s = .next s := by
  simp only [engineTurn, hl, Bool.not_true, Bool.false_eq_true, if_false]
  split
  · contradiction
  · rfl
  · rfl

theorem engineTurn_of_not_live {s : State} (hl : s.eng.live = false) : engineTurn s = .refused .beforeFirstReset := by
  simp [engineTurn, hl]

theorem ifLive_of_live {s : State} (hl : s.eng.live = true) (r : Host.Outcome State Fault Refusal) : ifLive s r = r :=
  if_pos hl

theorem ifLive_of_not_live {s : State} (hl : s.eng.live = false) (r : Host.Outcome State Fault Refusal) :
    ifLive s r = .refused .beforeFirstReset := by
  simp [ifLive, hl]

/-- What `wait` does: the host goes on, or the engine takes its turn with `wait` still first in line (30_encoding
R99). -/
theorem step_wait {s : State} {rest : List HostAction} (hi : s.inputs = .wait :: rest) : step s = waitTurn rest s := by
  have hself : (s.withInputs rest).withInputs (.wait :: rest) = s := State.withInputs_self hi
  rw [step_action hi, hostAction, State.withInputs_inputs, hself]

/-- A reset outside RUN, before the first one too, changes the selected engine only (70_reset_and_hazards R241). -/
theorem applyReset_of_not_running {s : State} (h : s.eng.running = false) : applyReset s = s.withEng Engine.reset := by
  simp [applyReset, h]

theorem writeCmd_command {w : Word} {i : Instr} {s : State} (hp : s.eng.phase = .idle) (hd : decode w = .command i) :
    writeCmd w s = exec i s := by
  rw [writeCmd, hp, hd]

theorem writeCmd_of_not_idle {w : Word} {s : State} (hp : s.eng.phase ≠ .idle) : writeCmd w s = .next s := by
  unfold writeCmd
  split
  · contradiction
  · rfl
  · rfl

/-! ### The statements -/

/-- Settles O5: the write reaches `exec` through the decoder. -/
theorem commandWriteRunsDecodedCommand : Obligations.CommandWriteRunsDecodedCommand := by
  unfold Obligations.CommandWriteRunsDecodedCommand
  intro s rest v i hi hl hp hd _
  rw [step_write_cmd hi hl]
  exact writeCmd_command hp hd

/-- Settles O6: with the host silent, and at its `tick`, the step is the engine's turn. -/
theorem runningEngineStepsLatchedCommand : Obligations.RunningEngineStepsLatchedCommand := by
  unfold Obligations.RunningEngineStepsLatchedCommand
  intro s i hl hp hd _
  refine ⟨fun hi => ?_, fun rest hi => ?_⟩
  · rw [step_silent hi]
    exact engineTurn_run hl hp hd
  · rw [step_action hi, hostAction]
    exact engineTurn_run hl hp hd

/-- Settles O8: a write to CMD looks at the engine state first. -/
theorem commandWriteIgnoredOutsideIdle : Obligations.CommandWriteIgnoredOutsideIdle := by
  unfold Obligations.CommandWriteIgnoredOutsideIdle
  intro s rest v hi hl hp
  rw [step_write_cmd hi hl]
  exact writeCmd_of_not_idle hp

/-- The registers by number (30_encoding R94). -/
theorem Engine.readReg_eq (e : Engine) (reg : Nat) :
    e.readReg reg =
      if reg = 0 then e.cmd.toNat else if reg = 1 then e.status.toNat else if reg = 2 then e.dst
      else if reg = 3 then e.src else if reg = 4 then e.count else if reg = 5 then e.idx else 0 := by
  match reg with
  | 0 | 1 | 2 | 3 | 4 | 5 | _ + 6 => rfl

/-- Settles O10: a read tells the host the register and does nothing else. -/
theorem registerReadsHaveNoSideEffect : Obligations.RegisterReadsHaveNoSideEffect := by
  unfold Obligations.RegisterReadsHaveNoSideEffect
  intro s rest reg hi hl
  rw [step_action hi, hostAction, ifLive_of_live (s := s.withInputs rest) hl, Engine.readReg_eq]
  rfl

/-- Settles O11: `wait` tests DONE and ERR and else is the engine's turn. -/
theorem waitEndsOnDoneOrErr : Obligations.WaitEndsOnDoneOrErr := by
  unfold Obligations.WaitEndsOnDoneOrErr
  intro s rest hi hl
  rw [step_wait hi, waitTurn, hl, Bool.true_and, ← Bool.or_eq_true]
  exact ⟨fun h => if_pos h, fun h => if_neg h⟩

/-- Settles O13: every transaction and turn but reset asks first whether the engine is live, and one that is not
live does not run, so its reset leaves memory alone. -/
theorem noRuleBeforeFirstReset : Obligations.NoRuleBeforeFirstReset := by
  unfold Obligations.NoRuleBeforeFirstReset
  intro s rest hl
  have hlive : (s.withInputs rest).eng.live = false := hl
  refine ⟨fun hi => ?_, fun reg hi => ?_, fun reg v hi => ?_, fun hi => ?_, fun hi => ?_, fun hi => ?_⟩
  · rw [step_silent hi, engineTurn_of_not_live hl]
  · rw [step_action hi, hostAction, ifLive_of_not_live hlive]
  · rw [step_action hi, hostAction, ifLive_of_not_live hlive]
  · rw [step_action hi, hostAction, engineTurn_of_not_live hlive]
  · rw [step_wait hi, waitTurn, hl, Bool.false_and, if_neg Bool.false_ne_true, engineTurn_of_not_live hl]
  · rw [step_action hi, hostAction, applyReset_of_not_running (by rw [Engine.running, hlive, Bool.false_and])]
    rfl

/-- With the host silent, an engine in IDLE or HALT takes no step (42_vector_commands R170). -/
theorem step_of_not_run {s : State} (hl : s.eng.live = true) (hp : s.eng.phase ≠ .run) (hi : s.inputs = []) :
    step s = .next s := by
  rw [step_silent hi, engineTurn_of_not_run hl hp]

/-- Settles O14: the registers are read off the engine after reset, which is in IDLE. -/
theorem resetClearsEveryRegister : Obligations.ResetClearsEveryRegister := by
  unfold Obligations.ResetClearsEveryRegister
  have hp : State.reset.eng.phase = .idle := by decide
  exact ⟨rfl, rfl, rfl, rfl, rfl, rfl, hp, step_of_not_run rfl (by simp [hp]) rfl⟩

/-- Settles O15: an engine in IDLE or HALT is not running. -/
theorem resetOutsideRunChangesNoMemory : Obligations.ResetOutsideRunChangesNoMemory := by
  unfold Obligations.ResetOutsideRunChangesNoMemory
  intro s rest hi hp
  have hrunning : (s.withInputs rest).eng.running = false := by simp [Engine.running, hp]
  rw [step_action hi, hostAction, applyReset_of_not_running hrunning]
  rfl

/-- Settles O32: HALT stops the transitions of a command, and the turn of an engine outside RUN is empty. -/
theorem noStepOutsideRun : Obligations.NoStepOutsideRun := by
  unfold Obligations.NoStepOutsideRun
  exact ⟨fun _ _ hp => exec_halt hp, fun _ hl hp hi => step_of_not_run hl hp hi⟩

/-! ### Assembler lines -/

theorem encode_injective {i j : Instr} (h : encode i = encode j) : i = j := by
  have hd : decode (encode i) = .command j := by rw [h, decode_encode]
  simpa using hd

/-- The commands a `convert` line may stand for (30_encoding R99). -/
theorem mem_convertChoices {i : Instr} {dst src : Nat} :
    i ∈ convertChoices dst src ↔ (i = .convVa → dst % 16 = 0 ∧ src % 16 = 0) := by
  unfold convertChoices Config.alignBytes
  by_cases h : dst % 16 = 0 ∧ src % 16 = 0
  · cases i <;> simp [h]
  · cases i <;> simp [h]

/-- The expansion of a `conv` line tells which command it is of (30_encoding R99). -/
theorem convActions_injective {i j : Instr} {dst src n : Nat} (h : convActions i dst src n = convActions j dst src n) :
    i = j := by
  simp only [convActions, List.cons.injEq, HostAction.write.injEq, true_and, and_true] at h
  exact encode_injective (BitVec.eq_of_toNat_eq h)

/-- Settles O52: a `convert` line expands as the `conv` line of each command it may stand for. -/
theorem assemblerLinesExpand : Obligations.AssemblerLinesExpand := by
  unfold Obligations.AssemblerLinesExpand
  intro i dst src n
  refine ⟨rfl, ?_⟩
  change convActions i dst src n ∈ (convertChoices dst src).map _ ↔ _
  rw [← mem_convertChoices, List.mem_map]
  constructor
  · rintro ⟨j, hj, he⟩
    exact convActions_injective he ▸ hj
  · exact fun h => ⟨i, h, rfl⟩

end Sys2Proof.Machine

/-!
PROOFS. A command's write in IDLE (43_command_port R193): which of the checks of acceptance stops it, and what
acceptance leaves (20_memory R79, R83).
-/

namespace Sys2Proof.Machine

/-! ### The checks of acceptance, in their order -/

theorem accept_addressRange {w : Word} {g : Option Group} {s : State} (hf : s.eng.rangesFit s.params = false) :
    accept w g s = .next (takeFault .addressRange s) := by
  simp [accept, hf]

theorem accept_misaligned {w : Word} {s : State} (hf : s.eng.rangesFit s.params = true) (ha : s.eng.aligned = false) :
    accept w (some .aligned) s = .next (takeFault .misaligned s) := by
  simp [accept, hf, ha]

section
variable {i : Instr} {s : State} (hf : s.eng.rangesFit s.params = true) (ha : i = .convVa → s.eng.aligned = true)
include hf ha

theorem accept_overlap (hd : s.eng.buffersDisjoint = false) :
    accept (encode i) (groupOf i) s = .refused .overlappingBuffers := by
  cases i with
  | convRef => simp [accept, hf, hd, groupOf]
  | convVu => simp [accept, hf, hd, groupOf]
  | convVa => simp [accept, hf, hd, ha]

theorem accept_accepted (hd : s.eng.buffersDisjoint = true) :
    accept (encode i) (groupOf i) s = .next (accepted (encode i) s) := by
  cases i with
  | convRef => simp [accept, hf, hd, groupOf]
  | convVu => simp [accept, hf, hd, groupOf]
  | convVa => simp [accept, hf, hd, ha]

end

/-! ### What acceptance leaves -/

theorem Engine.clash_iff {e f : Engine} : e.Clash f ↔ (!e.compatible f) = true := by
  rw [Bool.not_eq_true', ← Bool.not_eq_true, ← Engine.not_clash_iff, not_not]

/-- The new command is in a race exactly when it clashes with a running one (20_memory R83). -/
theorem othersCompatible_eq_false_iff {s : State} :
    s.othersCompatible = false ↔ ∃ f ∈ s.others, f.running = true ∧ s.eng.Clash f := by
  simp [State.othersCompatible, Engine.clash_iff]

/-- STATUS after acceptance is RUN and nothing else (10_state R23). -/
theorem accepted_eq {s : State} (h : statusLegal s.eng.status = true) (hp : s.eng.phase = .idle) (w : Word) :
    accepted w s = { s with
      before := s.before.map (Engine.markIf fun f => !s.eng.compatible f)
      after := s.after.map (Engine.markIf fun f => !s.eng.compatible f)
      eng := { s.eng with cmd := w, idx := 0, status := 1#32, launch := s.mem, raced := !s.othersCompatible } } := by
  rw [← statusAccept_idle h hp]
  rfl

/-- Without a clash acceptance changes the selected engine only (20_memory R83). -/
theorem accepted_of_compatible {s : State} (h : statusLegal s.eng.status = true) (hp : s.eng.phase = .idle)
    (hc : ∀ f ∈ s.others, f.running = true → s.eng.compatible f = true) (w : Word) :
    accepted w s =
      s.withEng { s.eng with cmd := w, idx := 0, status := 1#32, launch := s.mem, raced := false } := by
  have hall : s.othersCompatible = true := by
    simp only [State.othersCompatible, List.all_eq_true, Bool.or_eq_true, Bool.not_eq_true']
    intro f hf
    cases hr : f.running with
    | false => exact .inl rfl
    | true => exact .inr (hc f hf hr)
  have hpick : ∀ f ∈ s.others, (f.running && !s.eng.compatible f) = false := fun f hf => by
    cases hr : f.running with
    | false => rfl
    | true => simp [hc f hf hr]
  rw [accepted_eq h hp, map_markIf_of_not fun f hf => hpick f (List.mem_append_left _ hf),
    map_markIf_of_not fun f hf => hpick f (List.mem_append_right _ hf), hall]
  rfl

/-! ### The statements -/

/-- Settles O18: the range check comes first. -/
theorem addressRangeFaultAtCommand : Obligations.AddressRangeFaultAtCommand := by
  unfold Obligations.AddressRangeFaultAtCommand
  intro i s hp hst hrange
  have hf : s.eng.rangesFit s.params = false := by
    rw [← Bool.not_eq_true, Engine.rangesFit_iff]
    omega
  rw [exec_idle hp, accept_addressRange hf, takeFault_write hst rfl]
  rfl

/-- Settles O19: the ranges fit, so the alignment check decides. -/
theorem misalignedFaultAtConvVa : Obligations.MisalignedFaultAtConvVa := by
  unfold Obligations.MisalignedFaultAtConvVa
  intro s hp hst hin hout halign
  have ha : s.eng.aligned = false := by
    rw [← Bool.not_eq_true, Engine.aligned_iff]
    omega
  rw [exec_idle hp, groupOf, accept_misaligned (Engine.rangesFit_iff.mpr ⟨hin, hout⟩) ha, takeFault_write hst rfl]
  rfl

/-- A running engine that a mark picks is put in a race, and no other engine is changed. -/
theorem getElem?_map_markIf {p : Engine → Bool} {es : List Engine} {k : Nat} {f : Engine} (hk : es[k]? = some f) :
    (f.running = true ∧ p f = true → (es.map (Engine.markIf p))[k]? = some { f with raced := true }) ∧
      (¬(f.running = true ∧ p f = true) → (es.map (Engine.markIf p))[k]? = some f) := by
  rw [List.getElem?_map, hk, ← Bool.and_eq_true]
  exact ⟨fun h => congrArg some (if_pos h), fun h => congrArg some (if_neg h)⟩

/-- Settles O20: the overlap check is the last one, and acceptance marks the commands that clash. -/
theorem overlapRefusedClashRaces : Obligations.OverlapRefusedClashRaces := by
  unfold Obligations.OverlapRefusedClashRaces
  intro i s hp hst hin hout halign
  have hf : s.eng.rangesFit s.params = true := Engine.rangesFit_iff.mpr ⟨hin, hout⟩
  have ha : i = .convVa → s.eng.aligned = true := fun hi => Engine.aligned_iff.mpr (halign hi)
  rw [exec_idle hp]
  refine ⟨fun hoverlap => accept_overlap hf ha ?_, fun hdisjoint => ?_⟩
  · rw [← Bool.not_eq_true, Engine.buffersDisjoint_iff]
    exact fun h => hoverlap.elim h
  · rw [accept_accepted hf ha (Engine.buffersDisjoint_iff.mpr hdisjoint), accepted_eq hst hp]
    refine ⟨_, _, _, rfl, ?_, List.length_map .., List.length_map .., fun k f hk => ?_⟩
    · rw [Bool.not_eq_true']
      exact othersCompatible_eq_false_iff
    · rw [← List.map_append, Engine.clash_iff]
      exact getElem?_map_markIf (p := fun f => !s.eng.compatible f) hk

/-- Settles O27: the launch passes every check and clashes with no running command. -/
theorem acceptanceStartsCommand : Obligations.AcceptanceStartsCommand := by
  unfold Obligations.AcceptanceStartsCommand
  intro i s hp hst hin hout halign hdisjoint hclear
  have hf : s.eng.rangesFit s.params = true := Engine.rangesFit_iff.mpr ⟨hin, hout⟩
  have ha : i = .convVa → s.eng.aligned = true := fun hi => Engine.aligned_iff.mpr (halign hi)
  rw [exec_idle hp, accept_accepted hf ha (Engine.buffersDisjoint_iff.mpr hdisjoint),
    accepted_of_compatible hst hp fun f hf hr => Engine.compatible_iff.mpr (hclear f hf hr)]

/-- A write to CMD makes no memory request (43_command_port R193). -/
theorem commandRequests_idle {s : State} (hp : s.eng.phase = .idle) (i : Instr) : commandRequests i s = [] := by
  unfold commandRequests
  rw [hp]

/-- A command's write ends in a fault of acceptance or is accepted (43_command_port R193). -/
theorem accept_fault_or_accepted {w : Word} {g : Option Group} {s t : State} (h : accept w g s = .next t) :
    (∃ c : Cause, c.atCommand = true ∧ t = takeFault c s) ∨ t = accepted w s := by
  rcases accept_cases h with rfl | rfl | ⟨-, -, -, rfl⟩
  · exact .inl ⟨_, rfl, rfl⟩
  · exact .inl ⟨_, rfl, rfl⟩
  · exact .inr rfl

/-- Settles O34: a fault halts the engine, acceptance takes it to RUN, and neither touches memory or an operand. -/
theorem commandWriteFrame : Obligations.CommandWriteFrame := by
  unfold Obligations.CommandWriteFrame
  intro i s t hp ht
  refine ⟨commandRequests_idle hp i, ?_⟩
  rw [exec_idle hp] at ht
  rcases accept_fault_or_accepted ht with ⟨c, hc, rfl⟩ | rfl
  · rw [phase_takeFault]
    exact ⟨rfl, rfl, rfl, rfl, rfl, rfl, rfl, rfl, rfl, rfl, rfl, rfl, if_pos hc, nofun, fun _ => rfl, nofun⟩
  · have hrun : (accepted (encode i) s).eng.phase = .run := phaseOf_statusAccept hp
    rw [hrun]
    exact ⟨rfl, rfl, rfl, rfl, rfl, rfl, map_unmarked_markIf _ _, map_unmarked_markIf _ _, rfl, rfl, rfl, rfl, rfl,
      fun _ => rfl, nofun, nofun⟩

end Sys2Proof.Machine

/-!
PROOFS. The numeric function (40_reference_kernel R110 to R121): what a word denotes, saturation, rounding,
monotony, the bit-level form, and what a NaN gives.
-/

namespace Sys2Proof.Machine

/-! ### The three classes of exponents (40_reference_kernel R110) -/

theorem f32_of_exp_zero {w : Word} (h : expField w = 0) : f32 w = .real (signed (signBit w) (fracField w)) := by
  simp [f32, h]

theorem f32_of_exp_normal {w : Word} (h0 : 1 ≤ expField w) (h1 : expField w ≤ 254) :
    f32 w = .real (signed (signBit w) ((2 ^ 23 + fracField w) * 2 ^ (expField w - 1))) := by
  rw [f32, if_neg (by omega), if_neg (by omega)]

theorem f32_of_exp_max {w : Word} (h : expField w = 255) :
    f32 w = if fracField w = 0 then (if signBit w then .negInf else .posInf) else .nan := by
  simp [f32, h]

/-- The scale of a normal value: `2^(e - 1)` units of `2^(-149)` are `2^(e - 150)`. -/
theorem two_pow_mul_unit {e : Nat} (h : 1 ≤ e) : (2 : ℚ) ^ (e - 1) * 2 ^ (-149 : ℤ) = 2 ^ ((e : ℤ) - 150) := by
  rw [← zpow_natCast, ← zpow_add₀ two_ne_zero]
  congr 1
  omega

/-- Settles O41: the three classes of exponents, a subnormal and a normal value as rational numbers. -/
theorem wordDenotesBinary32 : Obligations.WordDenotesBinary32 := by
  unfold Obligations.WordDenotesBinary32
  intro w
  simp only [← expField_eq, ← fracField_eq]
  refine ⟨fun he => ⟨_, f32_of_exp_zero he, ?_⟩, fun h1 h2 => ⟨_, f32_of_exp_normal h1 h2, ?_⟩, fun he hf => ?_,
    fun he hf => ?_⟩
  · rw [signed_cast]
    rfl
  · have hm : (((2 ^ 23 + fracField w) * 2 ^ (expField w - 1) : Nat) : ℚ) =
        (2 ^ 23 + fracField w) * 2 ^ (expField w - 1) := by norm_cast
    rw [signed_cast, hm, ← two_pow_mul_unit h1]
    simp only [mul_assoc]
    rfl
  · rw [f32_of_exp_max he, if_pos hf]
    rfl
  · rw [f32_of_exp_max he, if_neg hf]

/-! ### The result as a byte -/

theorem toNat_byte (v : Int) : ((byte v).toNat : Int) = v % 256 := by
  rw [byte, BitVec.toNat_ofNat]
  omega

/-- Two's complement holds every integer of [-128, 127] (20_memory R64). -/
theorem toInt_byte {v : Int} (h1 : -128 ≤ v) (h2 : v ≤ 127) : (byte v).toInt = v := by
  have hb := toNat_byte v
  rw [BitVec.toInt_eq_toNat_cond]
  split <;> omega

/-- Settles O44: the range of `FP2I8` is that of two's complement in a byte. -/
theorem outputScalarsInRange : Obligations.OutputScalarsInRange := by
  unfold Obligations.OutputScalarsInRange
  intro pol who d w v h
  obtain ⟨h1, h2⟩ := fp2i8_range h
  exact ⟨h1, h2, toNat_byte v, toInt_byte h1 h2⟩

/-! ### Saturation and rounding -/

theorem rnd_mul_unit (n : Int) : rnd (n * unit) = n := by
  have := unit_pos
  rw [rnd_iff, sub_self]
  omega

theorem fp2i8_posInf {w : Word} (h : f32 w = .posInf) (nan : Option Int) : fp2i8 nan w = some 127 := by
  rw [fp2i8, h]
  exact congrArg some (rnd_mul_unit 127)

theorem fp2i8_negInf {w : Word} (h : f32 w = .negInf) (nan : Option Int) : fp2i8 nan w = some (-128) := by
  rw [fp2i8, h]
  exact congrArg some (rnd_mul_unit (-128))

theorem fp2i8_real {w : Word} {k : Int} (h : f32 w = .real k) (nan : Option Int) :
    fp2i8 nan w = some (rnd (clipReal k)) := by
  rw [fp2i8, h]
  rfl

theorem clipReal_of_gt {k : Int} (h : 127 * unit < k) : clipReal k = 127 * unit := by
  have := unit_pos
  rw [clipReal_eq]
  omega

theorem clipReal_of_lt {k : Int} (h : k < -128 * unit) : clipReal k = -128 * unit := by
  have := unit_pos
  rw [clipReal_eq]
  omega

theorem clipReal_of_range {k : Int} (h1 : -128 * unit ≤ k) (h2 : k ≤ 127 * unit) : clipReal k = k := by
  rw [clipReal_eq]
  omega

/-- Settles O45: CLIP gives a bound or the value itself, and RND keeps integers. -/
theorem saturationAndRangeFidelity : Obligations.SaturationAndRangeFidelity := by
  unfold Obligations.SaturationAndRangeFidelity
  intro nan w
  refine ⟨fun h => fp2i8_posInf h nan, fun h => fp2i8_negInf h nan, fun k h => ?_⟩
  rw [fp2i8_real h]
  refine ⟨fun hgt => ?_, fun hlt => ?_, fun h1 h2 => ?_⟩
  · rw [clipReal_of_gt hgt, rnd_mul_unit]
  · rw [clipReal_of_lt hlt, rnd_mul_unit]
  · rw [clipReal_of_range h1 h2]

/-- Which reals CLIP and RND take to `n`: those nearest to it, ties to even, after the cut at the bounds. -/
theorem fp2i8_eq_iff {w : Word} {k : Int} (h : f32 w = .real k) (nan : Option Int) (n : Int) :
    fp2i8 nan w = some n ↔
      2 * (max (min k (127 * unit)) (-128 * unit) - n * unit) ≤ unit ∧
      -unit ≤ 2 * (max (min k (127 * unit)) (-128 * unit) - n * unit) ∧
      ((2 * (max (min k (127 * unit)) (-128 * unit) - n * unit) = unit ∨
        2 * (max (min k (127 * unit)) (-128 * unit) - n * unit) = -unit) → n % 2 = 0) := by
  rw [fp2i8_real h, Option.some_inj, rnd_iff, clipReal_eq]

/-- Settles O46: 0 and -128 are even and win their ties, 127 is odd and loses its tie. -/
theorem whichValuesGiveZeroAndTheBounds : Obligations.WhichValuesGiveZeroAndTheBounds := by
  unfold Obligations.WhichValuesGiveZeroAndTheBounds
  intro nan w k h
  have := unit_pos
  simp only [fp2i8_eq_iff h]
  refine ⟨?_, ?_, ?_⟩ <;> omega

/-! ### Monotony and symmetry -/

theorem clipReal_mono {a b : Int} (h : a ≤ b) : clipReal a ≤ clipReal b := by
  rw [clipReal_eq, clipReal_eq]
  omega

/-- A smaller real is not rounded to a greater integer: half a unit would separate each from its own result. -/
theorem rnd_mono {a b : Int} (h : a ≤ b) : rnd a ≤ rnd b := by
  by_contra hlt
  obtain ⟨-, ha, -⟩ := rnd_nearest a
  obtain ⟨hb, -, -⟩ := rnd_nearest b
  have hmul : (rnd b + 1) * unit ≤ rnd a * unit := Int.mul_le_mul_of_nonneg_right (by omega) unit_pos.le
  rw [add_mul, one_mul] at hmul
  obtain rfl : a = b := by omega
  exact hlt le_rfl

theorem rnd_neg (c : Int) : rnd (-c) = -rnd c := by
  obtain ⟨h1, h2, h3⟩ := rnd_nearest c
  rw [rnd_iff, neg_mul]
  exact ⟨by omega, by omega, fun htie => by have := h3 (by omega); omega⟩

/-- Settles O47: CLIP and RND are monotone; RND is odd, and so is CLIP where it clips nothing. -/
theorem conversionIsMonotone : Obligations.ConversionIsMonotone := by
  unfold Obligations.ConversionIsMonotone
  intro nan w w' k k' v v' hw hw' hv hv'
  rw [fp2i8_real hw, Option.some_inj] at hv
  rw [fp2i8_real hw', Option.some_inj] at hv'
  subst hv hv'
  refine ⟨fun hk => rnd_mono (clipReal_mono hk), fun hk h1 h2 => ?_⟩
  have := unit_pos
  rw [clipReal_of_range (k := k) (by omega) h2, clipReal_of_range (by omega) (by omega), hk, rnd_neg]

/-! ### NaN -/

/-- For a NaN `FP2I8` gives NaNResult (40_reference_kernel R115). -/
theorem fp2i8_of_nan {w : Word} (h : isNaN w = true) (nan : Option Int) : fp2i8 nan w = nan := by
  rw [fp2i8, of_decide_eq_true h]
  rfl

/-- Settles O49: NaNResult is read off the policy. -/
theorem naNResultFollowsPolicy : Obligations.NaNResultFollowsPolicy := by
  unfold Obligations.NaNResultFollowsPolicy
  intro w who d h
  exact ⟨fp2i8_of_nan h _, fun _ => fp2i8_of_nan h _, fp2i8_of_nan h _⟩

/-- A scalar has a value unless it is a NaN that NAN_POLICY refuses (40_reference_kernel R119). -/
theorem fp2i8_isSome {pol : NanPolicy} {w : Word} (h : isNaN w = false ∨ pol ≠ .fault) (who : Drawer) (d : Nat) :
    ∃ v, fp2i8 (nanResult pol who d) w = some v := by
  cases hn : isNaN w with
  | false => exact fp2i8_isSome_of_not_nan hn _
  | true =>
    rw [fp2i8_of_nan hn]
    cases pol with
    | draw => exact ⟨_, rfl⟩
    | fixed v => exact ⟨_, rfl⟩
    | fault => simp [hn] at h

/-! ### The bit-level form (40_reference_kernel R116) -/

theorem isNaN_iff {w : Word} : isNaN w = true ↔ expField w = 255 ∧ fracField w ≠ 0 := by
  have hlt := expField_lt w
  rw [isNaN, decide_eq_true_eq]
  by_cases hmax : expField w = 255
  · rw [f32_of_exp_max hmax]
    split
    · split <;> simp [*]
    · simp [*]
  · by_cases hzero : expField w = 0
    · simp [f32_of_exp_zero hzero, hzero]
    · simp [f32_of_exp_normal (w := w) (by omega) (by omega), hmax]

@[simp] theorem signed_true (m : Nat) : signed true m = -(m : Int) := rfl
@[simp] theorem signed_false (m : Nat) : signed false m = (m : Int) := rfl

/-- A magnitude of 128 or more saturates, whichever its sign. -/
theorem rnd_clipReal_of_large {m : Nat} (h : 128 * unit ≤ m) (b : Bool) :
    rnd (clipReal (signed b m)) = if b then -128 else 127 := by
  have := unit_pos
  cases b with
  | false =>
    rw [signed_false, clipReal_of_gt (by omega), rnd_mul_unit]
    rfl
  | true =>
    have hc : clipReal (-(m : Int)) = -128 * unit := by
      rw [clipReal_eq]
      omega
    rw [signed_true, hc, rnd_mul_unit]
    rfl

/-- A magnitude of at most one half gives 0, whichever its sign. -/
theorem rnd_clipReal_of_small {m : Nat} (h : 2 * (m : Int) ≤ unit) (b : Bool) : rnd (clipReal (signed b m)) = 0 := by
  have := unit_pos
  have hm : -(m : Int) ≤ signed b m ∧ signed b m ≤ m := by cases b <;> simp
  rw [clipReal_of_range (by omega) (by omega), rnd_iff]
  omega

/-- A magnitude below 128 is rounded as it stands; only a positive one above 127 is clipped. -/
theorem rnd_clipReal_of_medium {m q : Nat} (h : (m : Int) < 128 * unit) (hq : rnd m = q) (b : Bool) :
    rnd (clipReal (signed b m)) = if b then -(q : Int) else if q > 127 then 127 else (q : Int) := by
  have := unit_pos
  cases b with
  | true =>
    rw [signed_true, clipReal_of_range (by omega) (by omega), rnd_neg, hq]
    rfl
  | false =>
    rw [signed_false, if_neg Bool.false_ne_true]
    by_cases hm : (m : Int) ≤ 127 * unit
    · have hle : (q : Int) ≤ 127 := hq ▸ (rnd_bounds (lo := 0) (by omega) hm).2
      rw [clipReal_of_range (by omega) hm, hq, if_neg (by omega)]
    · have hge : (127 : Int) ≤ q := hq ▸ rnd_mul_unit 127 ▸ rnd_mono (by omega)
      rw [clipReal_of_gt (by omega), rnd_mul_unit]
      split <;> omega

/-- From exponent 134 on a number is at least 128 in magnitude. -/
theorem fp2i8_of_exp_large {w : Word} (h1 : 134 ≤ expField w) (hn : isNaN w = false) (nan : Option Int) :
    fp2i8 nan w = some (if signBit w then -128 else 127) := by
  have he := expField_lt w
  by_cases hmax : expField w = 255
  · have hf : fracField w = 0 := by
      by_contra hf
      cases hn.symm.trans (isNaN_iff.mpr ⟨hmax, hf⟩)
    have hinf := f32_of_exp_max hmax
    rw [if_pos hf] at hinf
    cases hs : signBit w with
    | false => exact fp2i8_posInf (by simpa [hs] using hinf) nan
    | true => exact fp2i8_negInf (by simpa [hs] using hinf) nan
  · have hm : 2 ^ 23 * 2 ^ 133 ≤ (2 ^ 23 + fracField w) * 2 ^ (expField w - 1) :=
      Nat.mul_le_mul (by omega) (Nat.pow_le_pow_right (by decide) (by omega))
    have hlarge : 128 * unit ≤ ((2 ^ 23 + fracField w) * 2 ^ (expField w - 1) : Nat) :=
      le_trans (by decide) (Int.ofNat_le.mpr hm)
    rw [fp2i8_real (f32_of_exp_normal (by omega) (by omega)), rnd_clipReal_of_large hlarge]

/-- Up to exponent 125 a number is below one half in magnitude. -/
theorem fp2i8_of_exp_small {w : Word} (h : expField w ≤ 125) (nan : Option Int) : fp2i8 nan w = some 0 := by
  have hf := fracField_lt w
  by_cases hzero : expField w = 0
  · have hsmall : 2 * (fracField w : Int) ≤ unit := le_trans (b := 2 ^ 24) (by omega) (by decide)
    rw [fp2i8_real (f32_of_exp_zero hzero), rnd_clipReal_of_small hsmall]
  · have hm : (2 ^ 23 + fracField w) * 2 ^ (expField w - 1) ≤ 2 ^ 24 * 2 ^ 124 :=
      Nat.mul_le_mul (by omega) (Nat.pow_le_pow_right (by decide) (by omega))
    have hsmall : 2 * (((2 ^ 23 + fracField w) * 2 ^ (expField w - 1) : Nat) : Int) ≤ unit :=
      le_trans (Int.mul_le_mul_of_nonneg_left (Int.ofNat_le.mpr hm) (by decide)) (by decide)
    rw [fp2i8_real (f32_of_exp_normal (by omega) (by omega)), rnd_clipReal_of_small hsmall]

/-- Between these exponents the significand is rounded where the exponent cuts it. -/
theorem fp2i8_of_exp_medium {w : Word} (h1 : 126 ≤ expField w) (h2 : expField w ≤ 133) (nan : Option Int) :
    fp2i8 nan w = some (if signBit w then -(roundMagnitude (2 ^ 23 + fracField w) (150 - expField w) : Int)
      else if roundMagnitude (2 ^ 23 + fracField w) (150 - expField w) > 127 then 127
      else (roundMagnitude (2 ^ 23 + fracField w) (150 - expField w) : Int)) := by
  have hf := fracField_lt w
  have hm : (2 ^ 23 + fracField w) * 2 ^ (expField w - 1) < 2 ^ 24 * 2 ^ 132 :=
    Nat.mul_lt_mul_of_lt_of_le (by omega) (Nat.pow_le_pow_right (by decide) (by omega)) (by decide)
  have hmedium : (((2 ^ 23 + fracField w) * 2 ^ (expField w - 1) : Nat) : Int) < 128 * unit :=
    lt_of_lt_of_le (Int.ofNat_lt.mpr hm) (by decide)
  have hsh : 150 - expField w = 149 - expField w + 1 := by omega
  have hu : unit = 2 ^ (expField w - 1) * 2 ^ (149 - expField w + 1) := by
    rw [← pow_add, show expField w - 1 + (149 - expField w + 1) = 149 by omega]
    rfl
  rw [fp2i8_real (f32_of_exp_normal (by omega) (by omega)), hsh,
    rnd_clipReal_of_medium hmedium (rnd_magnitude hu).1]

/-- Settles O48: the exponent says which of saturation, 0 and rounding of the significand applies. -/
theorem bitLevelFormAgrees : Obligations.BitLevelFormAgrees := by
  unfold Obligations.BitLevelFormAgrees
  intro nan w
  have hnan := isNaN_iff (w := w)
  refine ⟨fun hn => ?_, fun hn => if_pos (hnan.mp hn)⟩
  have hnum : ¬(expField w = 255 ∧ fracField w ≠ 0) := fun h => by cases hn.symm.trans (hnan.mpr h)
  simp only [fp2i8Bits, if_neg hnum]
  by_cases hlarge : 134 ≤ expField w
  · rw [if_pos hlarge, fp2i8_of_exp_large hlarge hn]
  · by_cases hsmall : expField w ≤ 125
    · rw [if_neg hlarge, if_pos hsmall, fp2i8_of_exp_small hsmall]
    · rw [if_neg hlarge, if_neg hsmall, fp2i8_of_exp_medium (by omega) (by omega)]

/-! ### Narrowing -/

/-- Settles O50: clamping to [-128, 127] undoes a clamping to a wider range. -/
theorem narrowingSaturates : Obligations.NarrowingSaturates := by
  unfold Obligations.NarrowingSaturates
  intro v
  simp only [sat8]
  refine ⟨fun h => ?_, fun h => ?_, fun h1 h2 => ?_, ?_, fun v' h => ?_, fun n hn => ?_⟩
  · omega
  · omega
  · omega
  · omega
  · omega
  · have hwide : (2 : Int) ^ 7 ≤ 2 ^ n := pow_le_pow_right₀ (by decide) hn
    omega

/-! ### Byte order -/

/-- What an engine reads at an address is one of the values a read there may find (20_memory R80). -/
theorem State.seen_mem (s : State) (a : Nat) : s.seen a ∈ s.candidates s.reader s.others a := by
  unfold State.seen
  split
  · exact s.raceRead_mem _ _ _
  · exact List.mem_cons_self

/-- Settles O51: the bytes of a word are the digits of its number, and an engine reads each of them by itself. -/
theorem byteOrderOfInputScalars : Obligations.ByteOrderOfInputScalars := by
  unfold Obligations.ByteOrderOfInputScalars
  refine ⟨fun m0 m1 m2 m3 => ?_, fun en m a => ⟨rfl, rfl⟩, fun s k => ⟨fun h => State.inputWord_of_unraced h k, ?_⟩⟩
  · have := m0.isLt
    have := m1.isLt
    have := m2.isLt
    have := m3.isLt
    simp only [word32, BitVec.toNat_ofNat]
    omega
  · refine ⟨_, _, _, _, rfl, ?_⟩
    simp only [List.forall_mem_cons]
    exact ⟨s.seen_mem _, s.seen_mem _, s.seen_mem _, s.seen_mem _, nofun⟩

/-! ### The lane processor -/

/-- The lane processor answers with `vb` exactly when `vb` is `FP2I8` lane by lane (41_lane_processor R150). -/
theorem laneProcessor_eq_some_iff {pol : NanPolicy} {who : Drawer} {d : Nat} {vin : List Word} {vb : List Int} :
    laneProcessor pol who d vin = some vb ↔ vb.length = vin.length ∧
      ∀ k (w : Word), vin[k]? = some w → fp2i8 (nanResult pol who (d + k)) w = vb[k]? := by
  constructor
  · intro h
    refine ⟨laneProcessor_length h, fun k w hk => ?_⟩
    obtain ⟨hlt, rfl⟩ := List.getElem?_eq_some_iff.mp hk
    rw [laneProcessor_lane h hlt, List.getElem?_eq_getElem]
  · rintro ⟨hlen, hlane⟩
    have hlane' : ∀ k (hk : k < vin.length), fp2i8 (nanResult pol who (d + k)) vin[k] = some (vb[k]'(hlen ▸ hk)) :=
      fun k hk => by rw [hlane k _ (List.getElem?_eq_getElem hk), List.getElem?_eq_getElem]
    obtain ⟨vb', h⟩ := laneProcessor_isSome fun k hk => ⟨_, hlane' k hk⟩
    have hlen' := laneProcessor_length h
    rw [h, Option.some_inj]
    refine List.ext_getElem (hlen'.trans hlen.symm) fun k hk _ => ?_
    rw [hlen'] at hk
    exact Option.some.inj ((laneProcessor_lane h hk).symm.trans (hlane' k hk))

/-- The lane processor raises NaNInputFault exactly when some lane does (41_lane_processor R152). -/
theorem laneProcessor_eq_none_iff {pol : NanPolicy} {who : Drawer} {d : Nat} {vin : List Word} :
    laneProcessor pol who d vin = none ↔
      ∃ k w, vin[k]? = some w ∧ fp2i8 (nanResult pol who (d + k)) w = none := by
  constructor
  · intro h
    by_contra hall
    push Not at hall
    obtain ⟨vb, h'⟩ := laneProcessor_isSome fun k hk =>
      Option.ne_none_iff_exists'.mp (hall k vin[k] (List.getElem?_eq_getElem hk))
    cases h.symm.trans h'
  · rintro ⟨k, w, hk, hnone⟩
    obtain ⟨hlt, rfl⟩ := List.getElem?_eq_some_iff.mp hk
    cases h : laneProcessor pol who d vin with
    | none => rfl
    | some vb => cases hnone.symm.trans (laneProcessor_lane h hlt)

/-- Settles O53: the lane processor answers when every lane does, each with its own draw. -/
theorem laneProcessorIsConversionPerLane : Obligations.LaneProcessorIsConversionPerLane := by
  unfold Obligations.LaneProcessorIsConversionPerLane
  exact fun _ _ _ _ => ⟨fun _ => laneProcessor_eq_some_iff, laneProcessor_eq_none_iff⟩

end Sys2Proof.Machine

/-!
PROOFS. The steps of a running command (42_vector_commands R170 to R178): which requests and scalars end a step in
which way, and the state that each of these ends leaves (60_exceptions R214 to R219).
-/

namespace Sys2Proof.Machine

/-! ### How the requests and the scalars of a step end it -/

/-- The three kinds of steps (42_vector_commands R170): at the end, with a scalar, with a group. -/
theorem step_kinds (i : Instr) (s : State) :
    s.eng.idx = s.eng.scalars ∨
      (s.eng.idx ≠ s.eng.scalars ∧ ¬(groupOf i ≠ none ∧ s.eng.idx + 16 ≤ s.eng.scalars)) ∨
      ∃ g, groupOf i = some g ∧ s.eng.idx + 16 ≤ s.eng.scalars := by
  by_cases hT : s.eng.idx = s.eng.scalars
  · exact .inl hT
  by_cases hG : groupOf i ≠ none ∧ s.eng.idx + 16 ≤ s.eng.scalars
  · obtain ⟨g, hg⟩ := Option.ne_none_iff_exists'.mp hG.1
    exact .inr (.inr ⟨g, hg, hG.2⟩)
  · exact .inr (.inl ⟨hT, hG⟩)

theorem sequencerStep_complete {w : Word} {g : Option Group} {s : State} (hT : s.eng.idx = s.eng.scalars) :
    sequencerStep w g s = complete s :=
  if_pos hT

/-- A transition of a command with fewer than 16 scalars left, or of CONV.REF, is a scalar step (42_vector_commands
R172). -/
theorem exec_scalar {i : Instr} {s : State} (hp : s.eng.phase = .run) (hlt : s.eng.idx < 2 * s.eng.count)
    (hi : i = .convRef ∨ 2 * s.eng.count < s.eng.idx + 16) :
    exec i s = .next (finish s s.eng.idx 1 (sstep (encode i) s s.eng.idx)) := by
  rw [exec_run hp, scalar_step hlt hi]

/-- A transition of CONV.VU or CONV.VA with 16 scalars left is a group step (42_vector_commands R171). -/
theorem exec_group {i : Instr} {s : State} (hi : i ≠ .convRef) (hp : s.eng.phase = .run)
    (hlt : s.eng.idx + 16 ≤ 2 * s.eng.count) :
    ∃ g, exec i s = .next (finish s s.eng.idx 16 (gstep (encode i) g s s.eng.idx)) := by
  obtain ⟨g, -, h⟩ := group_step hi hlt
  exact ⟨g, by rw [exec_run hp, h]⟩

section
variable {c : Word} {g : Group} {s : State} {i : Nat} (hr : ∀ j < 4, s.readAnswer (s.eng.inAddr i + 16 * j) 16 = .done)
include hr

/-- A group step whose lane processor refuses a NaN (41_lane_processor R152). -/
theorem gstep_of_refused (hv : laneProcessor s.params.nanPolicy (.laneProcessor c) s.draws (s.groupWords i) = none) :
    gstep c g s i = .raised .nanInput (s.drawn 16) := by
  unfold State.groupWords at hv
  rw [gstep_eq, loadVectors_of_done hr]
  simp only [hv]

/-- A group step whose store is answered with an error, or not at all (20_memory R71, 42_vector_commands R178). -/
theorem gstep_of_store_not_done {vb : List Int}
    (hv : laneProcessor s.params.nanPolicy (.laneProcessor c) s.draws (s.groupWords i) = some vb) :
    (s.writeAnswer (s.eng.outAddr i) 16 = .error → gstep c g s i = .raised .storeAccess (s.storedPartly i vb)) ∧
      (s.writeAnswer (s.eng.outAddr i) 16 = .silent → gstep c g s i = .unanswered) := by
  have hlen := laneProcessor_length hv
  rw [State.length_groupWords] at hlen
  unfold State.groupWords at hv
  rw [gstep_eq, loadVectors_of_done hr]
  exact ⟨fun hw => by simp only [hv, hlen, hw], fun hw => by simp only [hv, hlen, hw]⟩

end

/-- The lanes of a group have a value unless one of them is a NaN that NAN_POLICY refuses (41_lane_processor R152). -/
theorem laneProcessor_group_isSome {who : Drawer} {s : State} {n : Nat}
    (h : s.params.nanPolicy = .fault → ∀ k < 16, isNaN (s.inputWord (n + k)) = false) :
    ∃ vb, laneProcessor s.params.nanPolicy who s.draws (s.groupWords n) = some vb := by
  refine laneProcessor_isSome fun k hk => ?_
  rw [State.getElem_groupWords]
  rw [State.length_groupWords] at hk
  by_cases hpol : s.params.nanPolicy = .fault
  · exact fp2i8_isSome (.inl (h hpol k hk)) _ _
  · exact fp2i8_isSome (.inr hpol) _ _

/-- Under NAN_POLICY = fault one NaN among the lanes of a group is enough (41_lane_processor R152). -/
theorem laneProcessor_group_eq_none {who : Drawer} {s : State} {n k : Nat} (hpol : s.params.nanPolicy = .fault)
    (hk : k < 16) (hn : isNaN (s.inputWord (n + k)) = true) :
    laneProcessor s.params.nanPolicy who s.draws (s.groupWords n) = none := by
  have hlt : k < (s.groupWords n).length := by rwa [State.length_groupWords]
  refine laneProcessor_eq_none_iff.mpr ⟨k, _, List.getElem?_eq_getElem hlt, ?_⟩
  rw [State.getElem_groupWords, fp2i8_of_nan hn, hpol]
  rfl

/-! ### Completion -/

/-- Settles O31: at `IDX = T` the sequencer takes the completion step, and BUSY was the only bit of STATUS. -/
theorem completionStep : Obligations.CompletionStep := by
  unfold Obligations.CompletionStep
  intro i s hp hst hT
  rw [exec_run hp, sequencerStep_complete hT, complete, statusComplete_run hst hp]

/-! ### Faults inside a step -/

/-- Settles O21: the read of a scalar step comes first. -/
theorem scalarLoadFault : Obligations.ScalarLoadFault := by
  unfold Obligations.ScalarLoadFault
  intro i s hp hst hlt hi hr
  rw [exec_scalar hp hlt hi, sstep_eq, Engine.inAddr_eq, hr]
  exact congrArg _ (takeFault_step hst rfl)

/-- Settles O22: a group load ends with its first failed read. -/
theorem groupLoadFault : Obligations.GroupLoadFault := by
  unfold Obligations.GroupLoadFault
  intro i s j hi hp hst hlt hj hbefore hr
  obtain ⟨g, h⟩ := exec_group hi hp hlt
  rw [h, gstep_eq, Engine.inAddr_eq, (loadVectors_of_first hj hbefore).1 hr]
  exact congrArg _ (takeFault_step hst rfl)

/-- Settles O23: a failed one-byte store has not written (20_memory R71). -/
theorem scalarStoreFault : Obligations.ScalarStoreFault := by
  unfold Obligations.ScalarStoreFault
  intro i s v hp hst hlt hi hr hv hw
  rw [exec_scalar hp hlt hi, sstep_eq, Engine.inAddr_eq, Engine.outAddr_eq, hr]
  simp only [hv, hw]
  exact congrArg _ (takeFault_step (s := s.drawn 1) hst rfl)

/-- What a store of integers leaves at the address of each: its byte, or the old one. -/
theorem StoreFrame.inside_map {s t : State} {a k : Nat} {vb : List Int} (h : StoreFrame s t a (vb.map byte))
    (hk : k < vb.length) :
    t.mem.read (a + k) = s.mem.read (a + k) ∨ ∃ v, vb[k]? = some v ∧ t.mem.read (a + k) = byte v := by
  have hv : vb[k]? = some vb[k] := List.getElem?_eq_getElem hk
  rcases h.inside k (byte vb[k]) (by rw [List.getElem?_map, hv]; rfl) with hnew | hold
  · exact .inr ⟨_, hv, hnew⟩
  · exact .inl hold

/-- Settles O24: of the failed store the platform has let some bytes through, and the fault changes no byte. -/
theorem groupStoreFault : Obligations.GroupStoreFault := by
  unfold Obligations.GroupStoreFault
  intro i s vb hi hwf hp hst hlt hr hlen hv hw
  obtain ⟨g, h⟩ := exec_group hi hp hlt
  have hframe := State.storeFrame_storedPartly hwf s.eng.idx vb
  rw [← Engine.outAddr_eq] at hw ⊢
  rw [h, (gstep_of_store_not_done hr (laneProcessor_group hlen hv)).1 hw]
  obtain ⟨m, c, d, e⟩ := hframe.same
  simp only [finish]
  rw [e] at hframe ⊢
  rw [takeFault_step (s := s.withStore m c d) hst rfl]
  refine ⟨m, _, d, rfl, fun a ha => hframe.outside a ?_, fun k hk => hframe.inside_map (hlen ▸ hk)⟩
  rw [List.length_map, hlen]
  omega

/-- Settles O25: the NaN is refused after the loads and before the store. -/
theorem naNInputFaultStoresNothing : Obligations.NaNInputFaultStoresNothing := by
  unfold Obligations.NaNInputFaultStoresNothing
  intro i s hp hst hpol
  refine ⟨fun hlt hi hr hn => ?_, fun hi hlt hr ⟨k, hk, hn⟩ => ?_⟩
  · have hnone : nanResult s.params.nanPolicy (.scalarPath (encode i)) s.draws = none := by rw [hpol]; rfl
    rw [exec_scalar hp hlt hi, sstep_eq, Engine.inAddr_eq, hr]
    simp only [fp2i8_of_nan hn, hnone]
    exact congrArg _ (takeFault_step (s := s.drawn 1) hst rfl)
  · obtain ⟨g, h⟩ := exec_group hi hp hlt
    rw [h, gstep_of_refused hr (laneProcessor_group_eq_none hpol hk hn)]
    exact congrArg _ (takeFault_step (s := s.drawn 16) hst rfl)

/-! ### Requests that are never answered -/

/-- A request of a step that is never answered leaves everything as it was, whichever step it is (42_vector_commands
R178). -/
theorem exec_unanswered {i : Instr} {s : State} (hp : s.eng.phase = .run)
    (h : (∃ a n, Request.read a n ∈ commandRequests i s ∧ s.readAnswer a n = .silent) ∨
      ∃ a n, Request.write a n ∈ commandRequests i s ∧ s.writeAnswer a n = .silent) : exec i s = .next s := by
  rw [commandRequests_run hp] at h
  rw [exec_run hp]
  rcases step_kinds i s with hT | ⟨hT, hG⟩ | ⟨g, hg, hlt⟩
  · simp [stepRequests, hT] at h
  · rw [stepRequests_scalar hT hG] at h
    rw [sequencerStep_scalar hT hG, scalar_unanswered h]
  · rw [hg, stepRequests_group hlt] at h
    rw [hg, sequencerStep_group hlt, group_unanswered h]

/-- Settles O26: a step that waits for an answer ends as `unanswered`, at each of its requests. -/
theorem unansweredRequestLeavesRun : Obligations.UnansweredRequestLeavesRun := by
  unfold Obligations.UnansweredRequestLeavesRun
  intro i s hp
  refine ⟨fun hlt hi => ⟨fun hr => ?_, fun hr hn hw => ?_⟩,
    fun hi hlt => ⟨fun j hj hbefore hr => ?_, fun hr hn hw => ?_⟩,
    fun a n hm hr => exec_unanswered hp (.inl ⟨a, n, hm, hr⟩),
    fun a n hm hw => exec_unanswered hp (.inr ⟨a, n, hm, hw⟩)⟩
  · rw [exec_scalar hp hlt hi, sstep_eq, Engine.inAddr_eq, hr]
    rfl
  · obtain ⟨v, hv⟩ := fp2i8_isSome hn (.scalarPath (encode i)) s.draws
    rw [exec_scalar hp hlt hi, sstep_eq, Engine.inAddr_eq, Engine.outAddr_eq, hr]
    simp only [hv, hw]
    rfl
  · obtain ⟨g, h⟩ := exec_group hi hp hlt
    rw [h, gstep_eq, Engine.inAddr_eq, (loadVectors_of_first hj hbefore).2 hr]
    rfl
  · obtain ⟨g, h⟩ := exec_group hi hp hlt
    obtain ⟨vb, hv⟩ := laneProcessor_group_isSome (who := .laneProcessor (encode i)) hn
    rw [← Engine.outAddr_eq] at hw
    rw [h, (gstep_of_store_not_done hr hv).2 hw]
    rfl

/-! ### Steps that end without fault -/

section
variable {i : Instr} {s : State} (hp : s.eng.phase = .run)
include hp

/-- A scalar step whose requests are answered and whose scalar has the value `v` stores it and raises IDX by 1. -/
theorem exec_scalar_done {v : Int} (hlt : s.eng.idx < 2 * s.eng.count)
    (hi : i = .convRef ∨ 2 * s.eng.count < s.eng.idx + 16)
    (hr : s.readAnswer (s.eng.src + 4 * s.eng.idx) 4 = .done) (hw : s.writeAnswer (s.eng.dst + s.eng.idx) 1 = .done)
    (hv : fp2i8 (nanResult s.params.nanPolicy (.scalarPath (encode i)) s.draws) (s.inputWord s.eng.idx) = some v) :
    exec i s = .next ((s.stored s.eng.idx v).withIdx (s.eng.idx + 1)) := by
  rw [← Engine.inAddr_eq] at hr
  rw [← Engine.outAddr_eq] at hw
  rw [exec_scalar hp hlt hi, sstep_eq, hr]
  simp only [hv, hw]
  rfl

/-- A group step whose requests are answered and whose scalars have the values `vb` stores them and raises IDX by
16. -/
theorem exec_group_done {vb : List Int} (hi : i ≠ .convRef) (hlt : s.eng.idx + 16 ≤ 2 * s.eng.count)
    (hr : ∀ j < 4, s.readAnswer (s.eng.src + 4 * s.eng.idx + 16 * j) 16 = .done)
    (hw : s.writeAnswer (s.eng.dst + s.eng.idx) 16 = .done) (hlen : vb.length = 16)
    (hv : ∀ k < 16, fp2i8 (nanResult s.params.nanPolicy (.laneProcessor (encode i)) (s.draws + k))
      (s.inputWord (s.eng.idx + k)) = vb[k]?) :
    exec i s = .next ((s.storedGroup s.eng.idx vb).withIdx (s.eng.idx + 16)) := by
  obtain ⟨g, h⟩ := exec_group hi hp hlt
  rw [← Engine.outAddr_eq] at hw
  rw [h, gstep_of_done hr (laneProcessor_group hlen hv) hw]
  rfl

end

/-- The whole state after a scalar step of a command in no race. -/
theorem stored_withIdx_of_unraced {s : State} (hu : s.eng.raced = false) (v : Int) :
    (s.stored s.eng.idx v).withIdx (s.eng.idx + 1) = { s with
      mem := s.mem.write (s.eng.dst + s.eng.idx) (byte v)
      eng := { s.eng with idx := s.eng.idx + 1 }
      draws := s.draws + 1 } := by
  rw [State.stored_of_unraced hu, Engine.outAddr_eq]
  rfl

/-- The state after a scalar step of any command: at most the byte stored to has changed, and then to the one
stored. -/
theorem stored_withIdx_frame {s : State} (hwf : s.mem.wf) (v : Int) :
    ∃ m c d, (s.stored s.eng.idx v).withIdx (s.eng.idx + 1) =
        (s.withStore m c d).withEng { s.eng with idx := s.eng.idx + 1 } ∧
      (m.read (s.eng.dst + s.eng.idx) = byte v ∨
        m.read (s.eng.dst + s.eng.idx) = s.mem.read (s.eng.dst + s.eng.idx)) ∧
      ∀ a, a ≠ s.eng.dst + s.eng.idx → m.read a = s.mem.read a := by
  have hframe := State.storeFrame_stored hwf s.eng.idx v
  rw [Engine.outAddr_eq] at hframe
  obtain ⟨m, c, d, e⟩ := hframe.same
  rw [e] at hframe ⊢
  refine ⟨m, c, d, rfl, hframe.inside 0 (byte v) rfl, fun a ha => hframe.outside a ?_⟩
  rw [List.length_singleton]
  omega

/-- Settles O28: the scalar step of CONV.REF. -/
theorem convRefScalarStep : Obligations.ConvRefScalarStep := by
  unfold Obligations.ConvRefScalarStep
  intro s v hwf hp hlt hr hw
  refine ⟨fun hu hv => ?_, fun _ hv => ?_⟩
  · rw [← Engine.inAddr_eq, ← State.inputWord_of_unraced hu] at hv
    rw [exec_scalar_done hp hlt (.inl rfl) hr hw hv, stored_withIdx_of_unraced hu]
  · rw [exec_scalar_done hp hlt (.inl rfl) hr hw hv]
    simpa only [Host.Outcome.next.injEq] using stored_withIdx_frame hwf v

/-- Settles O29: the scalar step of CONV.VU and CONV.VA is taken in the tail. -/
theorem vectorCommandTailStep : Obligations.VectorCommandTailStep := by
  unfold Obligations.VectorCommandTailStep
  intro i s v _ hwf hp hlt htail hr hw
  refine ⟨fun hu hv => ?_, fun _ hv => ?_⟩
  · rw [← Engine.inAddr_eq, ← State.inputWord_of_unraced hu] at hv
    rw [exec_scalar_done hp hlt (.inr htail) hr hw hv, stored_withIdx_of_unraced hu]
  · rw [exec_scalar_done hp hlt (.inr htail) hr hw hv]
    simpa only [Host.Outcome.next.injEq] using stored_withIdx_frame hwf v

/-- Settles O30: the group step, in a race or not. -/
theorem vectorCommandGroupStep : Obligations.VectorCommandGroupStep := by
  unfold Obligations.VectorCommandGroupStep
  intro i s vb hi hwf hp hlt hr hw hlen
  refine ⟨fun hu hv => ?_, fun _ hv => ?_⟩
  · simp only [← Engine.inAddr_eq, ← State.inputWord_of_unraced hu] at hv
    rw [exec_group_done hp hi hlt hr hw hlen hv, State.storedGroup_of_unraced hu, Engine.outAddr_eq]
    rfl
  · have hframe := State.storeFrame_storedGroup hwf s.eng.idx vb
    rw [Engine.outAddr_eq] at hframe
    obtain ⟨m, c, d, e⟩ := hframe.same
    rw [exec_group_done hp hi hlt hr hw hlen hv]
    rw [e] at hframe ⊢
    refine ⟨m, c, d, rfl, fun k hk => hframe.inside_map (hlen ▸ hk), fun a ha => hframe.outside a ?_⟩
    rw [List.length_map, hlen]
    omega

end Sys2Proof.Machine

/-!
PROOFS. Frames: what a step leaves alone in the selected engine, in the other engines, in the parameters and in memory
(20_memory R69, R82, 43_command_port R191, R192, 60_exceptions R221, R232).
-/

namespace Sys2Proof.Machine

/-! ### The selected engine -/

@[simp] theorem Engine.markIf_none (e : Engine) : e.markIf (fun _ => false) = e := by
  simp [Engine.markIf]

/-- What a step other than a reset and a change of the selected engine does to an engine that is not in IDLE: a mark
of a race at most, or a step of the sequencer. -/
theorem eng_of_step {s t : State} (ht : step s = .next t) (hp : s.eng.phase ≠ .idle)
    (hres : ∀ rest, s.inputs ≠ .reset :: rest) (hsel : ∀ k rest, s.inputs ≠ .select k :: rest) :
    (∃ p, t.eng = s.eng.markIf p) ∨
      (s.eng.phase = .run ∧ ∃ i l, t = sequencerStep (encode i) (groupOf i) (s.withInputs l)) := by
  obtain ⟨l, ⟨x, n, rfl⟩ | ⟨ws, rfl⟩ | rfl | ⟨a, b, -, -, rfl⟩ | ⟨hi, -⟩ | ⟨k, hi, -⟩ | ⟨-, hidle, -⟩ | ⟨-, hidle, -⟩ |
    ⟨-, hidle, -⟩ | ⟨-, hrun, i, -, rfl⟩⟩ := step_cases ht
  · exact .inl ⟨_, (Engine.markIf_none _).symm⟩
  · exact .inl ⟨_, (Engine.markIf_none _).symm⟩
  · exact .inl ⟨_, (Engine.markIf_none _).symm⟩
  · exact .inl (agentWrite_eng a b _)
  · exact absurd hi (hres l)
  · exact absurd hi (hsel k l)
  · exact absurd hidle hp
  · exact absurd hidle hp
  · exact absurd hidle hp
  · exact .inr ⟨hrun, i, l, rfl⟩

/-- Settles O36: neither a mark nor the sequencer writes CMD, DST, SRC or COUNT. -/
theorem operandsFixedWhileRunning : Obligations.OperandsFixedWhileRunning := by
  unfold Obligations.OperandsFixedWhileRunning
  intro s t ht hp hres hsel
  rcases eng_of_step ht (by simp [hp]) hres hsel with ⟨p, e⟩ | ⟨-, i, l, rfl⟩
  · simp [e]
  · obtain ⟨-, -, -, -, -, -, -, hcmd, hdst, hsrc, hcount⟩ :=
      sequencerStep_frame (encode i) (groupOf i) (s.withInputs l)
    exact ⟨hcmd, hdst, hsrc, hcount⟩

/-- Settles O37: a halted engine runs no command, so that it takes no step and gets no mark. -/
theorem haltIsLeftByResetOnly : Obligations.HaltIsLeftByResetOnly := by
  unfold Obligations.HaltIsLeftByResetOnly
  intro s t ht hp hres hsel
  rcases eng_of_step ht (by simp [hp]) hres hsel with ⟨p, e⟩ | ⟨hrun, -⟩
  · rw [e, Engine.markIf_of_not (by simp [Engine.running, hp])]
  · cases hp.symm.trans hrun

/-- A step of the sequencer raises IDX to at most T, or keeps it (10_state R27). -/
theorem idx_sequencerStep {s : State} (w : Word) (g : Option Group) (hin : s.eng.idx ≤ s.eng.scalars) :
    s.eng.idx ≤ (sequencerStep w g s).eng.idx ∧ (sequencerStep w g s).eng.idx ≤ s.eng.scalars := by
  rcases sequencerStep_cases w g s with
    ⟨-, e⟩ | ⟨v, hne, -, -, -, e⟩ | ⟨vb, -, hroom, -, -, -, e⟩ | ⟨c, t, hc, e, ht⟩ | e
  · simpa [e] using hin
  · simp only [e, State.withIdx_eng]
    omega
  · simp only [e, State.withIdx_eng]
    omega
  · have hidx : t.eng.idx = s.eng.idx := by
      rcases ht with rfl | ⟨n, rfl⟩ | ⟨vb, -, -, rfl⟩ <;> simp
    simpa [e, hc, hidx] using hin
  · simpa [e] using hin

/-- Settles O39: a mark does not touch IDX, and the sequencer keeps it within T. -/
theorem idxRisesUpToT : Obligations.IdxRisesUpToT := by
  unfold Obligations.IdxRisesUpToT
  intro s t hinv hlive hp ht hres hsel
  have hin := ((hinv.engOk hlive).run hp).inRange
  rcases eng_of_step ht (by simp [hp]) hres hsel with ⟨p, e⟩ | ⟨-, i, l, rfl⟩
  · rw [e, Engine.markIf_idx]
    exact ⟨le_rfl, hin⟩
  · exact idx_sequencerStep (s := s.withInputs l) (encode i) (groupOf i) hin

/-! ### The other engines -/

/-- Another agent's write changes marks only in the engines that are not selected (20_memory R80). -/
theorem unmarked_agentWrite (a : Nat) (b : Byte) (s : State) :
    (agentWrite a b s).before.map Engine.unmarked = s.before.map Engine.unmarked ∧
      (agentWrite a b s).after.map Engine.unmarked = s.after.map Engine.unmarked := by
  unfold agentWrite
  split
  · exact ⟨map_unmarked_markIf _ _, map_unmarked_markIf _ _⟩
  · exact ⟨rfl, rfl⟩

/-- The engines that are not selected are the same, or they differ in marks and the step was a write to CMD or another
agent's write (60_exceptions R232). -/
theorem others_of_step {s t : State} (ht : step s = .next t) (hsel : ∀ k rest, s.inputs ≠ .select k :: rest) :
    (t.before = s.before ∧ t.after = s.after) ∨
      ((t.before.map Engine.unmarked = s.before.map Engine.unmarked ∧
          t.after.map Engine.unmarked = s.after.map Engine.unmarked) ∧
        ((∃ v rest, s.inputs = .write 0 v :: rest) ∨ ∃ a b rest, s.inputs = .store a b :: rest)) := by
  obtain ⟨l, ⟨x, n, rfl⟩ | ⟨ws, rfl⟩ | rfl | ⟨a, b, hi, -, rfl⟩ | ⟨-, rfl⟩ | ⟨k, hi, -⟩ | ⟨-, -, reg, v, rfl⟩ |
    ⟨-, -, c, v, -, -, rfl⟩ | ⟨-, -, i, v, hi, -, -, rfl⟩ | ⟨-, -, i, -, rfl⟩⟩ := step_cases ht
  · exact .inl ⟨rfl, rfl⟩
  · exact .inl ⟨rfl, rfl⟩
  · exact .inl ⟨rfl, rfl⟩
  · exact .inr ⟨unmarked_agentWrite a b _, .inr ⟨a, b, l, hi⟩⟩
  · obtain ⟨-, hb, ha, -⟩ := applyReset_frame (s.withInputs l)
    exact .inl ⟨hb, ha⟩
  · exact absurd hi (hsel k l)
  · obtain ⟨e, he, -⟩ := writeOperand_frame reg v (s.withInputs l)
    rw [he]
    exact .inl ⟨rfl, rfl⟩
  · exact .inl ⟨rfl, rfl⟩
  · exact .inr ⟨⟨map_unmarked_markIf _ _, map_unmarked_markIf _ _⟩, .inl ⟨v, l, hi⟩⟩
  · obtain ⟨-, hb, ha, -⟩ := sequencerStep_frame (encode i) (groupOf i) (s.withInputs l)
    exact .inl ⟨hb, ha⟩

/-- The engine with the number selected becomes the selected one (60_exceptions R232). -/
theorem eng_selectEngine {k : Nat} {s : State} (hk : k < s.engines.length) :
    s.engines[k]? = some (selectEngine k s).eng := by
  rw [List.getElem?_eq_getElem hk, selectEngine, List.drop_eq_getElem_cons hk]

/-- Settles O35: the other engines change in marks only, and selecting an engine only moves the selection. -/
theorem otherEnginesUnchanged : Obligations.OtherEnginesUnchanged := by
  unfold Obligations.OtherEnginesUnchanged
  intro s t ht
  refine ⟨fun hsel => ?_, fun k rest hi => ?_⟩
  · rcases others_of_step ht hsel with ⟨hb, ha⟩ | ⟨⟨hb, ha⟩, hmarks⟩
    · rw [hb, ha]
      exact ⟨rfl, rfl, fun _ _ => ⟨rfl, rfl⟩⟩
    · refine ⟨hb, ha, fun hwrite hstore => ?_⟩
      rcases hmarks with ⟨v, rest, hi⟩ | ⟨a, b, rest, hi⟩
      · exact absurd hi (hwrite v rest)
      · exact absurd hi (hstore a b rest)
  · rw [step_action hi, hostAction, Host.Outcome.next.injEq] at ht
    subst ht
    obtain ⟨hp, hm, hpl, hin, han, hdr, -⟩ := selectEngine_frame k (s.withInputs rest)
    exact ⟨engines_selectEngine k _, hm, hp, hpl, han, hdr, hin, eng_selectEngine (s := s.withInputs rest)⟩

/-! ### Parameters and answers -/

/-- Settles O60: only the host's reads add to what it has been told, and nothing writes the parameters. -/
theorem parametersNeverChange : Obligations.ParametersNeverChange := by
  unfold Obligations.ParametersNeverChange
  intro s t ht
  have same : ∀ u : State, u.params = s.params ∧ u.answers = s.answers →
      u.params = s.params ∧ s.answers <+: u.answers :=
    fun u ⟨hp, ha⟩ => ⟨hp, ha ▸ List.prefix_rfl⟩
  obtain ⟨l, ⟨x, n, rfl⟩ | ⟨ws, rfl⟩ | rfl | ⟨a, b, -, -, rfl⟩ | ⟨-, rfl⟩ | ⟨k, -, rfl⟩ | ⟨-, -, reg, v, rfl⟩ |
    ⟨-, -, c, v, -, -, rfl⟩ | ⟨-, -, i, v, -, -, -, rfl⟩ | ⟨-, -, i, -, rfl⟩⟩ := step_cases ht
  · exact ⟨rfl, List.prefix_append _ _⟩
  · exact same _ ⟨rfl, rfl⟩
  · exact same _ ⟨rfl, rfl⟩
  · obtain ⟨hp, -, -, ha⟩ := agentWrite_frame a b (s.withInputs l)
    exact same _ ⟨hp, ha⟩
  · obtain ⟨hp, -, -, -, -, ha, -⟩ := applyReset_frame (s.withInputs l)
    exact same _ ⟨hp, ha⟩
  · obtain ⟨hp, -, -, -, ha, -⟩ := selectEngine_frame k (s.withInputs l)
    exact same _ ⟨hp, ha⟩
  · obtain ⟨e, he, -⟩ := writeOperand_frame reg v (s.withInputs l)
    exact same _ (he ▸ ⟨rfl, rfl⟩)
  · exact same _ ⟨rfl, rfl⟩
  · exact same _ ⟨rfl, rfl⟩
  · obtain ⟨hp, -, -, -, -, ha, -⟩ := sequencerStep_frame (encode i) (groupOf i) (s.withInputs l)
    exact same _ ⟨hp, ha⟩

/-! ### The bytes of a step -/

/-- A scalar step changes at most the byte at `DST + i` (40_reference_kernel R118). -/
theorem read_scalar_ne {w : Word} {s : State} (hs : s.mem.wf) {i a : Nat} (ha : a ≠ s.eng.outAddr i) :
    (finish s i 1 (sstep w s i)).mem.read a = s.mem.read a := by
  refine read_scalar_outside hs i a fun r hr hwrite => ?_
  rcases shape_scalar hr with rfl | rfl
  · cases hwrite
  · rw [← Bool.not_eq_true, covers_write]
    omega

/-- A group step changes at most the 16 bytes from `DST + i` up (41_lane_processor R140). -/
theorem read_group_ne {w : Word} {g : Group} {s : State} (hs : s.mem.wf) {i a : Nat}
    (ha : ¬(s.eng.outAddr i ≤ a ∧ a < s.eng.outAddr i + 16)) :
    (finish s i 16 (gstep w g s i)).mem.read a = s.mem.read a := by
  refine read_group_outside hs g i a fun r hr hwrite => ?_
  rcases shape_group hr with ⟨j, -, rfl⟩ | rfl
  · cases hwrite
  · rw [← Bool.not_eq_true, covers_write]
    exact ha

/-- Settles O33: the frame of the sequencer, and the bytes of each kind of step. -/
theorem runningCommandFrame : Obligations.RunningCommandFrame := by
  unfold Obligations.RunningCommandFrame
  intro i s t hwf hp ht
  rw [exec_run hp, Host.Outcome.next.injEq] at ht
  obtain ⟨fparams, fbefore, fafter, fplatform, finputs, fanswers, flive, fcmd, fdst, fsrc, fcount⟩ :=
    sequencerStep_frame (encode i) (groupOf i) s
  have hstatus := fun h => (sequencerStep_of_run (w := encode i) (g := groupOf i) hp h).1
  rw [ht] at fparams fbefore fafter fplatform finputs fanswers flive fcmd fdst fsrc fcount hstatus
  refine ⟨flive, fcmd, fdst, fsrc, fcount, fbefore, fafter, fparams, fplatform, finputs, fanswers, hstatus,
    fun hT a => ?_, fun hT hi a ha => ?_, fun hi hlt a ha => ?_⟩
  · rw [← ht, sequencerStep_complete hT, complete_mem]
  · have hG : ¬(groupOf i ≠ none ∧ s.eng.idx + 16 ≤ s.eng.scalars) := by
      rintro ⟨hgroup, hroom⟩
      rcases hi with rfl | hi
      · exact hgroup rfl
      · simp only [Engine.scalars] at hroom
        omega
    rw [← ht, sequencerStep_scalar hT hG, read_scalar_ne hwf ha]
  · obtain ⟨g, -, e⟩ := group_step hi hlt
    rw [← ht, e, read_group_ne hwf ha]

/-! ### The requests of a step -/

/-- The requests of a step have the shapes of 20_memory R67. -/
theorem shape_commandRequests {i : Instr} {s : State} (hp : s.eng.phase = .run) {r : Request}
    (hr : r ∈ commandRequests i s) :
    (s.eng.idx ≠ s.eng.scalars ∧
        (r = .read (s.eng.src + 4 * s.eng.idx) 4 ∨ r = .write (s.eng.dst + s.eng.idx) 1)) ∨
      (i ≠ .convRef ∧ s.eng.idx + 16 ≤ s.eng.scalars ∧
        ((∃ j < 4, r = .read (s.eng.src + 4 * s.eng.idx + 16 * j) 16) ∨ r = .write (s.eng.dst + s.eng.idx) 16)) := by
  rw [commandRequests_run hp] at hr
  rw [← Engine.outAddr_eq, ← Engine.inAddr_eq]
  rcases step_kinds i s with hT | ⟨hT, hG⟩ | ⟨g, hg, hroom⟩
  · simp [stepRequests, hT] at hr
  · rw [stepRequests_scalar hT hG] at hr
    exact .inl ⟨hT, shape_scalar hr⟩
  · rw [hg, stepRequests_group hroom] at hr
    exact .inr ⟨(by rintro rfl; cases hg), hroom, shape_group hr⟩

/-- A request of a step lies inside the buffer it is for (20_memory R68). -/
theorem covers_commandRequests {i : Instr} {s : State} (hp : s.eng.phase = .run) (hin : s.eng.idx ≤ 2 * s.eng.count)
    {r : Request} (hr : r ∈ commandRequests i s) {a : Nat} (ha : r.covers a = true) :
    if r.isWrite then s.eng.dst ≤ a ∧ a < s.eng.dst + 2 * s.eng.count
    else s.eng.src ≤ a ∧ a < s.eng.src + 8 * s.eng.count := by
  have hshape := shape_commandRequests hp hr
  simp only [Engine.scalars] at hshape
  rcases hshape with ⟨hT, rfl | rfl⟩ | ⟨-, hroom, ⟨j, hj, rfl⟩ | rfl⟩
  · rw [covers_read] at ha
    show s.eng.src ≤ a ∧ a < s.eng.src + 8 * s.eng.count
    omega
  · rw [covers_write] at ha
    show s.eng.dst ≤ a ∧ a < s.eng.dst + 2 * s.eng.count
    omega
  · rw [covers_read] at ha
    show s.eng.src ≤ a ∧ a < s.eng.src + 8 * s.eng.count
    omega
  · rw [covers_write] at ha
    show s.eng.dst ≤ a ∧ a < s.eng.dst + 2 * s.eng.count
    omega

/-- A step changes no byte but those of its write request (20_memory R69). -/
theorem read_sequencerStep_unrequested {i : Instr} {s : State} (hp : s.eng.phase = .run) (hwf : s.mem.wf) {a : Nat}
    (ha : ∀ r ∈ commandRequests i s, r.isWrite = true → r.covers a = false) :
    (sequencerStep (encode i) (groupOf i) s).mem.read a = s.mem.read a := by
  rw [commandRequests_run hp] at ha
  rcases step_kinds i s with hT | ⟨hT, hG⟩ | ⟨g, hg, hroom⟩
  · rw [sequencerStep_complete hT, complete_mem]
  · rw [stepRequests_scalar hT hG] at ha
    rw [sequencerStep_scalar hT hG, read_scalar_outside hwf _ _ ha]
  · rw [hg, stepRequests_group hroom] at ha
    rw [hg, sequencerStep_group hroom, read_group_outside hwf _ _ _ ha]

/-- A step of a command in no race depends on the bytes of its requests only (20_memory R68). -/
theorem touch_sequencerStep {i : Instr} {s : State} {m : Memory} (hp : s.eng.phase = .run) (hwf : s.mem.wf) (hm : m.wf)
    (hu : s.eng.raced = false)
    (h : ∀ r ∈ commandRequests i s, ∀ a, r.covers a = true → m.read a = s.mem.read a) :
    Touch (commandRequests i s) (sequencerStep (encode i) (groupOf i) s)
      (sequencerStep (encode i) (groupOf i) (s.withMem m)) := by
  rw [commandRequests_run hp] at h ⊢
  rcases step_kinds i s with hT | ⟨hT, hG⟩ | ⟨g, hg, hroom⟩
  · rw [sequencerStep_complete hT, sequencerStep_complete (s := s.withMem m) hT]
    exact .same rfl rfl rfl rfl h
  · rw [stepRequests_scalar hT hG] at h ⊢
    rw [sequencerStep_scalar hT hG, sequencerStep_scalar (s := s.withMem m) hT hG]
    exact touch_scalar hwf hm hu _ h
  · rw [hg, stepRequests_group hroom] at h ⊢
    rw [sequencerStep_group hroom, sequencerStep_group (s := s.withMem m) hroom]
    exact touch_group hwf hm hu g _ h

/-- Settles O40: shapes, buffers, bytes changed and bytes depended on. -/
theorem stepsTouchOnlyRequestedBytes : Obligations.StepsTouchOnlyRequestedBytes := by
  unfold Obligations.StepsTouchOnlyRequestedBytes
  intro i s hwf hp hin
  refine ⟨fun r hr => ⟨?_, fun a ha => covers_commandRequests hp hin hr ha⟩,
    ⟨_, exec_run hp, fun a ha => read_sequencerStep_unrequested hp hwf ha⟩, fun m hm hu h => ?_⟩
  · exact (shape_commandRequests hp hr).imp And.right (And.imp_right And.right)
  · exact ⟨_, _, exec_run hp, exec_run hp, touch_sequencerStep hp hwf hm hu h⟩

end Sys2Proof.Machine

/-!
PROOFS. The three commands agree (41_lane_processor R150, 42_vector_commands R176), and every command ends
(42_vector_commands R178).
-/

namespace Sys2Proof.Machine

/-! ### Group steps and scalar steps -/

/-- Transitions of a running command are steps of the sequencer as long as the engine stays in RUN. -/
theorem transitions_eq {i : Instr} {s : State} {n : Nat}
    (hr : ∀ k < n, (sequencerSteps (encode i) (groupOf i) k s).eng.phase = .run) :
    transitions i n s = .next (sequencerSteps (encode i) (groupOf i) n s) := by
  induction n generalizing s with
  | zero => rfl
  | succ n ih =>
    have hp : s.eng.phase = .run := hr 0 (by omega)
    rw [transitions, exec_run hp]
    exact ih fun k hk => hr (k + 1) (by omega)

/-- Settles O54: both ways lead to the state 16 scalars further on. -/
theorem groupStepEqualsSixteenScalarSteps : Obligations.GroupStepEqualsSixteenScalarSteps := by
  unfold Obligations.GroupStepEqualsSixteenScalarSteps
  intro i s hi hwf hp hoverlap hu hgranted hnan hroom
  have ready : s.Ready := ⟨hwf, hp, hu, Engine.not_overlap_iff.mp hoverlap, hgranted, hnan⟩
  have scalarSteps : ∀ n ≤ 16, sequencerSteps (encode .convRef) (groupOf .convRef) n s = s.advanced n := fun n hn =>
    sequencerSteps_scalar ready (by simp only [Engine.scalars]; omega) (by simp [groupOf])
  obtain ⟨g, -, e⟩ := group_step hi hroom
  refine ⟨s.advanced 16, by rw [exec_run hp, e, gstep_ready g ready hroom], ?_⟩
  rw [transitions_eq fun k hk => ?_, scalarSteps 16 le_rfl]
  rw [scalarSteps k (by omega)]
  exact hp

/-! ### A whole command -/

/-- The memory a command in contract leaves: the output scalars are `FP2I8` of the input scalars. -/
def State.convertedMem (s : State) : Memory :=
  s.mem.writeBytes s.eng.dst ((List.range (2 * s.eng.count)).map fun k =>
    byte ((fp2i8 none (scalarAt s.params.endian s.mem (s.eng.src + 4 * k))).getD 0))

theorem read_convertedMem_inside {s : State} (hwf : s.mem.wf) (hn : s.nanFree) {k : Nat} (hk : k < 2 * s.eng.count) :
    ∃ v, fp2i8 none (scalarAt s.params.endian s.mem (s.eng.src + 4 * k)) = some v ∧
      s.convertedMem.read (s.eng.dst + k) = byte v := by
  refine ⟨_, fp2i8_getD (hn k hk) none, ?_⟩
  rw [State.convertedMem, Memory.read_writeBytes_inside hwf (by simpa using hk)]
  simp [Engine.inAddr_eq]

theorem read_convertedMem_outside {s : State} (hwf : s.mem.wf) {a : Nat}
    (ha : ¬(s.eng.dst ≤ a ∧ a < s.eng.dst + 2 * s.eng.count)) : s.convertedMem.read a = s.mem.read a :=
  Memory.read_writeBytes_outside hwf _ (by simp only [List.length_map, List.length_range]; omega)

/-- The state right after the acceptance of command `i` in contract, the host having nothing more to do. -/
def State.launched (s : State) (i : Instr) : State :=
  (s.withInputs []).withEng
    { s.eng with cmd := encode i, idx := 0, status := 1#32, launch := s.mem, raced := false }

/-- A launch in contract is accepted (43_command_port R193, R196). -/
theorem step_launch {s : State} {i : Instr} (h : s.InContract i) (hst : statusLegal s.eng.status = true) :
    step (s.withInputs [.write 0 (encode i).toNat]) = .next (s.launched i) := by
  calc step (s.withInputs [.write 0 (encode i).toNat])
    _ = writeCmd (encode i) (s.withInputs []) := by
      rw [step_write_cmd (s := s.withInputs _) rfl h.live, BitVec.ofNat_toNat, BitVec.setWidth_eq]
      rfl
    _ = accept (encode i) (groupOf i) (s.withInputs []) := by
      rw [writeCmd_command (s := s.withInputs []) h.idle (decode_encode i), exec_idle (s := s.withInputs []) h.idle]
    _ = .next (accepted (encode i) (s.withInputs [])) :=
      accept_accepted (s := s.withInputs []) h.fits h.aligned (Engine.not_overlap_iff.mp h.disjoint)
    _ = .next (s.launched i) :=
      congrArg _ (accepted_of_compatible (s := s.withInputs []) hst h.idle
        (fun f hf hr => Engine.not_clash_iff.mp (h.others f hf hr)) _)

/-- Nothing can go wrong in a command launched in contract (43_command_port R196). -/
theorem ready_launched {s : State} {i : Instr} (h : s.InContract i) (hwf : s.mem.wf) : (s.launched i).Ready where
  memWf := hwf
  running := (by decide : phaseOf 1#32 = .run)
  unraced := rfl
  disjoint := Engine.not_overlap_iff.mp h.disjoint
  granted := h.granted
  nanFree := h.nanFree

/-- A command launched in contract runs to its completion step and takes it (42_vector_commands R178). -/
theorem run_launched {s : State} {i : Instr} (h : (s.launched i).Ready) (hl : s.eng.live = true) :
    Host.Core.run Sys2Proof.core (stepsBeforeCompletion i s.eng.count + 1) (s.launched i) =
      .next (complete ((s.launched i).advanced (2 * s.eng.count))) := by
  have steps : ∀ n ≤ stepsBeforeCompletion i s.eng.count, sequencerSteps (encode i) (groupOf i) n (s.launched i) =
      (s.launched i).advanced (scalarsAfter i n s.eng.count) := fun n hn => sequencerSteps_command h rfl hn
  rw [run_sequencerSteps (s := s.launched i) rfl hl (decode_encode i) fun k hk => ?_,
    sequencerSteps_add, steps _ le_rfl, scalarsAfter_all]
  · exact congrArg _ (sequencerStep_complete (Nat.zero_add _))
  · rw [steps k (by omega)]
    exact h.running

/-- The bytes of the completed command are those of the input at launch, whichever command it was. -/
theorem mem_advanced_launched (s : State) (i : Instr) :
    ((s.launched i).advanced (2 * s.eng.count)).mem = s.convertedMem := by
  have hbytes : (s.launched i).convertedBytes 0 (2 * s.eng.count) = (List.range (2 * s.eng.count)).map fun k =>
      byte ((fp2i8 none (scalarAt s.params.endian s.mem (s.eng.src + 4 * k))).getD 0) :=
    List.map_congr_left fun k _ => by
      rw [State.inputWord_of_unraced (s := s.launched i) rfl, Nat.zero_add]
      rfl
  rw [State.convertedMem, ← hbytes]
  rfl

/-- The whole state after the completion step of a command launched in contract. -/
theorem complete_launched (s : State) (i : Instr) :
    ∃ c d, complete ((s.launched i).advanced (2 * s.eng.count)) = { s with
      inputs := []
      mem := s.convertedMem
      eng := { s.eng with
        cmd := encode i, status := 0x00000002#32, idx := 2 * s.eng.count, launch := [], raced := false }
      contested := c
      draws := d } := by
  have hadvanced : (s.launched i).advanced (2 * s.eng.count) = { s with
      inputs := []
      mem := ((s.launched i).advanced (2 * s.eng.count)).mem
      eng := { s.eng with
        cmd := encode i, status := 1#32, idx := 0 + 2 * s.eng.count, launch := s.mem, raced := false }
      draws := s.draws + 2 * s.eng.count } := rfl
  have hstatus : 2#32 = statusComplete 1#32 := by decide
  rw [hadvanced, mem_advanced_launched, Nat.zero_add, hstatus]
  exact ⟨_, _, rfl⟩

/-- Settles O55: launch, run and completion, and the bytes the completed command leaves. -/
theorem commandsConvertTheBufferAlike : Obligations.CommandsConvertTheBufferAlike := by
  unfold Obligations.CommandsConvertTheBufferAlike
  intro s hwf hst
  refine ⟨s.convertedMem, fun hn k hk => read_convertedMem_inside hwf hn hk,
    fun a ha => read_convertedMem_outside hwf ha, fun i h => ?_⟩
  rw [run_succ (step_launch h hst), run_launched (ready_launched h hwf) h.live]
  obtain ⟨c, d, e⟩ := complete_launched s i
  exact ⟨c, d, congrArg _ e⟩

/-! ### Every command ends -/

/-- An engine in RUN that is left alone, its requests answered, leaves RUN within as many steps as scalars are left,
and one (42_vector_commands R178). -/
theorem leaves_run_within {d : Nat} {s : State} (hinv : s.Inv) (hl : s.eng.live = true) (hp : s.eng.phase = .run)
    (hi : s.inputs = []) (hw : ∀ w ∈ s.platform, w.onRead ≠ .silent ∧ w.onWrite ≠ .silent)
    (hd : 2 * s.eng.count ≤ s.eng.idx + d) :
    ∃ n ≤ d + 1, ∃ t, Host.Core.run Sys2Proof.core n s = .next t ∧ t.eng.phase ≠ .run := by
  obtain ⟨i, hcmd⟩ := (hinv.engOk hl).command
  have hstep : step s = .next (sequencerStep (encode i) (groupOf i) s) := by
    rw [step_silent hi, engineTurn_run hl hp hcmd, exec_run hp]
  have hinv' := inv_sequencerStep hinv hl hp hcmd
  obtain ⟨-, -, -, fplatform, finputs, -, flive, -, -, -, fcount⟩ := sequencerStep_frame (encode i) (groupOf i) s
  rcases sequencerStep_progress (w := encode i) (g := groupOf i) hw hp with hleft | ⟨hidx, hstatus⟩
  · exact ⟨1, by omega, _, run_succ hstep, hleft⟩
  · have hp' : (sequencerStep (encode i) (groupOf i) s).eng.phase = .run := (Engine.phase_of_status hstatus).trans hp
    rw [← flive] at hl
    have hin := ((hinv'.engOk hl).run hp').inRange
    simp only [Engine.scalars, fcount] at hin
    cases d with
    | zero => omega
    | succ d =>
      obtain ⟨n, hn, t, hrun, hleft⟩ := leaves_run_within (d := d) hinv' hl hp' (finputs.trans hi)
        (fplatform.symm ▸ hw) (by omega)
      exact ⟨n + 1, by omega, t, (run_succ hstep).trans hrun, hleft⟩

/-- Settles O59: the scalars left are `T - IDX`. -/
theorem everyCommandEnds : Obligations.EveryCommandEnds := by
  unfold Obligations.EveryCommandEnds
  intro s hinv hl hp hi hw
  exact leaves_run_within hinv hl hp hi hw (by omega)

end Sys2Proof.Machine

/-!
PROOFS. Races (20_memory R80, 93_implementation_defined U6): what another agent's access to memory does, and what a
reset in RUN leaves in the output buffer (70_reset_and_hazards R242).
-/

namespace Sys2Proof.Machine

/-! ### The values of a byte in a race -/

theorem mem_contestedValues {s : State} {a : Nat} {v : Byte} : v ∈ s.contestedValues a ↔ (a, v) ∈ s.contested := by
  simp only [State.contestedValues, List.mem_map, List.mem_filter, decide_eq_true_eq]
  constructor
  · rintro ⟨⟨x, w⟩, ⟨hc, rfl⟩, rfl⟩
    exact hc
  · exact fun hc => ⟨(a, v), ⟨hc, rfl⟩, rfl⟩

theorem contestedAt_iff {s : State} {a : Nat} : s.contestedAt a = true ↔ ∃ v, (a, v) ∈ s.contested := by
  simp only [State.contestedAt, List.any_eq_true, decide_eq_true_eq]
  constructor
  · rintro ⟨⟨x, v⟩, hc, rfl⟩
    exact ⟨v, hc⟩
  · rintro ⟨v, hc⟩
    exact ⟨(a, v), hc, rfl⟩

/-- The converted value of output scalar `k`: the one stored, or the one to be stored, which is free in a race. -/
theorem convertedByte_cases {s : State} {who : Drawer} {e : Engine} {k : Nat} {v : Byte}
    (h : s.convertedByte who e k = some v) :
    (k < e.idx ∧ v = s.mem.read (e.outAddr k)) ∨
      (e.idx ≤ k ∧ (e.raced = true ∨ ∃ w, fp2i8 (nanResult s.params.nanPolicy who s.draws)
        (scalarAt s.params.endian s.mem (e.inAddr k)) = some w ∧ v = byte w)) := by
  unfold State.convertedByte at h
  split at h
  · rename_i hk
    exact .inl ⟨hk, (Option.some.inj h).symm⟩
  · rename_i hk
    refine .inr ⟨Nat.le_of_not_lt hk, ?_⟩
    split at h
    · rename_i hraced
      exact .inl hraced
    · obtain ⟨w, hw, rfl⟩ := Option.map_eq_some_iff.mp h
      exact .inr ⟨w, hw, rfl⟩

/-- The values a read in a race may return: what memory holds, what the race has left, and of each engine whose
output the address is in the old value and the new one (20_memory R80). -/
theorem candidates_cases {s : State} {who : Reader} {es : List Engine} {a : Nat} {v : Byte}
    (h : v ∈ s.candidates who es a) :
    v = s.mem.read a ∨ (a, v) ∈ s.contested ∨
      ∃ e ∈ es, e.running = true ∧ e.dst ≤ a ∧ a < e.dst + 2 * e.count ∧
        (v = e.launch.read a ∨ (e.dst + e.idx ≤ a ∧ (e.raced = true ∨
          ∃ d w, fp2i8 (nanResult s.params.nanPolicy (.observer who (a - e.dst)) d)
            (scalarAt s.params.endian s.mem (e.src + 4 * (a - e.dst))) = some w ∧ v = byte w))) := by
  rw [State.candidates, List.mem_cons, List.mem_append, mem_contestedValues, List.mem_flatMap] at h
  rcases h with h | h | ⟨e, he, h⟩
  · exact .inl h
  · exact .inr (.inl h)
  · unfold State.oldAndNew at h
    split at h
    · rename_i hin
      rw [Bool.and_eq_true, Engine.inOutput_iff] at hin
      obtain ⟨hrun, hlo, hhi⟩ := hin
      rw [List.mem_cons, Option.mem_toList] at h
      rcases h with h | h
      · exact .inr (.inr ⟨e, he, hrun, hlo, hhi, .inl h⟩)
      · rcases convertedByte_cases h with ⟨-, hv⟩ | ⟨hk, hv⟩
        · rw [Engine.outAddr_eq, Nat.add_sub_cancel' hlo] at hv
          exact .inl hv
        · exact .inr (.inr ⟨e, he, hrun, hlo, hhi, .inr ⟨by omega, hv.imp_right fun hw => ⟨_, hw⟩⟩⟩)
    · cases h

/-! ### Other agents -/

/-- Where no race is on another agent reads what memory holds (20_memory R78). -/
theorem agentRead_quiet {s : State} {a : Nat} (hc : ∀ v, (a, v) ∉ s.contested)
    (he : ∀ e ∈ s.engines, e.running = true → ¬(e.dst ≤ a ∧ a < e.dst + 2 * e.count)) :
    agentRead a s = s.told (.byte a (s.mem.read a)) := by
  refine if_neg ?_
  simp only [Bool.or_eq_true, contestedAt_iff, List.any_eq_true, Bool.and_eq_true, Engine.inOutput_iff]
  rintro (⟨v, hv⟩ | ⟨e, hmem, hrun, hin⟩)
  · exact hc v hv
  · exact he e hmem hrun hin

/-- In a race another agent reads one of the old and new values (93_implementation_defined U6). -/
theorem agentRead_race {s : State} {a : Nat}
    (h : (∃ v, (a, v) ∈ s.contested) ∨ ∃ e ∈ s.engines, e.running = true ∧ e.dst ≤ a ∧ a < e.dst + 2 * e.count) :
    ∃ v ∈ s.candidates .agent s.engines a, agentRead a s = (s.told (.byte a v)).drawn 1 := by
  refine ⟨_, s.raceRead_mem .agent s.engines a, if_pos ?_⟩
  simpa only [Bool.or_eq_true, contestedAt_iff, List.any_eq_true, Bool.and_eq_true, Engine.inOutput_iff] using h

theorem agentLoad_of_lt {s : State} {a : Nat} (ha : a < s.params.space) : agentLoad a s = .next (agentRead a s) :=
  if_neg (Nat.not_le.mpr ha)

theorem agentStore_of_lt {s : State} {a : Nat} (ha : a < s.params.space) (b : Byte) :
    agentStore a b s = .next (agentWrite a b s) :=
  if_neg (Nat.not_le.mpr ha)

theorem any_running_holds_iff {s : State} {a : Nat} :
    (s.engines.any fun e => e.running && e.holds a) = true ↔ ∃ e ∈ s.engines, e.running = true ∧
      ((e.src ≤ a ∧ a < e.src + 8 * e.count) ∨ (e.dst ≤ a ∧ a < e.dst + 2 * e.count)) := by
  simp only [List.any_eq_true, Bool.and_eq_true, Engine.holds_iff]

/-- Outside the buffers of BUSY engines another agent's write is a write (20_memory R78). -/
theorem agentWrite_quiet {s : State} {a : Nat} (he : ∀ e ∈ s.engines, e.running = true →
    ¬((e.src ≤ a ∧ a < e.src + 8 * e.count) ∨ (e.dst ≤ a ∧ a < e.dst + 2 * e.count))) (b : Byte) :
    agentWrite a b s = s.withMem (s.mem.write a b) := by
  refine if_neg ?_
  rw [any_running_holds_iff]
  exact fun ⟨e, hmem, hrun, hin⟩ => he e hmem hrun hin

/-- In a buffer of a BUSY engine it is a write in a race, which the engine's command is in from then on. -/
theorem agentWrite_busy {s : State} {a : Nat} (h : ∃ e ∈ s.engines, e.running = true ∧
    ((e.src ≤ a ∧ a < e.src + 8 * e.count) ∨ (e.dst ≤ a ∧ a < e.dst + 2 * e.count))) (b : Byte) :
    agentWrite a b s =
      (s.raceWrite (s.engines.any fun e => e.running && e.wrote a) a b).mark fun e => e.holds a :=
  if_pos (any_running_holds_iff.mpr h)

/-- A byte that a write in a race does not change is one that an engine has stored already (20_memory R80). -/
theorem read_raceWrite {s : State} (hwf : s.mem.wf) (u : Bool) (a : Nat) (b : Byte) :
    (s.raceWrite u a b).mem.read a = b ∨ ((s.raceWrite u a b).mem.read a = s.mem.read a ∧ u = true) := by
  rw [State.raceWrite, State.withStore_mem]
  split
  · rename_i hlost
    exact .inr ⟨rfl, (Bool.and_eq_true _ _ ▸ hlost).1⟩
  · exact .inl (Memory.read_write_same hwf a b)

theorem any_running_wrote_iff {s : State} {a : Nat} :
    (s.engines.any fun e => e.running && e.wrote a) = true ↔
      ∃ e ∈ s.engines, e.running = true ∧ e.dst ≤ a ∧ a < e.dst + e.idx ∧ a < e.dst + 2 * e.count := by
  simp only [List.any_eq_true, Bool.and_eq_true, Engine.wrote, Engine.inOutput_iff, decide_eq_true_eq,
    Engine.outAddr_eq]
  refine exists_congr fun e => ?_
  tauto

/-- Settles O12: an access is plain outside the buffers it races in, and within them a read or a write in a race. -/
theorem agentAccessesRaceInBusyBuffers : Obligations.AgentAccessesRaceInBusyBuffers := by
  unfold Obligations.AgentAccessesRaceInBusyBuffers
  intro s rest a b hwf
  refine ⟨fun hi => ?_, fun hi => ?_⟩
  · rw [step_action hi, hostAction]
    refine ⟨fun ha => if_pos ha, fun ha hc he => ?_, fun ha h => ?_⟩
    · rw [agentLoad_of_lt (s := s.withInputs rest) ha, agentRead_quiet (s := s.withInputs rest) hc he]
      rfl
    · obtain ⟨v, hv, e⟩ := agentRead_race (s := s.withInputs rest) h
      rw [agentLoad_of_lt (s := s.withInputs rest) ha, e]
      exact ⟨v, rfl, candidates_cases hv⟩
  · rw [step_action hi, hostAction]
    refine ⟨fun ha => if_pos ha, fun ha he => ?_, fun ha h => ?_⟩
    · rw [agentStore_of_lt (s := s.withInputs rest) ha, agentWrite_quiet (s := s.withInputs rest) he]
      rfl
    · rw [agentStore_of_lt (s := s.withInputs rest) ha, agentWrite_busy (s := s.withInputs rest) h]
      have hframe := storeFrame_raceWrite (s := s.withInputs rest) hwf
        ((s.withInputs rest).engines.any fun e => e.running && e.wrote a) a b
      refine ⟨_, rfl, ?_, fun a' ha' => hframe.outside a' (by simp only [List.length_singleton]; omega),
        List.mem_cons_self, List.mem_cons_of_mem _ List.mem_cons_self, rfl, rfl, rfl, rfl, ?_, List.length_map _,
        fun k e hk => ?_⟩
      · exact (read_raceWrite (s := s.withInputs rest) hwf _ a b).imp id (And.imp_right any_running_wrote_iff.mp)
      · rw [State.mark_engines, List.length_map]
        rfl
      · rw [← Engine.holds_iff, State.mark_engines]
        exact getElem?_map_markIf (p := fun e => e.holds a) hk

/-! ### Reset in RUN -/

theorem applyReset_mem {s : State} (h : s.eng.running = true) : (applyReset s).mem = s.abandoned.mem := by
  simp [applyReset, h]

/-- A reset in RUN writes to the output buffer only (70_reset_and_hazards R242). -/
theorem read_applyReset_outside {s : State} (hwf : s.mem.wf) (h : s.eng.running = true) {a : Nat}
    (ha : ¬(s.eng.dst ≤ a ∧ a < s.eng.dst + 2 * s.eng.count)) : (applyReset s).mem.read a = s.mem.read a := by
  rw [applyReset_mem h]
  exact (storeFrame_abandoned hwf).outside a (by simp only [State.length_abandonedBytes, Engine.scalars]; omega)

/-- Output scalar `k` of a command in no race after a reset: as before the command, as stored, or as it would have
been stored (70_reset_and_hazards R242). -/
theorem read_applyReset_unraced {s : State} (hwf : s.mem.wf) (h : s.eng.running = true) (hu : s.eng.raced = false)
    {k : Nat} (hk : k < 2 * s.eng.count) :
    (applyReset s).mem.read (s.eng.dst + k) = s.eng.launch.read (s.eng.dst + k) ∨
      (k < s.eng.idx ∧ (applyReset s).mem.read (s.eng.dst + k) = s.mem.read (s.eng.dst + k)) ∨
      (s.eng.idx ≤ k ∧ ∃ v, fp2i8 (nanResult s.params.nanPolicy (.reset k) s.draws)
        (scalarAt s.params.endian s.mem (s.eng.src + 4 * k)) = some v ∧
        (applyReset s).mem.read (s.eng.dst + k) = byte v) := by
  have hread : (applyReset s).mem.read (s.eng.dst + k) = s.abandonedByte k := by
    rw [applyReset_mem h, State.abandoned, hu, if_neg Bool.false_ne_true, ← Engine.outAddr_eq]
    exact read_abandonOutput_inside hwf hu hk
  rw [hread, State.abandonedByte, ← Engine.outAddr_eq]
  split
  · cases hc : s.convertedByte (.reset k) s.eng k with
    | none => exact .inl rfl
    | some v =>
      rcases convertedByte_cases hc with ⟨hlt, hv⟩ | ⟨hle, hraced | hv⟩
      · exact .inr (.inl ⟨hlt, hv⟩)
      · cases hu.symm.trans hraced
      · exact .inr (.inr ⟨hle, hv⟩)
  · exact .inl rfl

/-- Output scalar `k` of a command in a race after a reset: one of the values a read may find there (log entry 12). -/
theorem read_applyReset_raced {s : State} (hwf : s.mem.wf) (h : s.eng.running = true) (hraced : s.eng.raced = true)
    {k : Nat} (hk : k < 2 * s.eng.count) :
    (applyReset s).mem.read (s.eng.dst + k) ∈ s.candidates s.reader s.engines (s.eng.dst + k) := by
  have hbyte : (s.abandonedBytes s.eng.scalars)[k]? = some (s.raceRead s.reader s.engines (s.eng.dst + k)) := by
    rw [← Engine.outAddr_eq]
    simp [State.abandonedBytes, Engine.scalars, hk, hraced]
  rw [applyReset_mem h]
  rcases (storeFrame_abandoned hwf).inside k _ hbyte with hread | hread
  · rw [hread]
    exact s.raceRead_mem _ _ _
  · rw [hread]
    exact List.mem_cons_self

/-- Settles O16: the frame of reset and the three values of an output byte; progress says what the stored one is. -/
theorem resetInRunLeavesOldOrConverted : Obligations.ResetInRunLeavesOldOrConverted := by
  unfold Obligations.ResetInRunLeavesOldOrConverted
  intro s rest hinv hi hl hp
  have hrun : (s.withInputs rest).eng.running = true := Engine.running_iff.mpr ⟨hl, hp⟩
  obtain ⟨fparams, fbefore, fafter, fplatform, finputs, fanswers, feng⟩ := applyReset_frame (s.withInputs rest)
  have unraced : s.eng.raced = false → ∀ k < 2 * s.eng.count, _ := fun hu k hk =>
    read_applyReset_unraced (s := s.withInputs rest) hinv.memWf hrun hu hk
  refine ⟨_, by rw [step_action hi, hostAction], feng, finputs, fbefore, fafter, fparams, fplatform, fanswers,
    fun a ha => read_applyReset_outside (s := s.withInputs rest) hinv.memWf hrun ha, fun hu k hk => ?_,
    fun hu hprogress k hk hn => ?_,
    fun hraced k hk => read_applyReset_raced (s := s.withInputs rest) hinv.memWf hrun hraced hk⟩
  · exact (unraced hu k hk).imp id (Or.imp id (And.imp_right fun h => ⟨_, h⟩))
  · rcases unraced hu k hk with hold | ⟨hlt, hstored⟩ | ⟨-, v, hv, hbyte⟩
    · exact .inl hold
    · obtain ⟨v, hv, hbyte⟩ := hprogress.stored k hlt hn
      rw [Engine.outAddr_eq] at hbyte
      exact .inr ⟨v, hv, hstored.trans hbyte⟩
    · exact .inr ⟨v, (fp2i8_of_not_nan hn _ _).trans hv, hbyte⟩

end Sys2Proof.Machine
